-- ==== Sys2Proof/Word.lean ====
section
/-! DEFINITION. Bytes, addresses, the addressing modes and the operand of an instruction (spec/00_scope.md R7,
spec/30_encoding.md R71 and R74 to R88). Arithmetic on them stands in Decode.lean and Machine/. -/

namespace Sys2Proof

/-- A byte, `u8` of R7. -/
abbrev Byte := BitVec 8

/-- A 16-bit address, `u16` of R7. -/
abbrev Addr := BitVec 16

/-- The 13 addressing modes of R72. -/
inductive Mode where
  | implied
  | accumulator
  | immediate
  | zeroPage
  | zeroPageX
  | zeroPageY
  | absolute
  | absoluteX
  | absoluteY
  | indirect
  | indexedIndirect
  | indirectIndexed
  | relative
  deriving DecidableEq, Repr, Inhabited

/-- An operand: the addressing mode with the operand bytes the instruction carries (R71). Implied and accumulator
carry none, the absolute and indirect forms carry the assembled word `a16`, the others one byte `d8`. -/
inductive Operand where
  | implied
  | accumulator
  | immediate (d8 : Byte)
  | zeroPage (d8 : Byte)
  | zeroPageX (d8 : Byte)
  | zeroPageY (d8 : Byte)
  | absolute (a16 : Addr)
  | absoluteX (a16 : Addr)
  | absoluteY (a16 : Addr)
  | indirect (a16 : Addr)
  | indexedIndirect (d8 : Byte)
  | indirectIndexed (d8 : Byte)
  | relative (d8 : Byte)
  deriving DecidableEq, Repr, Inhabited

/-- The mode of an operand. -/
def Operand.mode : Operand → Mode
  | .implied => .implied
  | .accumulator => .accumulator
  | .immediate _ => .immediate
  | .zeroPage _ => .zeroPage
  | .zeroPageX _ => .zeroPageX
  | .zeroPageY _ => .zeroPageY
  | .absolute _ => .absolute
  | .absoluteX _ => .absoluteX
  | .absoluteY _ => .absoluteY
  | .indirect _ => .indirect
  | .indexedIndirect _ => .indexedIndirect
  | .indirectIndexed _ => .indirectIndexed
  | .relative _ => .relative

end Sys2Proof
end

