-- ==== Sys2Proof/Syntax.lean ====
section
/-! DEFINITION. The instructions: one constructor per mnemonic of spec/opcode_table.json, its operand form an argument, so
that each row of the table is one (constructor, form) pair (spec/30_encoding.md R90). Which forms an instruction has is
checked in WellFormed.lean. -/

namespace Sys2Proof

/-- The 56 official instructions and `ill`, the 105 undocumented opcodes (R210), which carries its opcode byte. JSR
carries its target word, a branch its displacement byte. -/
inductive Instr where
  -- 40_load_store_transfer.md
  | lda (o : Operand)
  | ldx (o : Operand)
  | ldy (o : Operand)
  | sta (o : Operand)
  | stx (o : Operand)
  | sty (o : Operand)
  | tax
  | tay
  | txa
  | tya
  | tsx
  | txs
  -- 41_stack.md
  | pha
  | php
  | pla
  | plp
  -- 42_arithmetic.md
  | adc (o : Operand)
  | sbc (o : Operand)
  | cmp (o : Operand)
  | cpx (o : Operand)
  | cpy (o : Operand)
  | inc (o : Operand)
  | inx
  | iny
  | dec (o : Operand)
  | dex
  | dey
  -- 43_logic_shift.md
  | and (o : Operand)
  | ora (o : Operand)
  | eor (o : Operand)
  | bit (o : Operand)
  | asl (o : Operand)
  | lsr (o : Operand)
  | rol (o : Operand)
  | ror (o : Operand)
  -- 44_control_flow.md
  | jmp (o : Operand)
  | jsr (a16 : Addr)
  | rts
  | bcc (d8 : Byte)
  | bcs (d8 : Byte)
  | beq (d8 : Byte)
  | bmi (d8 : Byte)
  | bne (d8 : Byte)
  | bpl (d8 : Byte)
  | bvc (d8 : Byte)
  | bvs (d8 : Byte)
  -- 45_flags_system.md
  | clc
  | cld
  | cli
  | clv
  | sec
  | sed
  | sei
  | nop
  | brk
  | rti
  -- 46_illegal.md
  | ill (op : Byte)
  deriving DecidableEq, Repr

end Sys2Proof
end

