-- ==== Sys2Proof/WellFormed.lean ====
section
/-! DEFINITION. Which instruction terms have an encoding: the forms each instruction has (the Encoding lines of
spec/40 to 45) and which bytes are undocumented opcodes (spec/30_encoding.md R91). -/

namespace Sys2Proof

/-- The eight forms of the read instructions on A: LDA, ADC, SBC, CMP, AND, ORA, EOR (R100, R130, R132, R134, R150 to
R152). -/
def aluModes : List Mode :=
  [.immediate, .zeroPage, .zeroPageX, .absolute, .absoluteX, .absoluteY, .indexedIndirect, .indirectIndexed]

/-- The five forms of the shifts and rotates (R154 to R157). -/
def shiftModes : List Mode :=
  [.accumulator, .zeroPage, .zeroPageX, .absolute, .absoluteX]

/-- The four forms of INC and DEC (R137, R140). -/
def incModes : List Mode :=
  [.zeroPage, .zeroPageX, .absolute, .absoluteX]

/-- The undocumented opcodes, column by column as R91 lists them. -/
def isUndocumented (op : Byte) : Bool :=
  let row := op.toNat / 16
  match op.toNat % 16 with
  | 0x0 => row == 0x8
  | 0x2 => row != 0xA
  | 0x3 => true
  | 0x4 => [0x0, 0x1, 0x3, 0x4, 0x5, 0x6, 0x7, 0xD, 0xF].contains row
  | 0x7 => true
  | 0x9 => row == 0x8
  | 0xA => [0x1, 0x3, 0x5, 0x7, 0xD, 0xF].contains row
  | 0xB => true
  | 0xC => [0x0, 0x1, 0x3, 0x5, 0x7, 0x9, 0xD, 0xF].contains row
  | 0xE => row == 0x9
  | 0xF => true
  | _ => false

/-- The instruction has an encoding: its form is one its rule lists, an `ill` carries an undocumented opcode. -/
def Instr.wf : Instr → Bool
  | .lda o => aluModes.contains o.mode
  | .ldx o => [Mode.immediate, .zeroPage, .zeroPageY, .absolute, .absoluteY].contains o.mode
  | .ldy o => [Mode.immediate, .zeroPage, .zeroPageX, .absolute, .absoluteX].contains o.mode
  | .sta o => [Mode.zeroPage, .zeroPageX, .absolute, .absoluteX, .absoluteY, .indexedIndirect, .indirectIndexed].contains o.mode
  | .stx o => [Mode.zeroPage, .zeroPageY, .absolute].contains o.mode
  | .sty o => [Mode.zeroPage, .zeroPageX, .absolute].contains o.mode
  | .tax => true
  | .tay => true
  | .txa => true
  | .tya => true
  | .tsx => true
  | .txs => true
  | .pha => true
  | .php => true
  | .pla => true
  | .plp => true
  | .adc o => aluModes.contains o.mode
  | .sbc o => aluModes.contains o.mode
  | .cmp o => aluModes.contains o.mode
  | .cpx o => [Mode.immediate, .zeroPage, .absolute].contains o.mode
  | .cpy o => [Mode.immediate, .zeroPage, .absolute].contains o.mode
  | .inc o => incModes.contains o.mode
  | .inx => true
  | .iny => true
  | .dec o => incModes.contains o.mode
  | .dex => true
  | .dey => true
  | .and o => aluModes.contains o.mode
  | .ora o => aluModes.contains o.mode
  | .eor o => aluModes.contains o.mode
  | .bit o => [Mode.zeroPage, .absolute].contains o.mode
  | .asl o => shiftModes.contains o.mode
  | .lsr o => shiftModes.contains o.mode
  | .rol o => shiftModes.contains o.mode
  | .ror o => shiftModes.contains o.mode
  | .jmp o => [Mode.absolute, .indirect].contains o.mode
  | .jsr _ => true
  | .rts => true
  | .bcc _ => true
  | .bcs _ => true
  | .beq _ => true
  | .bmi _ => true
  | .bne _ => true
  | .bpl _ => true
  | .bvc _ => true
  | .bvs _ => true
  | .clc => true
  | .cld => true
  | .cli => true
  | .clv => true
  | .sec => true
  | .sed => true
  | .sei => true
  | .nop => true
  | .brk => true
  | .rti => true
  | .ill op => isUndocumented op

end Sys2Proof
end

