-- ==== Sys2Proof/Decode.lean ====
section
/-! DEFINITION. The decoder, total on any bytes, and after it the encoder. The decoder follows the opcode matrix of
spec/30_encoding.md R90 (and spec/opcode_table.json); the encoder follows the Encoding line of each instruction's rule in
spec/40 to 45. -/

namespace Sys2Proof

/-- `a[7:0]`. -/
def lowByte (a : Addr) : Byte := a.setWidth 8

/-- `a[15:8]`, which R7 also calls `page(a)`. -/
def highByte (a : Addr) : Byte := (a >>> 8).setWidth 8

/-- `{hi, lo}`: the little-endian pair of R43, high byte first in the argument list. -/
def word (hi lo : Byte) : Addr := hi ++ lo

/-- The operand bytes in program order, low byte first (R71, R43). -/
def Operand.bytes : Operand → List Byte
  | .implied => []
  | .accumulator => []
  | .immediate d8 => [d8]
  | .zeroPage d8 => [d8]
  | .zeroPageX d8 => [d8]
  | .zeroPageY d8 => [d8]
  | .absolute a16 => [lowByte a16, highByte a16]
  | .absoluteX a16 => [lowByte a16, highByte a16]
  | .absoluteY a16 => [lowByte a16, highByte a16]
  | .indirect a16 => [lowByte a16, highByte a16]
  | .indexedIndirect d8 => [d8]
  | .indirectIndexed d8 => [d8]
  | .relative d8 => [d8]

/-- How many operand bytes a mode has (R71, R73 less the opcode byte). -/
def Mode.operandBytes : Mode → Nat
  | .implied => 0
  | .accumulator => 0
  | .immediate => 1
  | .zeroPage => 1
  | .zeroPageX => 1
  | .zeroPageY => 1
  | .absolute => 2
  | .absoluteX => 2
  | .absoluteY => 2
  | .indirect => 2
  | .indexedIndirect => 1
  | .indirectIndexed => 1
  | .relative => 1

/-- The operand a mode makes of the two bytes after the opcode (R71): the bytes it does not have are ignored. -/
def Mode.operand : Mode → Byte → Byte → Operand
  | .implied, _, _ => .implied
  | .accumulator, _, _ => .accumulator
  | .immediate, b1, _ => .immediate b1
  | .zeroPage, b1, _ => .zeroPage b1
  | .zeroPageX, b1, _ => .zeroPageX b1
  | .zeroPageY, b1, _ => .zeroPageY b1
  | .absolute, b1, b2 => .absolute (word b2 b1)
  | .absoluteX, b1, b2 => .absoluteX (word b2 b1)
  | .absoluteY, b1, b2 => .absoluteY (word b2 b1)
  | .indirect, b1, b2 => .indirect (word b2 b1)
  | .indexedIndirect, b1, _ => .indexedIndirect b1
  | .indirectIndexed, b1, _ => .indirectIndexed b1
  | .relative, b1, _ => .relative b1

/-- What one entry of the opcode matrix makes of the opcode byte and the two bytes after it. -/
abbrev MatrixEntry := Byte → Byte → Byte → Instr

/-- An entry without operand bytes. -/
def entryPlain (i : Instr) : MatrixEntry := fun _ _ _ => i

/-- An entry whose instruction takes an operand in mode `m`. -/
def entryMode (c : Operand → Instr) (m : Mode) : MatrixEntry := fun _ b1 b2 => c (m.operand b1 b2)

/-- A branch: the operand is the displacement byte (R88). -/
def entryBranch (c : Byte → Instr) : MatrixEntry := fun _ b1 _ => c b1

/-- JSR: the operand is the target word (R171). -/
def entryCall : MatrixEntry := fun _ b1 b2 => .jsr (word b2 b1)

/-- `-` in the matrix: an undocumented opcode (R91). -/
def entryIll : MatrixEntry := fun op _ _ => .ill op

/-- Row 0x of the matrix of R90. -/
def matrixRow0 : List MatrixEntry :=
  [entryPlain .brk, entryMode .ora .indexedIndirect, entryIll, entryIll,
   entryIll, entryMode .ora .zeroPage, entryMode .asl .zeroPage, entryIll,
   entryPlain .php, entryMode .ora .immediate, entryMode .asl .accumulator, entryIll,
   entryIll, entryMode .ora .absolute, entryMode .asl .absolute, entryIll]

/-- Row 1x of the matrix of R90. -/
def matrixRow1 : List MatrixEntry :=
  [entryBranch .bpl, entryMode .ora .indirectIndexed, entryIll, entryIll,
   entryIll, entryMode .ora .zeroPageX, entryMode .asl .zeroPageX, entryIll,
   entryPlain .clc, entryMode .ora .absoluteY, entryIll, entryIll,
   entryIll, entryMode .ora .absoluteX, entryMode .asl .absoluteX, entryIll]

/-- Row 2x of the matrix of R90. -/
def matrixRow2 : List MatrixEntry :=
  [entryCall, entryMode .and .indexedIndirect, entryIll, entryIll,
   entryMode .bit .zeroPage, entryMode .and .zeroPage, entryMode .rol .zeroPage, entryIll,
   entryPlain .plp, entryMode .and .immediate, entryMode .rol .accumulator, entryIll,
   entryMode .bit .absolute, entryMode .and .absolute, entryMode .rol .absolute, entryIll]

/-- Row 3x of the matrix of R90. -/
def matrixRow3 : List MatrixEntry :=
  [entryBranch .bmi, entryMode .and .indirectIndexed, entryIll, entryIll,
   entryIll, entryMode .and .zeroPageX, entryMode .rol .zeroPageX, entryIll,
   entryPlain .sec, entryMode .and .absoluteY, entryIll, entryIll,
   entryIll, entryMode .and .absoluteX, entryMode .rol .absoluteX, entryIll]

/-- Row 4x of the matrix of R90. -/
def matrixRow4 : List MatrixEntry :=
  [entryPlain .rti, entryMode .eor .indexedIndirect, entryIll, entryIll,
   entryIll, entryMode .eor .zeroPage, entryMode .lsr .zeroPage, entryIll,
   entryPlain .pha, entryMode .eor .immediate, entryMode .lsr .accumulator, entryIll,
   entryMode .jmp .absolute, entryMode .eor .absolute, entryMode .lsr .absolute, entryIll]

/-- Row 5x of the matrix of R90. -/
def matrixRow5 : List MatrixEntry :=
  [entryBranch .bvc, entryMode .eor .indirectIndexed, entryIll, entryIll,
   entryIll, entryMode .eor .zeroPageX, entryMode .lsr .zeroPageX, entryIll,
   entryPlain .cli, entryMode .eor .absoluteY, entryIll, entryIll,
   entryIll, entryMode .eor .absoluteX, entryMode .lsr .absoluteX, entryIll]

/-- Row 6x of the matrix of R90. -/
def matrixRow6 : List MatrixEntry :=
  [entryPlain .rts, entryMode .adc .indexedIndirect, entryIll, entryIll,
   entryIll, entryMode .adc .zeroPage, entryMode .ror .zeroPage, entryIll,
   entryPlain .pla, entryMode .adc .immediate, entryMode .ror .accumulator, entryIll,
   entryMode .jmp .indirect, entryMode .adc .absolute, entryMode .ror .absolute, entryIll]

/-- Row 7x of the matrix of R90. -/
def matrixRow7 : List MatrixEntry :=
  [entryBranch .bvs, entryMode .adc .indirectIndexed, entryIll, entryIll,
   entryIll, entryMode .adc .zeroPageX, entryMode .ror .zeroPageX, entryIll,
   entryPlain .sei, entryMode .adc .absoluteY, entryIll, entryIll,
   entryIll, entryMode .adc .absoluteX, entryMode .ror .absoluteX, entryIll]

/-- Row 8x of the matrix of R90. -/
def matrixRow8 : List MatrixEntry :=
  [entryIll, entryMode .sta .indexedIndirect, entryIll, entryIll,
   entryMode .sty .zeroPage, entryMode .sta .zeroPage, entryMode .stx .zeroPage, entryIll,
   entryPlain .dey, entryIll, entryPlain .txa, entryIll,
   entryMode .sty .absolute, entryMode .sta .absolute, entryMode .stx .absolute, entryIll]

/-- Row 9x of the matrix of R90. -/
def matrixRow9 : List MatrixEntry :=
  [entryBranch .bcc, entryMode .sta .indirectIndexed, entryIll, entryIll,
   entryMode .sty .zeroPageX, entryMode .sta .zeroPageX, entryMode .stx .zeroPageY, entryIll,
   entryPlain .tya, entryMode .sta .absoluteY, entryPlain .txs, entryIll,
   entryIll, entryMode .sta .absoluteX, entryIll, entryIll]

/-- Row Ax of the matrix of R90. -/
def matrixRowA : List MatrixEntry :=
  [entryMode .ldy .immediate, entryMode .lda .indexedIndirect, entryMode .ldx .immediate, entryIll,
   entryMode .ldy .zeroPage, entryMode .lda .zeroPage, entryMode .ldx .zeroPage, entryIll,
   entryPlain .tay, entryMode .lda .immediate, entryPlain .tax, entryIll,
   entryMode .ldy .absolute, entryMode .lda .absolute, entryMode .ldx .absolute, entryIll]

/-- Row Bx of the matrix of R90. -/
def matrixRowB : List MatrixEntry :=
  [entryBranch .bcs, entryMode .lda .indirectIndexed, entryIll, entryIll,
   entryMode .ldy .zeroPageX, entryMode .lda .zeroPageX, entryMode .ldx .zeroPageY, entryIll,
   entryPlain .clv, entryMode .lda .absoluteY, entryPlain .tsx, entryIll,
   entryMode .ldy .absoluteX, entryMode .lda .absoluteX, entryMode .ldx .absoluteY, entryIll]

/-- Row Cx of the matrix of R90. -/
def matrixRowC : List MatrixEntry :=
  [entryMode .cpy .immediate, entryMode .cmp .indexedIndirect, entryIll, entryIll,
   entryMode .cpy .zeroPage, entryMode .cmp .zeroPage, entryMode .dec .zeroPage, entryIll,
   entryPlain .iny, entryMode .cmp .immediate, entryPlain .dex, entryIll,
   entryMode .cpy .absolute, entryMode .cmp .absolute, entryMode .dec .absolute, entryIll]

/-- Row Dx of the matrix of R90. -/
def matrixRowD : List MatrixEntry :=
  [entryBranch .bne, entryMode .cmp .indirectIndexed, entryIll, entryIll,
   entryIll, entryMode .cmp .zeroPageX, entryMode .dec .zeroPageX, entryIll,
   entryPlain .cld, entryMode .cmp .absoluteY, entryIll, entryIll,
   entryIll, entryMode .cmp .absoluteX, entryMode .dec .absoluteX, entryIll]

/-- Row Ex of the matrix of R90. -/
def matrixRowE : List MatrixEntry :=
  [entryMode .cpx .immediate, entryMode .sbc .indexedIndirect, entryIll, entryIll,
   entryMode .cpx .zeroPage, entryMode .sbc .zeroPage, entryMode .inc .zeroPage, entryIll,
   entryPlain .inx, entryMode .sbc .immediate, entryPlain .nop, entryIll,
   entryMode .cpx .absolute, entryMode .sbc .absolute, entryMode .inc .absolute, entryIll]

/-- Row Fx of the matrix of R90. -/
def matrixRowF : List MatrixEntry :=
  [entryBranch .beq, entryMode .sbc .indirectIndexed, entryIll, entryIll,
   entryIll, entryMode .sbc .zeroPageX, entryMode .inc .zeroPageX, entryIll,
   entryPlain .sed, entryMode .sbc .absoluteY, entryIll, entryIll,
   entryIll, entryMode .sbc .absoluteX, entryMode .inc .absoluteX, entryIll]

/-- The opcode matrix of R90, its 16 rows in order. -/
def opcodeMatrix : List (List MatrixEntry) :=
  [matrixRow0, matrixRow1, matrixRow2, matrixRow3, matrixRow4, matrixRow5, matrixRow6, matrixRow7,
   matrixRow8, matrixRow9, matrixRowA, matrixRowB, matrixRowC, matrixRowD, matrixRowE, matrixRowF]

/-- The matrix entry of an opcode byte: row = high nibble, column = low nibble. -/
def matrixEntry (op : Byte) : MatrixEntry :=
  (opcodeMatrix.getD (op.toNat / 16) []).getD (op.toNat % 16) entryIll

/-- The instruction that the opcode byte `op` and the two bytes after it make. Bytes the instruction does not have are
ignored. Total: every opcode byte is an instruction (R91). -/
def decodeOp (op b1 b2 : Byte) : Instr := matrixEntry op op b1 b2

/-- The operand of an instruction, as far as the bytes after its opcode go: what the step fetches besides the opcode. BRK
reads no operand byte (R198); ILL's operand reads are part of its execution, since its mode is a parameter (R210). -/
def Instr.operand : Instr → Operand
  | .lda o => o
  | .ldx o => o
  | .ldy o => o
  | .sta o => o
  | .stx o => o
  | .sty o => o
  | .tax => .implied
  | .tay => .implied
  | .txa => .implied
  | .tya => .implied
  | .tsx => .implied
  | .txs => .implied
  | .pha => .implied
  | .php => .implied
  | .pla => .implied
  | .plp => .implied
  | .adc o => o
  | .sbc o => o
  | .cmp o => o
  | .cpx o => o
  | .cpy o => o
  | .inc o => o
  | .inx => .implied
  | .iny => .implied
  | .dec o => o
  | .dex => .implied
  | .dey => .implied
  | .and o => o
  | .ora o => o
  | .eor o => o
  | .bit o => o
  | .asl o => o
  | .lsr o => o
  | .rol o => o
  | .ror o => o
  | .jmp o => o
  | .jsr a16 => .absolute a16
  | .rts => .implied
  | .bcc d8 => .relative d8
  | .bcs d8 => .relative d8
  | .beq d8 => .relative d8
  | .bmi d8 => .relative d8
  | .bne d8 => .relative d8
  | .bpl d8 => .relative d8
  | .bvc d8 => .relative d8
  | .bvs d8 => .relative d8
  | .clc => .implied
  | .cld => .implied
  | .cli => .implied
  | .clv => .implied
  | .sec => .implied
  | .sed => .implied
  | .sei => .implied
  | .nop => .implied
  | .brk => .implied
  | .rti => .implied
  | .ill _ => .implied

/-- How many operand bytes the step fetches after opcode `op` (0, 1 or 2). -/
def operandCount (op : Byte) : Nat := (decodeOp op 0 0).operand.mode.operandBytes

/-- Why a byte list is no whole instruction. -/
inductive DecodeError where
  /-- There is no byte at all. -/
  | noOpcode
  /-- The opcode `op` has operand bytes that are not all there. -/
  | operandMissing (op : Byte)
  deriving DecidableEq, Repr

/-- The outcome of decoding a byte list: an instruction with the bytes after it, or a rejection by name. -/
inductive Decoded where
  | instr (i : Instr) (rest : List Byte)
  | rejected (e : DecodeError)
  deriving DecidableEq, Repr

/-- The decoder on a list of bytes in address order: the first instruction and the bytes after it. Total; the only
rejections are a list that ends too early. -/
def decode : List Byte → Decoded
  | [] => .rejected .noOpcode
  | op :: rest =>
    match operandCount op, rest with
    | 0, _ => .instr (decodeOp op 0 0) rest
    | 1, b1 :: tail => .instr (decodeOp op b1 0) tail
    | 2, b1 :: b2 :: tail => .instr (decodeOp op b1 b2) tail
    | _, _ => .rejected (.operandMissing op)

/-- Byte `k` of a table word: bits `8*k+7` to `8*k` of `w`, of which only the low `nbits` bits count (the rest are 0). -/
def tableByte (nbits w k : Nat) : Byte := BitVec.ofNat 8 (w % 2 ^ nbits / 2 ^ (8 * k))

/-- The instruction the decoder reads from an instruction whose bits are `w`, numbered as spec/opcode_table.json numbers
them: bit 0 is the least significant bit of the first byte, the second byte is bits 15..8. Bits above `nbits` are 0. -/
def decodeTableWord (nbits w : Nat) : Option Instr :=
  match decode [tableByte nbits w 0, tableByte nbits w 1, tableByte nbits w 2] with
  | .instr i _ => some i
  | .rejected _ => none

/-- The opcode byte of an instruction: the Encoding lines of R100 to R199. `none` where the instruction lacks the form. -/
def Instr.opcode : Instr → Option Byte
  | .lda o =>
    match o.mode with
    | .immediate => some 0xA9
    | .zeroPage => some 0xA5
    | .zeroPageX => some 0xB5
    | .absolute => some 0xAD
    | .absoluteX => some 0xBD
    | .absoluteY => some 0xB9
    | .indexedIndirect => some 0xA1
    | .indirectIndexed => some 0xB1
    | _ => none
  | .ldx o =>
    match o.mode with
    | .immediate => some 0xA2
    | .zeroPage => some 0xA6
    | .zeroPageY => some 0xB6
    | .absolute => some 0xAE
    | .absoluteY => some 0xBE
    | _ => none
  | .ldy o =>
    match o.mode with
    | .immediate => some 0xA0
    | .zeroPage => some 0xA4
    | .zeroPageX => some 0xB4
    | .absolute => some 0xAC
    | .absoluteX => some 0xBC
    | _ => none
  | .sta o =>
    match o.mode with
    | .zeroPage => some 0x85
    | .zeroPageX => some 0x95
    | .absolute => some 0x8D
    | .absoluteX => some 0x9D
    | .absoluteY => some 0x99
    | .indexedIndirect => some 0x81
    | .indirectIndexed => some 0x91
    | _ => none
  | .stx o =>
    match o.mode with
    | .zeroPage => some 0x86
    | .zeroPageY => some 0x96
    | .absolute => some 0x8E
    | _ => none
  | .sty o =>
    match o.mode with
    | .zeroPage => some 0x84
    | .zeroPageX => some 0x94
    | .absolute => some 0x8C
    | _ => none
  | .tax => some 0xAA
  | .tay => some 0xA8
  | .txa => some 0x8A
  | .tya => some 0x98
  | .tsx => some 0xBA
  | .txs => some 0x9A
  | .pha => some 0x48
  | .php => some 0x08
  | .pla => some 0x68
  | .plp => some 0x28
  | .adc o =>
    match o.mode with
    | .immediate => some 0x69
    | .zeroPage => some 0x65
    | .zeroPageX => some 0x75
    | .absolute => some 0x6D
    | .absoluteX => some 0x7D
    | .absoluteY => some 0x79
    | .indexedIndirect => some 0x61
    | .indirectIndexed => some 0x71
    | _ => none
  | .sbc o =>
    match o.mode with
    | .immediate => some 0xE9
    | .zeroPage => some 0xE5
    | .zeroPageX => some 0xF5
    | .absolute => some 0xED
    | .absoluteX => some 0xFD
    | .absoluteY => some 0xF9
    | .indexedIndirect => some 0xE1
    | .indirectIndexed => some 0xF1
    | _ => none
  | .cmp o =>
    match o.mode with
    | .immediate => some 0xC9
    | .zeroPage => some 0xC5
    | .zeroPageX => some 0xD5
    | .absolute => some 0xCD
    | .absoluteX => some 0xDD
    | .absoluteY => some 0xD9
    | .indexedIndirect => some 0xC1
    | .indirectIndexed => some 0xD1
    | _ => none
  | .cpx o =>
    match o.mode with
    | .immediate => some 0xE0
    | .zeroPage => some 0xE4
    | .absolute => some 0xEC
    | _ => none
  | .cpy o =>
    match o.mode with
    | .immediate => some 0xC0
    | .zeroPage => some 0xC4
    | .absolute => some 0xCC
    | _ => none
  | .inc o =>
    match o.mode with
    | .zeroPage => some 0xE6
    | .zeroPageX => some 0xF6
    | .absolute => some 0xEE
    | .absoluteX => some 0xFE
    | _ => none
  | .inx => some 0xE8
  | .iny => some 0xC8
  | .dec o =>
    match o.mode with
    | .zeroPage => some 0xC6
    | .zeroPageX => some 0xD6
    | .absolute => some 0xCE
    | .absoluteX => some 0xDE
    | _ => none
  | .dex => some 0xCA
  | .dey => some 0x88
  | .and o =>
    match o.mode with
    | .immediate => some 0x29
    | .zeroPage => some 0x25
    | .zeroPageX => some 0x35
    | .absolute => some 0x2D
    | .absoluteX => some 0x3D
    | .absoluteY => some 0x39
    | .indexedIndirect => some 0x21
    | .indirectIndexed => some 0x31
    | _ => none
  | .ora o =>
    match o.mode with
    | .immediate => some 0x09
    | .zeroPage => some 0x05
    | .zeroPageX => some 0x15
    | .absolute => some 0x0D
    | .absoluteX => some 0x1D
    | .absoluteY => some 0x19
    | .indexedIndirect => some 0x01
    | .indirectIndexed => some 0x11
    | _ => none
  | .eor o =>
    match o.mode with
    | .immediate => some 0x49
    | .zeroPage => some 0x45
    | .zeroPageX => some 0x55
    | .absolute => some 0x4D
    | .absoluteX => some 0x5D
    | .absoluteY => some 0x59
    | .indexedIndirect => some 0x41
    | .indirectIndexed => some 0x51
    | _ => none
  | .bit o =>
    match o.mode with
    | .zeroPage => some 0x24
    | .absolute => some 0x2C
    | _ => none
  | .asl o =>
    match o.mode with
    | .accumulator => some 0x0A
    | .zeroPage => some 0x06
    | .zeroPageX => some 0x16
    | .absolute => some 0x0E
    | .absoluteX => some 0x1E
    | _ => none
  | .lsr o =>
    match o.mode with
    | .accumulator => some 0x4A
    | .zeroPage => some 0x46
    | .zeroPageX => some 0x56
    | .absolute => some 0x4E
    | .absoluteX => some 0x5E
    | _ => none
  | .rol o =>
    match o.mode with
    | .accumulator => some 0x2A
    | .zeroPage => some 0x26
    | .zeroPageX => some 0x36
    | .absolute => some 0x2E
    | .absoluteX => some 0x3E
    | _ => none
  | .ror o =>
    match o.mode with
    | .accumulator => some 0x6A
    | .zeroPage => some 0x66
    | .zeroPageX => some 0x76
    | .absolute => some 0x6E
    | .absoluteX => some 0x7E
    | _ => none
  | .jmp o =>
    match o.mode with
    | .absolute => some 0x4C
    | .indirect => some 0x6C
    | _ => none
  | .jsr _ => some 0x20
  | .rts => some 0x60
  | .bcc _ => some 0x90
  | .bcs _ => some 0xB0
  | .beq _ => some 0xF0
  | .bmi _ => some 0x30
  | .bne _ => some 0xD0
  | .bpl _ => some 0x10
  | .bvc _ => some 0x50
  | .bvs _ => some 0x70
  | .clc => some 0x18
  | .cld => some 0xD8
  | .cli => some 0x58
  | .clv => some 0xB8
  | .sec => some 0x38
  | .sed => some 0xF8
  | .sei => some 0x78
  | .nop => some 0xEA
  | .brk => some 0x00
  | .rti => some 0x40
  | .ill op => if isUndocumented op then some op else none

/-- The bytes of an instruction in address order: the opcode and the operand bytes the step reads (BRK's padding byte,
which is never read, is not among them; an ILL is its opcode byte). An ill-formed term has no bytes. -/
def encode (i : Instr) : List Byte :=
  match i.opcode with
  | some op => op :: i.operand.bytes
  | none => []

end Sys2Proof
end

