-- ==== Sys2Proof/Config.lean ====
section
/-! DEFINITION. What an implementation fixes: the parameters of spec/00_scope.md R6 as one structure of plain data
(`State.config` holds one, so every statement about all states holds for every value of them), and the free values, which
are opaque constants with no body. -/

namespace Sys2Proof

/-- `DECIMAL_MODE` (R131, R133, decision D12). -/
inductive DecimalMode where
  | binary
  | nmosBcd
  deriving DecidableEq, Repr, Inhabited

/-- `ACCEPTOR_RESPONSE` (R290, R291, decision D34). -/
inductive AcceptorResponse where
  | literal
  | ieee488
  deriving DecidableEq, Repr, Inhabited

/-- A value of `LEGACY_OFFSET`: "offset 1 or 2" (R296). -/
inductive LegacyStart where
  | one
  | two
  deriving DecidableEq, Repr, Inhabited

/-- The transfer offset a legacy load starts at (R296). -/
def LegacyStart.toNat : LegacyStart → Nat
  | .one => 1
  | .two => 2

/-- The region kinds of the address map other than the chipset window (R46, R47). -/
inductive RegionKind where
  | ram
  | rom
  | video
  | storage
  deriving DecidableEq, Repr

/-- One region of the address map: the `size` addresses from `base` on. -/
structure Region where
  base : Nat
  size : Nat
  kind : RegionKind
  deriving DecidableEq, Repr

/-- The decode-table columns of an undocumented opcode: `ILLEGAL_MODE`, `ILLEGAL_SIZE`, `ILLEGAL_CYCLES`,
`ILLEGAL_PAGE_CYCLE` (R210, R211, decision D13). -/
structure IllegalColumns where
  mode : Mode
  size : Nat
  cycles : Nat
  pageCycle : Bool
  deriving DecidableEq, Repr

/-- The cycle columns of an official opcode: `BASE_CYCLES`, `PAGE_CYCLE` (R72, R89, decisions D16, D10). -/
structure CycleColumns where
  cycles : Nat
  pageCycle : Bool
  deriving DecidableEq, Repr

/-- One row of the cycle table: the columns and the official opcodes that have them. -/
structure CycleRow where
  columns : CycleColumns
  opcodes : List Byte
  deriving DecidableEq, Repr

/-- One row of a table like R211's: the columns and the opcodes that have them. -/
structure IllegalRow where
  columns : IllegalColumns
  opcodes : List Byte
  deriving DecidableEq, Repr

/-- The four ports of the two parallel-I/O adapters: adapter 1 and 2, port A and B (R253). -/
inductive PiaId where
  | p1A
  | p1B
  | p2A
  | p2B
  deriving DecidableEq, Repr

/-- Any of the six 8-bit ports: a parallel-I/O adapter's or the versatile adapter's port A or B (R252). -/
inductive PortId where
  | pia (p : PiaId)
  | viaA
  | viaB
  deriving DecidableEq, Repr

/-- The six lines of the instrument bus (R280). -/
inductive Line where
  | dav
  | nrfd
  | ndac
  | atn
  | eoi
  | srq
  deriving DecidableEq, Repr

/-- The registers an offset of the chipset window can hold (R251 to R265, 93 G6). -/
inductive ChipReg where
  | piaPort (p : PiaId)
  | piaControl (p : PiaId)
  | viaPortA
  | viaPortB
  | viaDdrA
  | viaDdrB
  | t1CounterLow
  | t1CounterHigh
  | t1LatchLow
  | t1LatchHigh
  | t2Low
  | t2High
  | shift
  | auxControl
  | periphControl
  | intFlag
  | intEnable
  deriving DecidableEq, Repr

/-- What drives an input bit of a port: the effective level of a bus line, or the retrace status (R257, R259). -/
inductive InSignal where
  | line (l : Line)
  | retrace
  deriving DecidableEq, Repr

/-- An input bit of a port and the signal wired to it, inverted or not. -/
structure InWire where
  port : PortId
  bit : Nat
  signal : InSignal
  invert : Bool
  deriving DecidableEq, Repr

/-- An output bit of a port and the bus-line setter it drives (R257). -/
structure OutWire where
  port : PortId
  bit : Nat
  line : Line
  deriving DecidableEq, Repr

/-- What handshake output line 2 of a parallel-I/O port drives: a bus-line setter, or the display-blanking line, which is
also the bus's EOI output (R258, R269). -/
inductive HandshakeTarget where
  | line (l : Line)
  | blanking
  deriving DecidableEq, Repr

/-- A handshake output: line 2 of `pia` drives `target`. -/
structure HandshakeOut where
  pia : PiaId
  target : HandshakeTarget
  deriving DecidableEq, Repr

/-- A handshake input: bus line `line` is watched by handshake line 1 or (`second`) line 2 of `pia`. -/
structure HandshakeIn where
  pia : PiaId
  second : Bool
  line : Line
  deriving DecidableEq, Repr

/-- `CHIPSET_MAP`: register offsets inside the 0x50-byte window and the wiring of the ports (R251, R269, decision D21). -/
structure ChipsetMap where
  registers : List (Nat × ChipReg)
  rowPort : PortId
  rowMask : Byte
  columnPort : PortId
  dataInPort : PortId
  dataOutPort : PortId
  inWires : List InWire
  outWires : List OutWire
  handshakeOut : List HandshakeOut
  handshakeIn : List HandshakeIn
  retraceFlag : Option PiaId
  deriving DecidableEq, Repr

/-- The InstrumentBus command bytes, device address, legacy triggers and legacy start offsets (R287, R296, decision D24).
`OPEN_DATA` is the range `openDataFirst` to `openDataLast`. -/
structure BusCodes where
  deviceAddress : Byte
  listenBase : Byte
  talkBase : Byte
  unlisten : Byte
  untalk : Byte
  openLoad : Byte
  openSave : Byte
  openDataFirst : Byte
  openDataLast : Byte
  legacyLoadTrigger : Byte
  legacySaveTrigger : Byte
  legacyOffsetSentinel : LegacyStart
  legacyOffsetOther : LegacyStart
  deriving DecidableEq, Repr

/-- The parameters of R6, row by row. -/
structure Config where
  resetSp : Byte
  resetP : Byte
  initA : Byte
  initX : Byte
  initY : Byte
  nmiVector : Addr
  irqVector : Addr
  stackBase : Addr
  irqPushedB : Bool
  decimalMode : DecimalMode
  illegal : List IllegalRow
  official : List CycleRow
  tickCycles : Nat
  timerDec : Nat
  regions : List Region
  ioBase : Addr
  chipset : ChipsetMap
  bus : BusCodes
  acceptor : AcceptorResponse
  keyDownLevel : Bool
  noSlot : Nat
  notFound : Nat
  listingBase : Addr
  deriving DecidableEq, Repr

/-- What `Storage.current` names (R306, R307): a directory slot, the "no slot" sentinel or the not-found sentinel. The
sentinels' numeric values are the parameters `noSlot` and `notFound` (U18, decision D25). -/
inductive FileRef where
  | slot (i : Fin 46)
  | noSlot
  | notFound
  deriving DecidableEq, Repr, Inhabited

/-- The number the Storage holds and answers for a file: the slot's index, `NO_SLOT` or `NOT_FOUND` (R304, R306). -/
def FileRef.value (cfg : Config) : FileRef → Nat
  | .slot i => i.val
  | .noSlot => cfg.noSlot
  | .notFound => cfg.notFound

/-- Free value: `DECIMAL_MODE` of the reset state; the spec offers no value (U1, log 6). -/
opaque Config.openDecimalMode : DecimalMode

/-- Free value: `ACCEPTOR_RESPONSE` of the reset state; the spec offers no value (U15, log 28). -/
opaque Config.openAcceptor : AcceptorResponse

/-- Free value: `LEGACY_LOAD_TRIGGER` of the reset state; the spec offers no value (U14, log 30). -/
opaque Config.openLegacyLoadTrigger : Byte

/-- Free value: `LEGACY_SAVE_TRIGGER` of the reset state; the spec offers no value (U14, log 30). -/
opaque Config.openLegacySaveTrigger : Byte

/-- Free value: `LEGACY_OFFSET` of the reset state, by whether byte 0 is the sentinel 0x00 (U14, log 31). -/
opaque Config.openLegacyOffset : Bool → LegacyStart

/-- Free value: `NO_SLOT` of the reset state is 46 plus this; the spec says only that it lies outside 0 to 45 (U18, log 50). -/
opaque Config.openNoSlot : Nat

/-- Free value: `NOT_FOUND` of the reset state is 46 plus this; the spec says only that it lies outside 0 to 45 (U18, log
50). -/
opaque Config.openNotFound : Nat

/-- Free value: the `n`-th byte whose value the spec does not state: a byte read beyond a file's length (U17, log 34) or
found on the device after a failed operation (U20, log 37). -/
opaque Config.freeByte : Nat → Byte

/-- Free value: the file a legacy save goes to when none is open for writing (U26, log 32). -/
opaque Config.freeFile : Nat → FileRef

end Sys2Proof
end

