-- ==== Sys2Proof/Machine/Platform.lean ====
section
/-! DEFINITION. The parameter values of the reset state: the values the spec takes or offers as candidates
(spec/00_scope.md R6, spec/20_memory.md R46, spec/46_illegal.md R211, spec/60_exceptions.md R287,
spec/93_implementation_defined.md G6), and the opaque constants where it offers none. -/

namespace Sys2Proof.Machine

/-- PRESUMED (log 7): the candidate decode columns of the 105 undocumented opcodes, row by row as R211 lists them. -/
def candidateIllegal : List IllegalRow :=
  [⟨⟨.implied, 1, 2, false⟩,
     [0x02, 0x12, 0x1A, 0x22, 0x32, 0x3A, 0x42, 0x52, 0x5A, 0x62, 0x72, 0x7A, 0x92, 0xB2, 0xD2, 0xDA, 0xF2, 0xFA]⟩,
   ⟨⟨.immediate, 2, 2, false⟩,
     [0x0B, 0x2B, 0x4B, 0x6B, 0x80, 0x82, 0x89, 0x8B, 0xAB, 0xC2, 0xCB, 0xE2, 0xEB]⟩,
   ⟨⟨.zeroPage, 2, 3, false⟩, [0x04, 0x44, 0x64, 0x87, 0xA7]⟩,
   ⟨⟨.zeroPage, 2, 5, false⟩, [0x07, 0x27, 0x47, 0x67, 0xC7, 0xE7]⟩,
   ⟨⟨.zeroPageX, 2, 4, false⟩, [0x14, 0x34, 0x54, 0x74, 0xD4, 0xF4]⟩,
   ⟨⟨.zeroPageX, 2, 6, false⟩, [0x17, 0x37, 0x57, 0x77, 0xD7, 0xF7]⟩,
   ⟨⟨.zeroPageY, 2, 4, false⟩, [0x97, 0xB7]⟩,
   ⟨⟨.absolute, 3, 4, false⟩, [0x0C, 0x8F, 0xAF]⟩,
   ⟨⟨.absolute, 3, 6, false⟩, [0x0F, 0x2F, 0x4F, 0x6F, 0xCF, 0xEF]⟩,
   ⟨⟨.absoluteX, 3, 4, true⟩, [0x1C, 0x3C, 0x5C, 0x7C, 0xDC, 0xFC]⟩,
   ⟨⟨.absoluteX, 3, 5, false⟩, [0x9C]⟩,
   ⟨⟨.absoluteX, 3, 7, false⟩, [0x1F, 0x3F, 0x5F, 0x7F, 0xDF, 0xFF]⟩,
   ⟨⟨.absoluteY, 3, 4, true⟩, [0xBB, 0xBF]⟩,
   ⟨⟨.absoluteY, 3, 5, false⟩, [0x9B, 0x9E, 0x9F]⟩,
   ⟨⟨.absoluteY, 3, 7, false⟩, [0x1B, 0x3B, 0x5B, 0x7B, 0xDB, 0xFB]⟩,
   ⟨⟨.indexedIndirect, 2, 6, false⟩, [0x83, 0xA3]⟩,
   ⟨⟨.indexedIndirect, 2, 8, false⟩, [0x03, 0x23, 0x43, 0x63, 0xC3, 0xE3]⟩,
   ⟨⟨.indirectIndexed, 2, 5, true⟩, [0xB3]⟩,
   ⟨⟨.indirectIndexed, 2, 6, false⟩, [0x93]⟩,
   ⟨⟨.indirectIndexed, 2, 8, false⟩, [0x13, 0x33, 0x53, 0x73, 0xD3, 0xF3]⟩]

/-- DEDUCED (log 15): the cycle columns of the 151 official opcodes, the standard table of R90 and the Encoding lines
(decisions D16, D10). -/
def candidateOfficial : List CycleRow :=
  [⟨⟨2, false⟩,
     [0x09, 0x0A, 0x10, 0x18, 0x29, 0x2A, 0x30, 0x38, 0x49, 0x4A, 0x50, 0x58, 0x69, 0x6A, 0x70, 0x78, 0x88, 0x8A,
      0x90, 0x98, 0x9A, 0xA0, 0xA2, 0xA8, 0xA9, 0xAA, 0xB0, 0xB8, 0xBA, 0xC0, 0xC8, 0xC9, 0xCA, 0xD0, 0xD8, 0xE0,
      0xE8, 0xE9, 0xEA, 0xF0, 0xF8]⟩,
   ⟨⟨3, false⟩,
     [0x05, 0x08, 0x24, 0x25, 0x45, 0x48, 0x4C, 0x65, 0x84, 0x85, 0x86, 0xA4, 0xA5, 0xA6, 0xC4, 0xC5, 0xE4, 0xE5]⟩,
   ⟨⟨4, false⟩,
     [0x0D, 0x15, 0x28, 0x2C, 0x2D, 0x35, 0x4D, 0x55, 0x68, 0x6D, 0x75, 0x8C, 0x8D, 0x8E, 0x94, 0x95, 0x96, 0xAC,
      0xAD, 0xAE, 0xB4, 0xB5, 0xB6, 0xCC, 0xCD, 0xD5, 0xEC, 0xED, 0xF5]⟩,
   ⟨⟨4, true⟩,
     [0x19, 0x1D, 0x39, 0x3D, 0x59, 0x5D, 0x79, 0x7D, 0xB9, 0xBC, 0xBD, 0xBE, 0xD9, 0xDD, 0xF9, 0xFD]⟩,
   ⟨⟨5, false⟩,
     [0x06, 0x26, 0x46, 0x66, 0x6C, 0x99, 0x9D, 0xC6, 0xE6]⟩,
   ⟨⟨5, true⟩,
     [0x11, 0x31, 0x51, 0x71, 0xB1, 0xD1, 0xF1]⟩,
   ⟨⟨6, false⟩,
     [0x01, 0x0E, 0x16, 0x20, 0x21, 0x2E, 0x36, 0x40, 0x41, 0x4E, 0x56, 0x60, 0x61, 0x6E, 0x76, 0x81, 0x91, 0xA1,
      0xC1, 0xCE, 0xD6, 0xE1, 0xEE, 0xF6]⟩,
   ⟨⟨7, false⟩,
     [0x00, 0x1E, 0x3E, 0x5E, 0x7E, 0xDE, 0xFE]⟩]

/-- PRESUMED (log 8): the Commodore PET address map that R46 offers as candidate. The storage range is empty (C5). -/
def candidateRegions : List Region :=
  [⟨0x0000, 0x8000, .ram⟩, ⟨0x8000, 0x1000, .video⟩, ⟨0x9000, 0x5800, .rom⟩, ⟨0xF000, 0x1000, .rom⟩]

/-- PRESUMED (log 8): the register offsets and wiring of the Commodore PET, the candidate map of 93 G6. -/
def candidateChipset : ChipsetMap where
  registers :=
    [(0x10, .piaPort .p1A), (0x11, .piaControl .p1A), (0x12, .piaPort .p1B), (0x13, .piaControl .p1B),
     (0x20, .piaPort .p2A), (0x21, .piaControl .p2A), (0x22, .piaPort .p2B), (0x23, .piaControl .p2B),
     (0x40, .viaPortB), (0x41, .viaPortA), (0x42, .viaDdrB), (0x43, .viaDdrA),
     (0x44, .t1CounterLow), (0x45, .t1CounterHigh), (0x46, .t1LatchLow), (0x47, .t1LatchHigh),
     (0x48, .t2Low), (0x49, .t2High), (0x4A, .shift), (0x4B, .auxControl), (0x4C, .periphControl),
     (0x4D, .intFlag), (0x4E, .intEnable), (0x4F, .viaPortA)]
  rowPort := .pia .p1A
  rowMask := 0x0F
  columnPort := .pia .p1B
  dataInPort := .pia .p2A
  dataOutPort := .pia .p2B
  inWires :=
    [⟨.pia .p1A, 6, .line .eoi, false⟩, ⟨.viaB, 0, .line .ndac, false⟩, ⟨.viaB, 5, .retrace, false⟩,
     ⟨.viaB, 6, .line .nrfd, false⟩, ⟨.viaB, 7, .line .dav, false⟩]
  outWires := [⟨.viaB, 1, .nrfd⟩, ⟨.viaB, 2, .atn⟩]
  handshakeOut := [⟨.p1A, .blanking⟩, ⟨.p2A, .line .ndac⟩, ⟨.p2B, .line .dav⟩]
  handshakeIn := [⟨.p2A, false, .atn⟩, ⟨.p2B, false, .srq⟩]
  retraceFlag := some .p1B

/-- PRESUMED (log 30): the IEEE-488 candidates of R287; the legacy values are opaque, the spec offers none. -/
def candidateBus : BusCodes where
  deviceAddress := 8
  listenBase := 0x20
  talkBase := 0x40
  unlisten := 0x3F
  untalk := 0x5F
  openLoad := 0xF0
  openSave := 0xF1
  openDataFirst := 0x60
  openDataLast := 0x6F
  legacyLoadTrigger := Config.openLegacyLoadTrigger
  legacySaveTrigger := Config.openLegacySaveTrigger
  legacyOffsetSentinel := Config.openLegacyOffset true
  legacyOffsetOther := Config.openLegacyOffset false

/-- The parameter values of the reset state. `resetSp`, `resetP`, `nmiVector`, `irqVector`, `stackBase`, `irqPushedB`,
`official` and `listingBase` are the values R6 says are taken; `initA`, `initX` and `initY` are DESIGN CHOICE 0x00 (log 2);
the two sentinels lie outside 0 to 45 and are otherwise opaque (log 50); `tickCycles` and `timerDec` are the 1000 that
decision D22 derives at 1 MHz (PRESUMED, log 9); a pressed key reads 0 as on the PET (PRESUMED, log 8); `decimalMode` and
`acceptor` are opaque (log 6, 28). -/
def candidateConfig : Config where
  resetSp := 0xFD
  resetP := 0x24
  initA := 0x00
  initX := 0x00
  initY := 0x00
  nmiVector := 0xFFFA
  irqVector := 0xFFFE
  stackBase := 0x0100
  irqPushedB := false
  decimalMode := Config.openDecimalMode
  illegal := candidateIllegal
  official := candidateOfficial
  tickCycles := 1000
  timerDec := 1000
  regions := candidateRegions
  ioBase := 0xE800
  chipset := candidateChipset
  bus := candidateBus
  acceptor := Config.openAcceptor
  keyDownLevel := false
  noSlot := 46 + Config.openNoSlot
  notFound := 46 + Config.openNotFound
  listingBase := 0x0401

/-- What an address of `mem` that is not listed reads as. DESIGN CHOICE (log 1, unsafe): the spec leaves RAM at launch
unspecified (U6). -/
def blankByte : Byte := 0x00

/-- What a byte of the flash device that is not listed reads as: erased flash reads all-ones (R303, log 37). -/
def erasedByte : Byte := 0xFF

end Sys2Proof.Machine
end

