-- ==== Sys2Proof/Machine/State.lean ====
section
/-! DEFINITION. The state of the machine as plain data (spec/10_state.md R10 to R27), the reasons a step can stop, and the
state right after reset. -/

namespace Sys2Proof.Machine

/-- The eight single-bit flags (R14). -/
structure Flags where
  c : Bool
  z : Bool
  i : Bool
  d : Bool
  b : Bool
  u : Bool
  v : Bool
  n : Bool
  deriving DecidableEq, Repr

/-- The pending-interrupt tag (R16). -/
inductive Pending where
  | none
  | nmi
  | irq
  deriving DecidableEq, Repr

/-- A port: data-direction register, output latch, input latch (R252). -/
structure Port where
  ddr : Byte
  out : Byte
  inp : Byte
  deriving DecidableEq, Repr

/-- A port of a parallel-I/O adapter with its control register (R253). -/
structure PiaPort where
  port : Port
  cr : Byte
  deriving DecidableEq, Repr

/-- The Chipset (R21): two parallel-I/O adapters of two ports, and the versatile adapter with its timers. -/
structure Chipset where
  p1A : PiaPort
  p1B : PiaPort
  p2A : PiaPort
  p2B : PiaPort
  vA : Port
  vB : Port
  counter1 : Addr
  latch1 : Addr
  active1 : Bool
  counter2 : Addr
  held2 : Byte
  active2 : Bool
  ifr : Byte
  ier : Byte
  acr : Byte
  pcr : Byte
  shift : Byte
  tickCount : Nat
  retrace : Bool
  blankLevel : Bool
  deriving DecidableEq, Repr

/-- The Keyboard (R22, R270): bit `c` of `matrix[r]` is 1 while the key at row `r`, column `c` is down. -/
structure Keyboard where
  matrix : Vector Byte 10
  row : Byte
  deriving DecidableEq, Repr

/-- The InstrumentBus state tag (R280). -/
inductive BusTag where
  | idle
  | listen
  | filenameCapture
  | load
  | save
  | saveLegacy
  deriving DecidableEq, Repr

/-- Which open command started a filename capture (R280, R289). -/
inductive OpenKind where
  | load
  | save
  deriving DecidableEq, Repr

/-- A bus line: the externally driven half and the locally driven half; `true` is released (R280, R281). -/
structure LineHalves where
  ext : Bool
  loc : Bool
  deriving DecidableEq, Repr

/-- The InstrumentBus (R23, R280). -/
structure Bus where
  tag : BusTag
  dav : LineHalves
  nrfd : LineHalves
  ndac : LineHalves
  atn : LineHalves
  eoi : LineHalves
  srq : LineHalves
  data : Byte
  offset : Nat
  legacy : Bool
  openKind : OpenKind
  deriving DecidableEq, Repr

/-- One directory slot (R24, R301). -/
structure DirSlot where
  name : Vector Byte 16
  addr : BitVec 32
  len : BitVec 16
  deriving DecidableEq, Repr

/-- The Storage (R24, R25). `flash` is the backing device, in the canonical form of `Cells`; `saved` is the count of bytes
saved so far (R309); `failures` is an outside input, the outcomes (`true` = fails) of the device operations to come, an
empty list meaning that all succeed (R317); `freeCount` numbers the free values drawn so far. -/
structure Storage where
  flash : List Host.Cell
  buf : Vector Byte 1024
  base : Nat
  valid : Bool
  dirty : Bool
  dir : Vector DirSlot 46
  dirValid : Bool
  pendingName : List Byte
  current : FileRef
  listing : Bool
  writeOpen : Bool
  saved : Nat
  failures : List Bool
  freeCount : Nat
  deriving DecidableEq, Repr

/-- The devices behind the chipset window. -/
structure Devices where
  chip : Chipset
  keys : Keyboard
  bus : Bus
  store : Storage
  deriving DecidableEq, Repr

/-- The whole machine. `started` says that `reset()` or `start_at()` has been called since creation (R342); `budget` is
the host loop's cycle budget (R250); `config` holds the parameter values (R6), which nothing changes. -/
structure State where
  a : Byte
  x : Byte
  y : Byte
  sp : Byte
  pc : Addr
  flags : Flags
  pending : Pending
  stall : Nat
  cycles : Nat
  started : Bool
  budget : Nat
  mem : List Host.Cell
  dev : Devices
  config : Config
  deriving DecidableEq, Repr

/-- Why the machine stops with a fault. There is no constructor: the spec gives the machine no fault ("there is no
panic/fault path during normal stepping", R226), so no step ever answers `fault`. -/
inductive Fault
  deriving DecidableEq, Repr

/-- Why a step is refused. No instruction of this model is refused. -/
inductive Refusal where
  /-- Raised by the step of a machine that has been created and neither reset nor started yet: `PC`, `SP` and the flags have
  no defined value there, and a model should refuse the step (R342, U5; log 54). Safe: nothing can be proved of its
  effect. -/
  | notReset
  /-- Raised by an arm of `exec` whose instruction has no meaning yet (safe: nothing can be proved of its effect). No
  arm raises it: every instruction has its meaning. -/
  | notModelled (mnemonic : String)
  deriving DecidableEq, Repr

/-- The outcome of running an instruction or a step. -/
abbrev Result := Host.Outcome State Fault Refusal

/-- A parallel-I/O port at reset. PRESUMED (log 8): the 6520 clears its registers, idle inputs are high. -/
def PiaPort.reset : PiaPort where
  port := { ddr := 0x00, out := 0x00, inp := 0xFF }
  cr := 0x00

/-- The Chipset at creation. PRESUMED (log 8): the values the 6520 and 6522 have after their reset. -/
def Chipset.reset : Chipset where
  p1A := PiaPort.reset
  p1B := PiaPort.reset
  p2A := PiaPort.reset
  p2B := PiaPort.reset
  vA := { ddr := 0x00, out := 0x00, inp := 0xFF }
  vB := { ddr := 0x00, out := 0x00, inp := 0xDF }
  counter1 := 0x0000
  latch1 := 0x0000
  active1 := false
  counter2 := 0x0000
  held2 := 0x00
  active2 := false
  ifr := 0x00
  ier := 0x00
  acr := 0x00
  pcr := 0x00
  shift := 0x00
  tickCount := 0
  retrace := false
  blankLevel := true

/-- The Keyboard at creation: no key down (log 40). -/
def Keyboard.reset : Keyboard where
  matrix := Vector.replicate 10 0x00
  row := 0x0F

/-- A released line (R281). -/
def LineHalves.released : LineHalves where
  ext := true
  loc := true

/-- The InstrumentBus at creation (R26, decision D3). -/
def Bus.reset : Bus where
  tag := .idle
  dav := LineHalves.released
  nrfd := LineHalves.released
  ndac := LineHalves.released
  atn := LineHalves.released
  eoi := LineHalves.released
  srq := LineHalves.released
  data := 0xFF
  offset := 0
  legacy := false
  openKind := .load

/-- The Storage at creation (R26, decision D3): cache window and directory copy not valid. -/
def Storage.reset : Storage where
  flash := []
  buf := Vector.replicate 1024 0x00
  base := 0
  valid := false
  dirty := false
  dir := Vector.replicate 46 { name := Vector.replicate 16 0x00, addr := 0, len := 0 }
  dirValid := false
  pendingName := []
  current := .notFound
  listing := false
  writeOpen := false
  saved := 0
  failures := []
  freeCount := 0

/-- The devices at creation; `reset()` does not touch them (R340). -/
def Devices.reset : Devices where
  chip := Chipset.reset
  keys := Keyboard.reset
  bus := Bus.reset
  store := Storage.reset

/-- The machine right after creation and `reset()` (R26, R340, R342): `SP` = 0xFD, `P` = 0x24, `PC` = Read16(0xFFFC),
which is 0x0000 in a memory that lists nothing (log 1, 3). A, X, Y are `INIT_A`, `INIT_X`, `INIT_Y`: DESIGN CHOICE 0x00
(log 2). The cycle budget starts at 0: DESIGN CHOICE (log 9), R250 gives it no starting value. -/
def State.reset : State where
  a := candidateConfig.initA
  x := candidateConfig.initX
  y := candidateConfig.initY
  sp := 0xFD
  pc := 0x0000
  flags := { c := false, z := false, i := true, d := false, b := false, u := true, v := false, n := false }
  pending := .none
  stall := 0
  cycles := 0
  started := true
  budget := 0
  mem := []
  dev := Devices.reset
  config := candidateConfig

end Sys2Proof.Machine
end

