-- ==== Sys2Proof/Machine/Cells.lean ====
section
/-! DEFINITION. Sparse bytes: a list of (address, byte) pairs in one canonical form, used for memory (unlisted addresses
read `blankByte`) and for the flash device (unlisted bytes read `erasedByte`). -/

namespace Sys2Proof.Machine

/-- The byte at address `a`; `d` is what an unlisted address reads as. -/
def Cells.read (d : Byte) : List Host.Cell → Nat → Byte
  | [], _ => d
  | cell :: rest, a => if cell.1 = a then cell.2 else Cells.read d rest a

/-- The list without the entries of address `a`. -/
def Cells.erase (m : List Host.Cell) (a : Nat) : List Host.Cell :=
  m.filter (fun cell => cell.1 != a)

/-- The list with the pair `(a, v)` put in by address, before the first greater address. -/
def Cells.insert : List Host.Cell → Nat → Byte → List Host.Cell
  | [], a, v => [(a, v)]
  | cell :: rest, a, v => if a < cell.1 then (a, v) :: cell :: rest else cell :: Cells.insert rest a v

/-- The list after a write of `v` at `a`: a value equal to the unlisted one leaves no entry. -/
def Cells.write (d : Byte) (m : List Host.Cell) (a : Nat) (v : Byte) : List Host.Cell :=
  if v = d then Cells.erase m a else Cells.insert (Cells.erase m a) a v

/-- The entries that the bytes `bs` at consecutive addresses from `a` on make: none for a byte equal to `d`. -/
def Cells.run (d : Byte) : List Byte → Nat → List Host.Cell
  | [], _ => []
  | b :: bs, a => if b = d then Cells.run d bs (a + 1) else (a, b) :: Cells.run d bs (a + 1)

/-- The list after the bytes `bs` have replaced everything from address `a` on, as many addresses as there are bytes. -/
def Cells.replace (d : Byte) (m : List Host.Cell) (a : Nat) (bs : List Byte) : List Host.Cell :=
  m.filter (fun cell => cell.1 < a) ++ Cells.run d bs a ++ m.filter (fun cell => a + bs.length ≤ cell.1)

/-- The canonical form: addresses strictly rising, no entry equal to what an unlisted address reads as. -/
abbrev Cells.wf (d : Byte) (m : List Host.Cell) : Prop :=
  m.Pairwise (fun p q => p.1 < q.1) ∧ ∀ cell ∈ m, cell.2 ≠ d

/-- The canonical form of the memory: that of `Cells`, every address inside the 64K space (R41). -/
abbrev Memory.wf (m : List Host.Cell) : Prop :=
  Cells.wf blankByte m ∧ ∀ cell ∈ m, cell.1 < 0x10000

/-- The byte the memory holds at address `a` (RAM, ROM and video contents), with no device involved. -/
def State.byteAt (s : State) (a : Addr) : Byte := Cells.read blankByte s.mem a.toNat

end Sys2Proof.Machine
end

