-- ==== Sys2Proof/Machine/Storage.lean ====
section
/-! DEFINITION. The Storage: device operations, cache window, directory, files and the directory listing
(spec/60_exceptions.md R300 to R320). -/

namespace Sys2Proof.Machine

/-! ### Addresses (R301, R302, R311) -/

/-- The physical base of the sector that holds linear address `addr` (R311, R312). -/
def Storage.sectorBase (addr : Nat) : Nat := addr / 1024 * 4096

/-- The physical flash offset of linear address `addr` (R311). -/
def Storage.physical (addr : Nat) : Nat := addr % 1024 + addr / 1024 * 4096

/-- The linear address of byte `i` of slot `k`'s data window (R302). -/
def Storage.dataAddr (k i : Nat) : Nat := k * 8192 + 1024 + i

/-- The linear address of slot `k`'s directory entry (R301). -/
def Storage.slotAddr (k : Nat) : Nat := 22 * k

/-! ### The flash device (R300, R317) -/

/-- The outcome of the next device operation, `true` if it fails (R317). -/
def Storage.takeOutcome (st : Storage) : Bool × Storage :=
  match st.failures with
  | [] => (false, st)
  | f :: rest => (f, { st with failures := rest })

/-- A window's contents from a function of the byte index. -/
def windowOf (f : Nat → Byte) : Vector Byte 1024 := ⟨((List.range 1024).map f).toArray, by simp⟩

/-- `n` bytes whose values the spec does not state: the next free values (U20, log 37). -/
def Storage.freeBytes (st : Storage) (n : Nat) : List Byte × Storage :=
  ((List.range n).map (fun i => Config.freeByte (st.freeCount + i)), { st with freeCount := st.freeCount + n })

/-- The device's bytes from physical offset `base` on are replaced by `bs`. -/
def Storage.deviceSet (st : Storage) (base : Nat) (bs : List Byte) : Storage :=
  { st with flash := Cells.replace erasedByte st.flash base bs }

/-- `device.erase(base)`: whether it succeeded, and the Storage after. The 4096-byte sector reads all-ones; after a failed
erase its bytes are free values. -/
def Storage.deviceErase (base : Nat) (st : Storage) : Bool × Storage :=
  let o := st.takeOutcome
  if o.1 then
    let fb := o.2.freeBytes 4096
    (false, fb.2.deviceSet base fb.1)
  else (true, o.2.deviceSet base (List.replicate 4096 erasedByte))

/-- `device.program(base, buf)` on a sector whose erase succeeded (`erased`) or failed. After a failed programming, and
after any programming of a sector that a failed erase left as it is, the bytes are free values (U20, log 37). -/
def Storage.deviceProgram (base : Nat) (erased : Bool) (st : Storage) : Storage :=
  let o := st.takeOutcome
  if o.1 || !erased then
    let fb := o.2.freeBytes 1024
    fb.2.deviceSet base fb.1
  else o.2.deviceSet base o.2.buf.toList

/-- `buf <- device.read(base, 1024)`. A failed read leaves free values in the buffer. -/
def Storage.deviceRead (base : Nat) (st : Storage) : Storage :=
  let o := st.takeOutcome
  if o.1 then
    { o.2 with buf := windowOf (fun i => Config.freeByte (o.2.freeCount + i)), freeCount := o.2.freeCount + 1024 }
  else { o.2 with buf := windowOf (fun i => Cells.read erasedByte o.2.flash (base + i)) }

/-! ### The cache window (R312 to R315) -/

/-- `Flush()`: erase the sector, program the buffered bytes, read back into the buffer (R315). -/
def Storage.flush (st : Storage) : Storage :=
  let e := st.deviceErase st.base
  let st := e.2.deviceProgram st.base e.1
  let st := st.deviceRead st.base
  { st with dirty := false }

/-- Flush if the window holds unflushed writes (R313, R314). -/
def Storage.flushIfDirty (st : Storage) : Storage := if st.dirty then st.flush else st

/-- The window holds linear address `addr` (R312). -/
def Storage.hits (st : Storage) (addr : Nat) : Bool := st.valid && st.base == Storage.sectorBase addr

/-- Make the window of `addr` resident by the read path (R313). -/
def Storage.makeResident (addr : Nat) (st : Storage) : Storage :=
  if st.hits addr then st
  else
    let st := st.flushIfDirty
    let st := { st with base := Storage.sectorBase addr }
    let st := st.deviceRead st.base
    { st with valid := true, dirty := false }

/-- A read of linear address `addr` (R312, R313). -/
def Storage.readByte (addr : Nat) (st : Storage) : Byte × Storage :=
  let st := st.makeResident addr
  (st.buf[addr % 1024]'(Nat.mod_lt _ (by decide)), st)

/-- Make the window of `addr` resident by the write path: a miss zero-fills it, the device is not read (R314). -/
def Storage.makeWritable (addr : Nat) (st : Storage) : Storage :=
  if st.hits addr then st
  else
    let st := st.flushIfDirty
    { st with base := Storage.sectorBase addr, buf := Vector.replicate 1024 0x00, valid := true, dirty := true }

/-- A write of `v` at linear address `addr` (R312, R314). -/
def Storage.writeByte (addr : Nat) (v : Byte) (st : Storage) : Storage :=
  let st := st.makeWritable addr
  { st with buf := st.buf.set (addr % 1024) v (Nat.mod_lt _ (by decide)), dirty := true }

/-- Writes of consecutive bytes from linear address `addr` on. -/
def Storage.writeBytes : List Byte → Nat → Storage → Storage
  | [], _, st => st
  | b :: bs, addr, st => Storage.writeBytes bs (addr + 1) (st.writeByte addr b)

/-! ### The directory (R301, R303, R304, R316) -/

/-- The slot is free: its address field is 0 or all-ones (R303). -/
def DirSlot.free (s : DirSlot) : Bool := s.addr == 0 || s.addr == 0xFFFFFFFF

/-- Slot `k` as the directory bytes of the window spell it: 16 name bytes, 4 address bytes and 2 length bytes, the most
significant first (R301). -/
def DirSlot.parse (w : Vector Byte 1024) (k : Nat) : DirSlot :=
  let at' (j : Nat) : Byte := w.toList.getD (Storage.slotAddr k + j) 0
  { name := ⟨((List.range 16).map at').toArray, by simp⟩
    addr := at' 16 ++ at' 17 ++ at' 18 ++ at' 19
    len := at' 20 ++ at' 21 }

/-- The directory that the window's bytes spell. -/
def parseDirectory (w : Vector Byte 1024) : Vector DirSlot 46 :=
  ⟨((List.range 46).map (DirSlot.parse w)).toArray, by simp⟩

/-- The directory copy is read on first use, through the read path of the cache window (R24, log 35). -/
def Storage.fetchDirectory (st : Storage) : Storage :=
  if st.dirValid then st
  else
    let st := st.makeResident 0
    { st with dir := parseDirectory st.buf, dirValid := true }

/-- The 16-byte filename, zero-padded (R305). -/
def Storage.filename (st : Storage) : Vector Byte 16 :=
  ⟨((List.range 16).map (fun j => st.pendingName.getD j 0x00)).toArray, by simp⟩

/-- The first slot, in index order, that is free or already has the name (R304). -/
def Storage.findSlot (dir : Vector DirSlot 46) (name : Vector Byte 16) : Option (Fin 46) :=
  (List.finRange 46).find? (fun i => dir[i].free || dir[i].name == name)

/-- The slot in use whose name matches exactly (R306). DESIGN CHOICE (log 55): where several slots in use hold the name,
as on a flash that was written otherwise (R304), the first in index order. -/
def Storage.findFile (dir : Vector DirSlot 46) (name : Vector Byte 16) : Option (Fin 46) :=
  (List.finRange 46).find? (fun i => !dir[i].free && dir[i].name == name)

/-- The four bytes of a slot's address field: `i*8192 + 1024`, most significant first (R301, R302). -/
def addressBytes (k : Nat) : List Byte :=
  let v := Storage.dataAddr k 0
  [BitVec.ofNat 8 (v / 16777216), BitVec.ofNat 8 (v / 65536), BitVec.ofNat 8 (v / 256), BitVec.ofNat 8 v]

/-- The two bytes of a slot's length field, most significant first (R301). -/
def lengthBytes (n : Nat) : List Byte := [BitVec.ofNat 8 (n / 256), BitVec.ofNat 8 n]

/-- `add_file(name)` (R304): the directory chunk is made resident by the read path, the entry is written through hits
(R316) and the directory copy invalidated. -/
def Storage.addFile (name : Vector Byte 16) (st : Storage) : FileRef × Storage :=
  let st := (st.makeResident 0).fetchDirectory
  match Storage.findSlot st.dir name with
  | none => (.noSlot, st)
  | some i =>
    let st := Storage.writeBytes (name.toList ++ addressBytes i ++ lengthBytes 0) (Storage.slotAddr i) st
    (.slot i, { st with dirValid := false })

/-- `set_filesize(i, n)` (R309, R316): read path, two bytes through hits, unconditional flush, invalidate the copy. -/
def Storage.setFilesize (i : Fin 46) (n : Nat) (st : Storage) : Storage :=
  let st := st.makeResident 0
  let st := Storage.writeBytes (lengthBytes n) (Storage.slotAddr i + 20) st
  let st := st.flush
  { st with dirValid := false }

/-! ### The contract consumed by the InstrumentBus (R300, R305 to R310, R318) -/

/-- `start_filename()` (R305). -/
def Storage.startFilename (st : Storage) : Storage := { st with pendingName := [] }

/-- `next_filename_byte(b)`; a byte after the 16th is dropped (R288, R305). -/
def Storage.nextFilenameByte (b : Byte) (st : Storage) : Storage :=
  if st.pendingName.length < 16 then { st with pendingName := st.pendingName ++ [b] } else st

/-- `next_filename_byte(0)` until 16 bytes have been given (R289). -/
def Storage.padFilename (st : Storage) : Storage :=
  { st with pendingName := st.pendingName ++ List.replicate (16 - st.pendingName.length) 0x00 }

/-- `fname_done()` (R306): `$` enters the listing mode, another name is searched for. DESIGN CHOICE (log 51): a search
also ends the save that was open, because `current` now names another file; `$` leaves it open. -/
def Storage.fnameDone (st : Storage) : Storage :=
  let name := st.filename
  if name[0] = 0x24 then { st with listing := true }
  else
    let st := st.fetchDirectory
    { st with
      listing := false
      writeOpen := false
      current := match Storage.findFile st.dir name with
        | some i => .slot i
        | none => .notFound }

/-- `start_save()` (R307). -/
def Storage.startSave (st : Storage) : Storage :=
  let r := st.addFile st.filename
  { r.2 with current := r.1, writeOpen := true, saved := 0 }

/-- `save_data_byte(i, v)` (R308); with no slot open nothing happens (decision D25). -/
def Storage.saveDataByte (i : Nat) (v : Byte) (st : Storage) : Storage :=
  match st.current with
  | .slot k =>
    let st := st.writeByte (Storage.dataAddr k i) v
    { st with saved := max st.saved (i + 1) }
  | .noSlot => st
  | .notFound => st

/-- `end_save()` with the byte count `n` (R309); with no slot open nothing happens (decision D25). DESIGN CHOICE (log 51):
the slot is then no longer open for writing. DESIGN CHOICE (log 52): the first flush is of pending writes, so a clean
window is not erased and programmed again. -/
def Storage.endSave (n : Nat) (st : Storage) : Storage :=
  match st.current with
  | .slot k =>
    let st := st.flushIfDirty
    let st := st.setFilesize k n
    { st with writeOpen := false, saved := 0 }
  | .noSlot => st
  | .notFound => st

/-- `has_data_to_load()` (R310). -/
def Storage.hasDataToLoad (st : Storage) : Bool :=
  st.listing || match st.current with
    | .slot _ => true
    | .noSlot => false
    | .notFound => false

/-- The populated slots in index order (R318). -/
def populatedSlots (dir : Vector DirSlot 46) : List DirSlot := dir.toList.filter (fun s => !s.free)

/-- `load_data_len()` (R310, R318). -/
def Storage.loadDataLen (st : Storage) : Nat × Storage :=
  if st.listing then
    let st := st.fetchDirectory
    (2 + 24 * (populatedSlots st.dir).length, st)
  else
    match st.current with
    | .slot k =>
      let st := st.fetchDirectory
      (st.dir[k].len.toNat, st)
    | .noSlot => (0, st)
    | .notFound => (0, st)

/-- Where the closing quote of a listing line goes: after the last non-zero name byte, or 15 if the name fills all 16, or
0 if it is all zero (R318). -/
def quoteIndex (name : Vector Byte 16) : Nat :=
  min 15 ((List.range 16).foldl (fun q j => if name.toList.getD j 0 = 0 then q else j + 1) 0)

/-- Byte `j` (0 to 23) of the listing line of slot `s`, whose next-line pointer is `next` (R318). -/
def listingLineByte (next : Addr) (s : DirSlot) (j : Nat) : Byte :=
  if j = 0 then lowByte next
  else if j = 1 then highByte next
  else if j = 2 then lowByte s.len
  else if j = 3 then highByte s.len
  else if j = 4 ∨ j = 5 then 0x20
  else if j = 6 then 0x22
  else if j < 23 then
    if j - 7 = quoteIndex s.name then 0x22 else s.name.toList.getD (j - 7) 0
  else 0x00

/-- Byte `i` of the fabricated directory listing (R318), for `i` below its length. -/
def listingByte (listingBase : Addr) (slots : List DirSlot) (i : Nat) : Byte :=
  if i = 0 then 0x01
  else if i = 1 then 0x04
  else
    let k := (i - 2) / 24
    let next : Addr := if k + 1 < slots.length then listingBase + BitVec.ofNat 16 (24 * (k + 1)) else 0x0000
    match slots[k]? with
    | some s => listingLineByte next s ((i - 2) % 24)
    | none => 0x00

/-- The next free value as a byte (U17, log 34). -/
def Storage.freeRead (st : Storage) : Byte × Storage :=
  (Config.freeByte st.freeCount, { st with freeCount := st.freeCount + 1 })

/-- `load_data_byte(i)` (R310, R318). At or beyond the length the read is made and the byte is a free value (U17). -/
def Storage.loadDataByte (cfg : Config) (i : Nat) (st : Storage) : Byte × Storage :=
  if st.listing then
    let st := st.fetchDirectory
    let slots := populatedSlots st.dir
    if i < 2 + 24 * slots.length then (listingByte cfg.listingBase slots i, st) else st.freeRead
  else
    match st.current with
    | .slot k =>
      let r := st.readByte (Storage.dataAddr k i)
      if i < st.loadDataLen.1 then r else r.2.freeRead
    | .noSlot => st.freeRead
    | .notFound => st.freeRead

/-- The Storage at power-up: as at creation, but for what the device holds (R319). -/
def Storage.powerUp (st : Storage) : Storage :=
  { Storage.reset with flash := st.flash, failures := st.failures, freeCount := st.freeCount }

/-- A legacy save goes to the file that is open for writing; where none is, the target is a free value (R297, U26, log
32). -/
def Storage.openLegacySave (st : Storage) : Storage :=
  match st.writeOpen, st.current with
  | true, .slot _ => { st with saved := 0 }
  | _, _ => { st with current := Config.freeFile st.freeCount, freeCount := st.freeCount + 1, writeOpen := true, saved := 0 }

end Sys2Proof.Machine
end

