-- ==== Sys2Proof/Machine/Bus.lean ====
section
/-! DEFINITION. The InstrumentBus: lines, setters and getters, commands, data bytes and the three-wire handshake
(spec/60_exceptions.md R280 to R299). -/

namespace Sys2Proof.Machine

/-- The halves of a line. -/
def Bus.line (b : Bus) : Line → LineHalves
  | .dav => b.dav
  | .nrfd => b.nrfd
  | .ndac => b.ndac
  | .atn => b.atn
  | .eoi => b.eoi
  | .srq => b.srq

/-- The bus with the halves of one line replaced. -/
def Bus.setLine (b : Bus) (l : Line) (h : LineHalves) : Bus :=
  match l with
  | .dav => { b with dav := h }
  | .nrfd => { b with nrfd := h }
  | .ndac => { b with ndac := h }
  | .atn => { b with atn := h }
  | .eoi => { b with eoi := h }
  | .srq => { b with srq := h }

/-- The getter of a line: its effective level, the AND of both halves (R284). -/
def Bus.level (b : Bus) (l : Line) : Bool := (b.line l).ext && (b.line l).loc

/-- The device drives its own half of a line; this is no edge event (R285). -/
def Bus.drive (b : Bus) (l : Line) (level : Bool) : Bus := b.setLine l { b.line l with loc := level }

/-- The devices with another bus. -/
def Devices.setBus (d : Devices) (b : Bus) : Devices := { d with bus := b }

/-- The devices with another Storage. -/
def Devices.setStore (d : Devices) (st : Storage) : Devices := { d with store := st }

/-- Filename finalisation on UNLISTEN: pad to 16 bytes, then `fname_done()` or `start_save()` (R289). -/
def Devices.finalizeFilename (d : Devices) : Devices :=
  let st := d.store.padFilename
  match d.bus.openKind with
  | .load => d.setStore st.fnameDone
  | .save => d.setStore st.startSave

/-- A command byte in state Idle (R287, R296, R297). -/
def Devices.commandIdle (cfg : Config) (byte : Byte) (d : Devices) : Devices :=
  if byte = cfg.bus.listenBase + cfg.bus.deviceAddress then
    d.setBus { d.bus with legacy := false, tag := .listen }
  else if byte = cfg.bus.talkBase + cfg.bus.deviceAddress then
    d.setBus { d.bus with offset := 0, legacy := false, tag := .load }
  else if byte = cfg.bus.legacyLoadTrigger then
    if d.store.hasDataToLoad then
      let r := d.store.loadDataByte cfg 0
      let start := if r.1 = 0x00 then cfg.bus.legacyOffsetSentinel else cfg.bus.legacyOffsetOther
      { d with store := r.2, bus := { d.bus with legacy := true, offset := start.toNat, tag := .load } }
    else d
  else if byte = cfg.bus.legacySaveTrigger then
    { d with store := d.store.openLegacySave, bus := { d.bus with legacy := true, offset := 0, tag := .saveLegacy } }
  else d

/-- A command byte in state Listen (R287). -/
def Devices.commandListen (cfg : Config) (byte : Byte) (d : Devices) : Devices :=
  if byte = cfg.bus.openLoad then
    { d with store := d.store.startFilename, bus := { d.bus with openKind := .load, tag := .filenameCapture } }
  else if byte = cfg.bus.openSave then
    { d with store := d.store.startFilename, bus := { d.bus with openKind := .save, tag := .filenameCapture } }
  else if cfg.bus.openDataFirst ≤ byte ∧ byte ≤ cfg.bus.openDataLast then
    d.setBus { d.bus with offset := 0, tag := .save }
  else if byte = cfg.bus.unlisten then d.setBus { d.bus with tag := .idle }
  else d

/-- A command byte in state FilenameCapture (R287, R289). -/
def Devices.commandCapture (cfg : Config) (byte : Byte) (d : Devices) : Devices :=
  if byte = cfg.bus.unlisten then
    let d := d.finalizeFilename
    d.setBus { d.bus with tag := .idle }
  else d

/-- A command byte in state Load (R287). -/
def Devices.commandLoad (cfg : Config) (byte : Byte) (d : Devices) : Devices :=
  if byte = cfg.bus.untalk then
    d.setBus { (d.bus.drive .dav true).drive .eoi true with tag := .idle }
  else d

/-- A command byte in state Save (R287). -/
def Devices.commandSave (cfg : Config) (byte : Byte) (d : Devices) : Devices :=
  if byte = cfg.bus.unlisten then
    { d with store := d.store.endSave d.store.saved, bus := { d.bus with tag := .idle } }
  else d

/-- A command byte, by state; unrecognised ones are ignored (R287, R299). -/
def Devices.command (cfg : Config) (byte : Byte) (d : Devices) : Devices :=
  match d.bus.tag with
  | .idle => d.commandIdle cfg byte
  | .listen => d.commandListen cfg byte
  | .filenameCapture => d.commandCapture cfg byte
  | .load => d.commandLoad cfg byte
  | .save => d.commandSave cfg byte
  | .saveLegacy => d

/-- A data byte, by state (R288, R297). -/
def Devices.dataByte (byte : Byte) (d : Devices) : Devices :=
  match d.bus.tag with
  | .filenameCapture => d.setStore (d.store.nextFilenameByte byte)
  | .save =>
    { d with store := d.store.saveDataByte d.bus.offset byte, bus := { d.bus with offset := d.bus.offset + 1 } }
  | .saveLegacy =>
    { d with store := d.store.saveDataByte d.bus.offset byte, bus := { d.bus with offset := d.bus.offset + 1 } }
  | .idle => d
  | .listen => d
  | .load => d

/-- `data_in(byte)`: a command if attention is asserted, data otherwise (R286). -/
def Devices.dataIn (cfg : Config) (byte : Byte) (d : Devices) : Devices :=
  if d.bus.level .atn then d.dataByte byte else d.command cfg byte

/-- Falling edge of DAV: the inverted data bus goes to `data_in`, then the acceptor responds (R290). -/
def Devices.davFalling (cfg : Config) (d : Devices) : Devices :=
  let d := d.dataIn cfg (d.bus.data ^^^ 0xFF)
  match cfg.acceptor with
  | .literal => d.setBus ((d.bus.drive .ndac false).drive .nrfd true)
  | .ieee488 => d.setBus ((d.bus.drive .ndac true).drive .nrfd false)

/-- Rising edge of DAV (R291). -/
def Devices.davRising (cfg : Config) (d : Devices) : Devices :=
  match cfg.acceptor with
  | .literal => d.setBus ((d.bus.drive .ndac true).drive .nrfd false)
  | .ieee488 => d.setBus ((d.bus.drive .ndac false).drive .nrfd true)

/-- Rising edge of NDAC in state Load (R292). -/
def Devices.ndacRising (d : Devices) : Devices :=
  match d.bus.tag with
  | .load =>
    let b := (d.bus.drive .dav true).drive .eoi true
    let b := { b with offset := b.offset + 1 }
    let r := d.store.loadDataLen
    { d with store := r.2, bus := if b.offset = r.1 then { b with tag := .idle } else b }
  | .idle => d
  | .listen => d
  | .filenameCapture => d
  | .save => d
  | .saveLegacy => d

/-- Place the next byte, inverted, on the bus, if more bytes remain; EOI already with the penultimate byte (R293). -/
def Devices.placeByte (cfg : Config) (d : Devices) : Devices :=
  let len := d.store.loadDataLen
  if d.bus.offset < len.1 then
    let r := len.2.loadDataByte cfg d.bus.offset
    let b := { d.bus.drive .dav false with data := r.1 ^^^ 0xFF }
    { d with store := r.2, bus := if d.bus.offset + 2 = len.1 then b.drive .eoi false else b }
  else d.setStore len.2

/-- Rising edge of NRFD in state Load (R293). -/
def Devices.nrfdRising (cfg : Config) (d : Devices) : Devices :=
  match d.bus.tag with
  | .load => d.placeByte cfg
  | .idle => d
  | .listen => d
  | .filenameCapture => d
  | .save => d
  | .saveLegacy => d

/-- Rising edge of ATN in state Load with NRFD released (R294). -/
def Devices.atnRising (cfg : Config) (d : Devices) : Devices :=
  match d.bus.tag with
  | .load => if d.bus.level .nrfd then d.placeByte cfg else d
  | .idle => d
  | .listen => d
  | .filenameCapture => d
  | .save => d
  | .saveLegacy => d

/-- Rising edge of EOI in state SaveLegacy: the last byte is discarded and the save ended (R297). -/
def Devices.eoiRising (d : Devices) : Devices :=
  match d.bus.tag with
  | .saveLegacy =>
    let count := d.bus.offset - 1
    { d with store := d.store.endSave count, bus := { d.bus with offset := count, tag := .idle } }
  | .idle => d
  | .listen => d
  | .filenameCapture => d
  | .load => d
  | .save => d

/-- What an edge of the externally driven half of a line sets off; `level` is the new level (R290 to R294, R297). -/
def Devices.edge (cfg : Config) (l : Line) (level : Bool) (d : Devices) : Devices :=
  match l, level with
  | .dav, false => d.davFalling cfg
  | .dav, true => d.davRising cfg
  | .ndac, true => d.ndacRising
  | .nrfd, true => d.nrfdRising cfg
  | .atn, true => d.atnRising cfg
  | .eoi, true => d.eoiRising
  | _, _ => d

/-- The setters `dav_out`, `nrfd_out`, `ndac_out`, `atn_out`, `eoi_out` (R285). SRQ has none: both its halves stay as they
are (R298). -/
def Devices.lineOut (cfg : Config) (l : Line) (level : Bool) (d : Devices) : Devices :=
  match l with
  | .srq => d
  | .dav | .nrfd | .ndac | .atn | .eoi =>
    let d' := d.setBus (d.bus.setLine l { d.bus.line l with ext := level })
    if (d.bus.line l).ext = level then d' else d'.edge cfg l level

end Sys2Proof.Machine
end

