-- ==== Sys2Proof/Machine/Keyboard.lean ====
section
/-! DEFINITION. The Keyboard's operations: spec/60_exceptions.md R270 and R271. -/

namespace Sys2Proof.Machine

/-- The key of a code, if its row is below 10 and its column below 8: other codes are ignored (R270, decision D33). -/
def Keyboard.setKey (k : Keyboard) (code : Byte) (down : Bool) : Keyboard :=
  let r := code.toNat / 16
  let c := code.toNat % 16
  if h : r < 10 then
    if c < 8 then
      let bit : Byte := 1#8 <<< c
      let old := k.matrix[r]
      { k with matrix := k.matrix.set r (if down then old ||| bit else old &&& ~~~bit) }
    else k
  else k

/-- `key_down(code)` (R270). -/
def Keyboard.keyDown (k : Keyboard) (code : Byte) : Keyboard := k.setKey code true

/-- `key_up(code)` (R270). -/
def Keyboard.keyUp (k : Keyboard) (code : Byte) : Keyboard := k.setKey code false

/-- `write(row_select)` (R271). -/
def Keyboard.write (k : Keyboard) (row : Byte) : Keyboard := { k with row := row }

/-- The pressed keys of the selected row, one bit a column; a row above 9 has none (R271, decision D33). -/
def Keyboard.pressed (k : Keyboard) : Byte :=
  if h : k.row.toNat < 10 then k.matrix[k.row.toNat] else 0x00

/-- `read()`: the column byte of the selected row, a pressed key at the level `downLevel` (R271; the level is open, U12). -/
def Keyboard.read (k : Keyboard) (downLevel : Bool) : Byte :=
  if downLevel then k.pressed else ~~~k.pressed

end Sys2Proof.Machine
end

