-- ==== Sys2Proof/Machine/Chipset.lean ====
section
/-! DEFINITION. The Chipset: its register window, port reads and writes with their side effects, the wiring to Keyboard
and InstrumentBus, and `tick()` (spec/60_exceptions.md R250 to R271). -/

namespace Sys2Proof.Machine

/-! ### Ports (R252, R253) -/

/-- The composite line value `(input & ~direction) | (output & direction)` (R252). -/
def Port.lineValue (p : Port) : Byte := (p.inp &&& ~~~p.ddr) ||| (p.out &&& p.ddr)

/-- A port of a parallel-I/O adapter. -/
def Chipset.pia (c : Chipset) : PiaId → PiaPort
  | .p1A => c.p1A
  | .p1B => c.p1B
  | .p2A => c.p2A
  | .p2B => c.p2B

/-- The Chipset with one port of a parallel-I/O adapter replaced. -/
def Chipset.setPia (c : Chipset) (p : PiaId) (v : PiaPort) : Chipset :=
  match p with
  | .p1A => { c with p1A := v }
  | .p1B => { c with p1B := v }
  | .p2A => { c with p2A := v }
  | .p2B => { c with p2B := v }

/-- Any port. -/
def Chipset.port (c : Chipset) : PortId → Port
  | .pia p => (c.pia p).port
  | .viaA => c.vA
  | .viaB => c.vB

/-- The Chipset with one port replaced. -/
def Chipset.setPort (c : Chipset) (id : PortId) (v : Port) : Chipset :=
  match id with
  | .pia p => c.setPia p { c.pia p with port := v }
  | .viaA => { c with vA := v }
  | .viaB => { c with vB := v }

/-- The Chipset with one control register replaced. -/
def Chipset.setCr (c : Chipset) (p : PiaId) (v : Byte) : Chipset := c.setPia p { c.pia p with cr := v }

/-- The devices with another Chipset. -/
def Devices.setChip (d : Devices) (c : Chipset) : Devices := { d with chip := c }

/-- `b` with bit `k` set to `v`. -/
def setBit (b : Byte) (k : Nat) (v : Bool) : Byte :=
  if v then b ||| (1#8 <<< k) else b &&& ~~~(1#8 <<< k)

/-! ### Levels that come back from Keyboard and InstrumentBus (R257, R269, R271) -/

/-- The level of an input signal. -/
def Devices.signal (d : Devices) : InSignal → Bool
  | .line l => d.bus.level l
  | .retrace => d.chip.retrace

/-- The Chipset with the input latch of a port replaced. -/
def Chipset.setInput (c : Chipset) (id : PortId) (v : Byte) : Chipset := c.setPort id { c.port id with inp := v }

/-- The input latches with every wired bit at the level of its signal, the column port at the Keyboard's column byte and
the data-in port at the data bus (R257, R269, R271). -/
def Devices.refreshInputs (cfg : Config) (d : Devices) : Devices :=
  let m := cfg.chipset
  let c := d.chip.setInput m.columnPort (d.keys.read cfg.keyDownLevel)
  let c := c.setInput m.dataInPort d.bus.data
  let c := m.inWires.foldl
    (fun c w => c.setInput w.port (setBit (c.port w.port).inp w.bit (d.signal w.signal != w.invert))) c
  d.setChip c

/-- The control register after an edge to `level` of its handshake line 1, or (`second`) line 2: the latched flag is set
if the edge is the active one, bit 1 or bit 4 choosing it (1 = rising), line 2 only while it is an input (93 G6). -/
def latchEdge (cr : Byte) (second level : Bool) : Byte :=
  if second then
    if cr.getLsbD 5 = false ∧ cr.getLsbD 4 = level then cr ||| 0x40 else cr
  else if cr.getLsbD 1 = level then cr ||| 0x80 else cr

/-- The edge flags that the change of bus levels from `before` to now latches in the control registers (R253, 93 G6). -/
def Devices.latchEdges (cfg : Config) (before : Bus) (d : Devices) : Devices :=
  d.setChip (cfg.chipset.handshakeIn.foldl
    (fun c w =>
      if before.level w.line = d.bus.level w.line then c
      else c.setCr w.pia (latchEdge (c.pia w.pia).cr w.second (d.bus.level w.line)))
    d.chip)

/-- What a transition leaves in the Chipset: edge flags latched, input latches refreshed (R257). -/
def Devices.settle (cfg : Config) (before : Bus) (d : Devices) : Devices :=
  (d.latchEdges cfg before).refreshInputs cfg

/-! ### Levels the Processor drives (R256, R258, R269, R271) -/

/-- A bus line wired to bit `w.bit` of a port whose line value went from `old` to `new`: a changed level is forwarded to
the setter. -/
def Devices.forwardWire (cfg : Config) (old new : Byte) (d : Devices) (w : OutWire) : Devices :=
  if old.getLsbD w.bit = new.getLsbD w.bit then d else d.lineOut cfg w.line (new.getLsbD w.bit)

/-- After a write to port `id` whose line value went from `old` to `new`: the row select goes to the Keyboard, a changed
value to the data bus, changed line levels to the setters in the order of the wiring (R256, R269, R271). -/
def Devices.forwardPort (cfg : Config) (id : PortId) (old new : Byte) (d : Devices) : Devices :=
  let m := cfg.chipset
  let d := if m.rowPort = id then { d with keys := d.keys.write (new &&& m.rowMask) } else d
  let d := if m.dataOutPort = id ∧ old ≠ new then d.setBus { d.bus with data := new } else d
  (m.outWires.filter (fun (w : OutWire) => w.port = id)).foldl (Devices.forwardWire cfg old new) d

/-- Write to a port: `put` stores the value, then the line value is recomputed and forwarded (R256). -/
def Devices.writePort (cfg : Config) (id : PortId) (put : Port → Port) (d : Devices) : Devices :=
  let old := d.chip.port id
  let new := put old
  let d' := d.setChip (d.chip.setPort id new)
  (d'.forwardPort cfg id old.lineValue new.lineValue).settle cfg d.bus

/-- The level handshake line 2 puts out: bit 3 while bits 5 and 4 are both 1 (93 G6). -/
def handshakeLevel (cr : Byte) : Option Bool :=
  if cr.getLsbD 5 ∧ cr.getLsbD 4 then some (cr.getLsbD 3) else none

/-- The display-blanking line: only a change of level is forwarded, as the bus's EOI output (R258). -/
def Devices.setBlanking (cfg : Config) (level : Bool) (d : Devices) : Devices :=
  if d.chip.blankLevel = level then d
  else (d.setChip { d.chip with blankLevel := level }).lineOut cfg .eoi level

/-- The level a handshake output now has goes to what it drives (R256, R258, R269). -/
def Devices.forwardHandshake (cfg : Config) (level : Bool) (d : Devices) (h : HandshakeOut) : Devices :=
  match h.target with
  | .line l => d.lineOut cfg l level
  | .blanking => d.setBlanking cfg level

/-- Control-register write: bits 5 to 0 are stored, bits 7 and 6 kept (R256). DESIGN CHOICE (log 23): a write that puts out no
level on line 2 leaves the line it drove before at its last level. -/
def Devices.writeControl (cfg : Config) (p : PiaId) (v : Byte) (d : Devices) : Devices :=
  let cr := ((d.chip.pia p).cr &&& 0xC0) ||| (v &&& 0x3F)
  let d' := d.setChip (d.chip.setCr p cr)
  let d' := match handshakeLevel cr with
    | some level =>
      (cfg.chipset.handshakeOut.filter (fun (h : HandshakeOut) => h.pia = p)).foldl (Devices.forwardHandshake cfg level) d'
    | none => d'
  d'.settle cfg d.bus

/-! ### The versatile adapter's registers (R262 to R265) -/

/-- Timer 1's bit in `ifr` and `ier` (R260). -/
def timer1Flag : Byte := 0x40

/-- Timer 2's bit in `ifr` and `ier` (R260). -/
def timer2Flag : Byte := 0x20

/-- The flag register with a timer's flag cleared (R263). -/
def Chipset.clearFlag (c : Chipset) (flag : Byte) : Chipset := { c with ifr := c.ifr &&& ~~~flag }

/-- Write of the low byte of timer 1's latch (R264). -/
def Chipset.writeT1Low (c : Chipset) (v : Byte) : Chipset := { c with latch1 := word (highByte c.latch1) v }

/-- Write of the high byte of timer 1: latch, counter reload, arm, flag cleared (R264). -/
def Chipset.writeT1High (c : Chipset) (v : Byte) : Chipset :=
  let latch := word v (lowByte c.latch1)
  { c.clearFlag timer1Flag with latch1 := latch, counter1 := latch, active1 := true }

/-- Write of the latch-only high register: latch, flag cleared (R263, 93 G6). -/
def Chipset.writeT1LatchHigh (c : Chipset) (v : Byte) : Chipset :=
  { c.clearFlag timer1Flag with latch1 := word v (lowByte c.latch1) }

/-- Write of the high byte of timer 2: counter loaded, flag cleared, armed (R265). -/
def Chipset.writeT2High (c : Chipset) (v : Byte) : Chipset :=
  { c.clearFlag timer2Flag with counter2 := word v c.held2, active2 := true }

/-- Write of the interrupt-enable register (R262). -/
def Chipset.writeEnable (c : Chipset) (v : Byte) : Chipset :=
  { c with ier := if v.getLsbD 7 then c.ier ||| v else c.ier &&& ~~~v }

/-- Write of the interrupt-flag register: a 1 clears the flag; bit 7 is the aggregate and no flag (R263). -/
def Chipset.writeFlag (c : Chipset) (v : Byte) : Chipset := { c with ifr := c.ifr &&& ~~~(v &&& 0x7F) }

/-! ### The register window (R251, R254 to R256, R263 to R265) -/

/-- The register at an offset of the window, if any (R251, `CHIPSET_MAP`). -/
def registerAt (m : ChipsetMap) (offset : Nat) : Option ChipReg := m.registers.lookup offset

/-- Read of a parallel-I/O port (R254, R255). -/
def Devices.readPia (cfg : Config) (p : PiaId) (d : Devices) : Byte × Devices :=
  let port := d.chip.pia p
  if port.cr.getLsbD 2 then (port.port.lineValue, d.setChip (d.chip.setCr p (port.cr &&& 0x3F)))
  else if cfg.chipset.rowPort = .pia p then (d.keys.row, d)
  else (port.port.ddr, d)

/-- `Chipset.read(offset)`: the value and the devices after the read side effects (R251). -/
def Devices.read (cfg : Config) (offset : Nat) (d : Devices) : Byte × Devices :=
  match registerAt cfg.chipset offset with
  | none => (0x00, d)
  | some (.piaPort p) => d.readPia cfg p
  | some (.piaControl p) => ((d.chip.pia p).cr, d)
  | some .viaPortA => (d.chip.vA.lineValue, d)
  | some .viaPortB => (d.chip.vB.lineValue, d)
  | some .viaDdrA => (d.chip.vA.ddr, d)
  | some .viaDdrB => (d.chip.vB.ddr, d)
  | some .t1CounterLow => (lowByte d.chip.counter1, d.setChip (d.chip.clearFlag timer1Flag))
  | some .t1CounterHigh => (highByte d.chip.counter1, d)
  | some .t1LatchLow => (lowByte d.chip.latch1, d)
  | some .t1LatchHigh => (highByte d.chip.latch1, d)
  | some .t2Low => (lowByte d.chip.counter2, d.setChip (d.chip.clearFlag timer2Flag))
  | some .t2High => (highByte d.chip.counter2, d)
  | some .shift => (d.chip.shift, d)
  | some .auxControl => (d.chip.acr, d)
  | some .periphControl => (d.chip.pcr, d)
  | some .intFlag => (d.chip.ifr, d)
  | some .intEnable => (d.chip.ier, d)

/-- Write of a parallel-I/O port: `cr[2]` selects output latch or direction register (R256). -/
def Devices.writePia (cfg : Config) (p : PiaId) (v : Byte) (d : Devices) : Devices :=
  if (d.chip.pia p).cr.getLsbD 2 then d.writePort cfg (.pia p) (fun port => { port with out := v })
  else d.writePort cfg (.pia p) (fun port => { port with ddr := v })

/-- `Chipset.write(offset, v)` (R251). -/
def Devices.write (cfg : Config) (offset : Nat) (v : Byte) (d : Devices) : Devices :=
  match registerAt cfg.chipset offset with
  | none => d
  | some (.piaPort p) => d.writePia cfg p v
  | some (.piaControl p) => d.writeControl cfg p v
  | some .viaPortA => d.writePort cfg .viaA (fun port => { port with out := v })
  | some .viaPortB => d.writePort cfg .viaB (fun port => { port with out := v })
  | some .viaDdrA => d.writePort cfg .viaA (fun port => { port with ddr := v })
  | some .viaDdrB => d.writePort cfg .viaB (fun port => { port with ddr := v })
  | some .t1CounterLow => d.setChip (d.chip.writeT1Low v)
  | some .t1CounterHigh => d.setChip (d.chip.writeT1High v)
  | some .t1LatchLow => d.setChip (d.chip.writeT1Low v)
  | some .t1LatchHigh => d.setChip (d.chip.writeT1LatchHigh v)
  | some .t2Low => d.setChip { d.chip with held2 := v }
  | some .t2High => d.setChip (d.chip.writeT2High v)
  | some .shift => d.setChip { d.chip with shift := v }
  | some .auxControl => d.setChip { d.chip with acr := v }
  | some .periphControl => d.setChip { d.chip with pcr := v }
  | some .intFlag => d.setChip (d.chip.writeFlag v)
  | some .intEnable => d.setChip (d.chip.writeEnable v)

/-! ### tick() (R259 to R261) -/

/-- The tick count, the retrace status bit and the latched flag it sets (R259). -/
def Chipset.tickRetrace (cfg : Config) (c : Chipset) : Chipset :=
  let n := (c.tickCount + 1) % 20
  let c := { c with tickCount := n, retrace := n == 0 }
  match c.retrace, cfg.chipset.retraceFlag with
  | true, some p => c.setCr p ((c.pia p).cr ||| 0x80)
  | _, _ => c

/-- Both the master bit and the flag's own bit are set in the enable register (R260). -/
def Chipset.timerEnabled (c : Chipset) (flag : Byte) : Bool := c.ier.getLsbD 7 && (c.ier &&& flag) != 0

/-- Timer 1 in a tick: whether it requests an interrupt, and the Chipset after (R260). -/
def Chipset.tickTimer1 (cfg : Config) (c : Chipset) : Bool × Chipset :=
  if c.active1 then
    if c.counter1.toNat < cfg.timerDec then
      let c' := { c with ifr := c.ifr ||| timer1Flag }
      (c.timerEnabled timer1Flag,
        if c.acr.getLsbD 6 then { c' with counter1 := c'.latch1 } else { c' with active1 := false })
    else (false, { c with counter1 := c.counter1 - BitVec.ofNat 16 cfg.timerDec })
  else (false, c)

/-- Timer 2 in a tick: one-shot (R260, R265). -/
def Chipset.tickTimer2 (cfg : Config) (c : Chipset) : Bool × Chipset :=
  if c.active2 then
    if c.counter2.toNat < cfg.timerDec then
      (c.timerEnabled timer2Flag, { c with ifr := c.ifr ||| timer2Flag, active2 := false })
    else (false, { c with counter2 := c.counter2 - BitVec.ofNat 16 cfg.timerDec })
  else (false, c)

/-- Term (c) of R261: an enabled flag is set. -/
def Chipset.flagRequest (c : Chipset) : Bool := (c.ifr &&& c.ier &&& 0x7F) != 0

/-- The aggregate in bit 7 of the flag register (R261). -/
def Chipset.aggregate (c : Chipset) : Chipset := { c with ifr := setBit c.ifr 7 c.flagRequest }

/-- A latched edge flag together with its enable bit: term (d) of R261 for one control register. -/
def handshakeRequest (cr : Byte) : Bool := (cr.getLsbD 7 && cr.getLsbD 0) || (cr.getLsbD 6 && cr.getLsbD 3)

/-- Term (d) of R261 over all control registers. -/
def Chipset.handshakeRequests (c : Chipset) : Bool :=
  handshakeRequest c.p1A.cr || handshakeRequest c.p1B.cr || handshakeRequest c.p2A.cr || handshakeRequest c.p2B.cr

/-- `tick()`: the request and the Chipset after (R259 to R261). -/
def Chipset.tick (cfg : Config) (c : Chipset) : Bool × Chipset :=
  let c := c.tickRetrace cfg
  let t1 := c.tickTimer1 cfg
  let t2 := t1.2.tickTimer2 cfg
  let c := t2.2.aggregate
  (c.retrace || t1.1 || t2.1 || c.flagRequest || c.handshakeRequests, c)

/-- `tick()` on the devices; the retrace status then shows in the input latches (R259). -/
def Devices.tick (cfg : Config) (d : Devices) : Bool × Devices :=
  let r := d.chip.tick cfg
  (r.1, (d.setChip r.2).refreshInputs cfg)

/-! ### Host calls on the Keyboard (R270, R354) -/

/-- `key_down(code)`, the column byte then shows in the input latch (R269, R270). -/
def Devices.keyDown (cfg : Config) (code : Byte) (d : Devices) : Devices :=
  { d with keys := d.keys.keyDown code }.refreshInputs cfg

/-- `key_up(code)`, the column byte then shows in the input latch (R269, R270). -/
def Devices.keyUp (cfg : Config) (code : Byte) (d : Devices) : Devices :=
  { d with keys := d.keys.keyUp code }.refreshInputs cfg

end Sys2Proof.Machine
end

