-- ==== Sys2Proof/Machine/Flags.lean ====
section
/-! DEFINITION. The flag byte and every flag computation: spec/10_state.md R14, spec/42_arithmetic.md R130 to R136,
spec/43_logic_shift.md R153 to R157, spec/60_exceptions.md R225. -/

namespace Sys2Proof.Machine

/-- The 8-bit image `P = {N, V, U, B, D, I, Z, C}` (R14). -/
def Flags.toByte (f : Flags) : Byte :=
  BitVec.ofBool f.n ++ BitVec.ofBool f.v ++ BitVec.ofBool f.u ++ BitVec.ofBool f.b ++
    BitVec.ofBool f.d ++ BitVec.ofBool f.i ++ BitVec.ofBool f.z ++ BitVec.ofBool f.c

/-- `SetFlags(b)` (R14). -/
def Flags.ofByte (p : Byte) : Flags where
  c := p.getLsbD 0
  z := p.getLsbD 1
  i := p.getLsbD 2
  d := p.getLsbD 3
  b := p.getLsbD 4
  u := p.getLsbD 5
  v := p.getLsbD 6
  n := p.getLsbD 7

/-- The flag byte that is pushed: bit 5 is 1, bit 4 is `brk`, the other six bits are the stored flags (R225). -/
def Flags.pushed (f : Flags) (brk : Bool) : Byte :=
  (f.toByte &&& 0xCF) ||| 0x20 ||| (if brk then 0x10 else 0x00)

/-- The flags that PLP and RTI make of the pulled byte: B cleared, U set (R123, R199, decision D7). -/
def Flags.pulled (p : Byte) : Flags := Flags.ofByte ((p &&& 0xEF) ||| 0x20)

/-- `SetZN(v)` of R7. -/
def Flags.setZN (f : Flags) (v : Byte) : Flags :=
  { f with z := v == 0, n := v.msb }

/-- A carry as a number. -/
def carryNat (c : Bool) : Nat := if c then 1 else 0

/-- The result and flags of an addition or subtraction. -/
structure AluResult where
  value : Byte
  flags : Flags
  deriving DecidableEq, Repr

/-- Binary ADC (R130). -/
def adcBinary (a m : Byte) (f : Flags) : AluResult :=
  let t := a.toNat + m.toNat + carryNat f.c
  let r : Byte := BitVec.ofNat 8 t
  { value := r
    flags := { f.setZN r with c := decide (t > 0xFF), v := ((a ^^^ r) &&& (m ^^^ r)).msb } }

/-- ADC with D = 1 under `nmos_bcd` (R131). -/
def adcBcd (a m : Byte) (f : Flags) : AluResult :=
  let binary := a.toNat + m.toNat + carryNat f.c
  let al := a.toNat % 16 + m.toNat % 16 + carryNat f.c
  let al := if al ≥ 0x0A then (al + 0x06) % 16 + 0x10 else al
  let t := a.toNat / 16 * 16 + m.toNat / 16 * 16 + al
  let tb : Byte := BitVec.ofNat 8 t
  let t' := if t ≥ 0xA0 then t + 0x60 else t
  { value := BitVec.ofNat 8 t'
    flags := { f with z := decide (binary % 256 = 0), n := tb.msb, v := ((a ^^^ tb) &&& (m ^^^ tb)).msb,
                      c := decide (t' ≥ 0x100) } }

/-- ADC as `DECIMAL_MODE` and the decimal flag select (R130, R131). -/
def adcResult (mode : DecimalMode) (a m : Byte) (f : Flags) : AluResult :=
  match f.d, mode with
  | true, .nmosBcd => adcBcd a m f
  | _, _ => adcBinary a m f

/-- Binary SBC: ADC of the one's complement (R132). -/
def sbcBinary (a m : Byte) (f : Flags) : AluResult := adcBinary a (m ^^^ 0xFF) f

/-- The value SBC writes with D = 1 under `nmos_bcd` (R133). -/
def sbcBcdValue (a m : Byte) (c : Bool) : Byte :=
  let al : Int := (a.toNat % 16 : Nat) - (m.toNat % 16 : Nat) + (carryNat c : Nat) - 1
  let al : Int := if al < 0 then (al - 0x06) % 16 - 0x10 else al
  let t : Int := (a.toNat / 16 * 16 : Nat) - (m.toNat / 16 * 16 : Nat) + al
  let t : Int := if t < 0 then t - 0x60 else t
  BitVec.ofInt 8 t

/-- SBC as `DECIMAL_MODE` and the decimal flag select: the flags are those of the binary subtraction (R132, R133). -/
def sbcResult (mode : DecimalMode) (a m : Byte) (f : Flags) : AluResult :=
  match f.d, mode with
  | true, .nmosBcd => { value := sbcBcdValue a m f.c, flags := (sbcBinary a m f).flags }
  | _, _ => sbcBinary a m f

/-- The flags of a compare of register value `r` with `m` (R134 to R136). -/
def compareFlags (r m : Byte) (f : Flags) : Flags :=
  { f.setZN (r - m) with c := decide (r.toNat ≥ m.toNat) }

/-- The flags of BIT (R153). -/
def bitFlags (a m : Byte) (f : Flags) : Flags :=
  { f with z := (a &&& m) == 0, v := m.getLsbD 6, n := m.getLsbD 7 }

/-- ASL (R154). -/
def aslResult (v : Byte) (f : Flags) : AluResult :=
  let r := v <<< 1
  { value := r, flags := { f.setZN r with c := v.getLsbD 7 } }

/-- LSR (R155). -/
def lsrResult (v : Byte) (f : Flags) : AluResult :=
  let r := v >>> 1
  { value := r, flags := { f.setZN r with c := v.getLsbD 0 } }

/-- ROL (R156). -/
def rolResult (v : Byte) (f : Flags) : AluResult :=
  let r := (v <<< 1) ||| (if f.c then 0x01 else 0x00)
  { value := r, flags := { f.setZN r with c := v.getLsbD 7 } }

/-- ROR (R157). -/
def rorResult (v : Byte) (f : Flags) : AluResult :=
  let r := (v >>> 1) ||| (if f.c then 0x80 else 0x00)
  { value := r, flags := { f.setZN r with c := v.getLsbD 0 } }

end Sys2Proof.Machine
end

