-- ==== Sys2Proof/Machine/Ops.lean ====
section
/-! DEFINITION. The named operations over memory and registers: `get` and `set` (spec/20_memory.md R40 to R49), 16-bit
reads, the stack (spec/10_state.md R13), fetching, taking an interrupt and returning from one (spec/60_exceptions.md R220
to R227). -/

namespace Sys2Proof.Machine

/-! ### Fixed addresses and address arithmetic (R5, R7, R13, R84, R198, R223, R340) -/

/-- The span of the chipset register window, fixed by the document (R5, R251). -/
def ioSpan : Nat := 0x50

/-- The reset vector (R340). -/
def resetVector : Addr := 0xFFFC

/-- `zext_16(b)` of R7. -/
def zext (b : Byte) : Addr := b.setWidth 16

/-- `sext_16(b)` of R7. -/
def sext (b : Byte) : Addr := b.signExtend 16

/-- The address after `p` inside the same 256-byte page: `{p[15:8], p[7:0] +_8 1}` of R84. -/
def nextInPage (p : Addr) : Addr := word (highByte p) (lowByte p + 1)

/-- `page(a) != page(b)`: the two addresses lie in different pages. -/
def pageDiffers (a b : Addr) : Bool := highByte a != highByte b

/-! ### The address map (R46, R47) -/

/-- Where an address lies. -/
inductive Place where
  /-- In the chipset register window, at an offset below 0x50. -/
  | window (offset : Nat)
  /-- In a region of the map. -/
  | region (kind : RegionKind)
  /-- Nowhere. -/
  | unmapped
  deriving DecidableEq, Repr

/-- The place of an address: the chipset window first, then the first region of the map that holds it (log 49). -/
def locate (cfg : Config) (a : Addr) : Place :=
  if cfg.ioBase.toNat ≤ a.toNat ∧ a.toNat < cfg.ioBase.toNat + ioSpan then
    .window (a.toNat - cfg.ioBase.toNat)
  else
    match cfg.regions.find? (fun r => decide (r.base ≤ a.toNat) && decide (a.toNat < r.base + r.size)) with
    | some r => .region r.kind
    | none => .unmapped

/-! ### get and set (R40, R47) -/

/-- The access of `get(a)`: the byte read and the devices after the read. RAM, ROM and video read the memory; the chipset
window reads a device register, with its side effects; the storage range and unmapped addresses read 0 (R47, C5). -/
def readAt (cfg : Config) (mem : List Host.Cell) (dev : Devices) (a : Addr) : Byte × Devices :=
  match locate cfg a with
  | .window offset => dev.read cfg offset
  | .region .ram => (Cells.read blankByte mem a.toNat, dev)
  | .region .rom => (Cells.read blankByte mem a.toNat, dev)
  | .region .video => (Cells.read blankByte mem a.toNat, dev)
  | .region .storage => (0x00, dev)
  | .unmapped => (0x00, dev)

/-- `get(a)`: the byte read and the state after the read (R40). -/
def State.get (s : State) (a : Addr) : Byte × State :=
  let r := readAt s.config s.mem s.dev a
  (r.1, { s with dev := r.2 })

/-- The access of `set(a, v)`: memory and devices after it. RAM and video store; ROM, the storage range and unmapped
addresses discard (R47); the chipset window writes a device register. -/
def writeAt (cfg : Config) (mem : List Host.Cell) (dev : Devices) (a : Addr) (v : Byte) : List Host.Cell × Devices :=
  match locate cfg a with
  | .window offset => (mem, dev.write cfg offset v)
  | .region .ram => (Cells.write blankByte mem a.toNat v, dev)
  | .region .video => (Cells.write blankByte mem a.toNat v, dev)
  | .region .rom => (mem, dev)
  | .region .storage => (mem, dev)
  | .unmapped => (mem, dev)

/-- `set(a, v)` (R40). -/
def State.set (s : State) (a : Addr) (v : Byte) : State :=
  let r := writeAt s.config s.mem s.dev a v
  { s with mem := r.1, dev := r.2 }

/-- The memory with `v` at address `a`, whatever region it lies in: a load of an image from outside (R55). -/
def State.store (s : State) (a : Addr) (v : Byte) : State := { s with mem := Cells.write blankByte s.mem a.toNat v }

/-- `Read16(a)`: two reads, the low byte first (R7, R42, R43). -/
def State.read16 (s : State) (a : Addr) : Addr × State :=
  let lo := s.get a
  let hi := lo.2.get (a + 1)
  (word hi.1 lo.1, hi.2)

/-- `Read16Wrap(p)`: the second byte from the same page (R84). -/
def State.read16Wrap (s : State) (p : Addr) : Addr × State :=
  let lo := s.get p
  let hi := lo.2.get (nextInPage p)
  (word hi.1 lo.1, hi.2)

/-! ### Register writes shared by the instructions -/

/-- The flags replaced. -/
def State.setFlags (s : State) (f : Flags) : State := { s with flags := f }

/-- `SetZN(v)` (R7). -/
def State.setZN (s : State) (v : Byte) : State := s.setFlags (s.flags.setZN v)

/-- The program counter replaced. -/
def State.setPc (s : State) (pc : Addr) : State := { s with pc := pc }

/-- `cycles += n` (R18). -/
def State.addCycles (s : State) (n : Nat) : State := { s with cycles := s.cycles + n }

/-! ### The stack (R13) -/

/-- The address of the stack byte that `sp` names: `STACK_BASE + SP`, `STACK_BASE` being 0x0100 (decision D5). -/
def stackAddr (cfg : Config) (sp : Byte) : Addr := cfg.stackBase + zext sp

/-- `Push(v)`: write, then decrement (R13). -/
def State.push (s : State) (v : Byte) : State :=
  let s := s.set (stackAddr s.config s.sp) v
  { s with sp := s.sp - 1 }

/-- `Pull()`: increment, then read (R13). -/
def State.pull (s : State) : Byte × State :=
  let s := { s with sp := s.sp + 1 }
  s.get (stackAddr s.config s.sp)

/-- `Push16(w)`: the high byte first (R13). -/
def State.push16 (s : State) (w : Addr) : State := (s.push (highByte w)).push (lowByte w)

/-- `Pull16()`: the low byte first (R13). -/
def State.pull16 (s : State) : Addr × State :=
  let lo := s.pull
  let hi := lo.2.pull
  (word hi.1 lo.1, hi.2)

/-! ### Taking an interrupt and returning from one (R199, R220 to R227) -/

/-- Trap entry `Interrupt(vector, b)`: push `PC` and the flag image with bit 4 = `brk`, set I, load `PC` from the vector
(R224, R225). -/
def State.interrupt (s : State) (vector : Addr) (brk : Bool) : State :=
  let s := s.push16 s.pc
  let s := s.push (s.flags.pushed brk)
  let s := s.setFlags { s.flags with i := true }
  let r := s.read16 vector
  r.2.setPc r.1

/-- Pull the flag byte, B forced to 0 and U to 1 (R123, R199). -/
def State.pullFlags (s : State) : State :=
  let r := s.pull
  r.2.setFlags (Flags.pulled r.1)

/-- Return from interrupt: pull the flags, then `PC`, with no adjustment (R199, R227). -/
def State.returnFromInterrupt (s : State) : State :=
  let r := s.pullFlags.pull16
  r.2.setPc r.1

/-- Service of a pending interrupt at the start of an unstalled step (R220, R223): entry through `NMI_VECTOR` or
`IRQ_VECTOR` (decision D4), 7 cycles, the tag cleared. Bit 4 of the pushed flags is `IRQ_PUSHED_B` (R225). -/
def State.service (s : State) : State :=
  match s.pending with
  | .none => s
  | .nmi => { (s.interrupt s.config.nmiVector s.config.irqPushedB).addCycles 7 with pending := .none }
  | .irq => { (s.interrupt s.config.irqVector s.config.irqPushedB).addCycles 7 with pending := .none }

/-! ### Fetching an instruction (R11, R74, R220) -/

/-- The opcode at `PC`, then the operand bytes the opcode has, each one `get`, decoded (R49, R74). `PC` stays. -/
def State.fetch (s : State) : Instr × State :=
  let op := s.get s.pc
  match operandCount op.1 with
  | 0 => (decodeOp op.1 0 0, op.2)
  | 1 =>
    let b1 := op.2.get (s.pc + 1)
    (decodeOp op.1 b1.1 0, b1.2)
  | _ =>
    let b1 := op.2.get (s.pc + 1)
    let b2 := b1.2.get (s.pc + 2)
    (decodeOp op.1 b1.1 b2.1, b2.2)

end Sys2Proof.Machine
end

