-- ==== Sys2Proof/Machine/Operands.lean ====
section
/-! DEFINITION. Every operand form: effective addresses, page crossing, sizes and cycle counts (spec/30_encoding.md R73 to
R89), and reading and writing an operand. -/

namespace Sys2Proof.Machine

/-- The pair (`ea`, `crossed`) of R74. -/
structure Resolved where
  ea : Addr
  crossed : Bool
  deriving DecidableEq, Repr

/-- An effective address of a mode that never pays the page-crossing cycle. -/
def Resolved.plain (ea : Addr) : Resolved := { ea := ea, crossed := false }

/-- An indexed effective address: `base +_16 index`, crossed if the page changed (R82, R83, R87). -/
def Resolved.indexed (base : Addr) (index : Byte) : Resolved :=
  { ea := base + zext index, crossed := pageDiffers base (base + zext index) }

/-- The target of a branch at `pc0` with displacement `d8` (R88). -/
def branchTarget (pc0 : Addr) (d8 : Byte) : Addr := (pc0 + 2) + sext d8

/-- Operand resolution of an instruction at `s.pc` whose operand bytes have been read (R74 to R88): the effective address,
and the state after the pointer fetches of the indirect modes. -/
def State.resolve (s : State) : Operand → Resolved × State
  | .implied => (.plain 0, s)
  | .accumulator => (.plain 0, s)
  | .immediate _ => (.plain (s.pc + 1), s)
  | .zeroPage d8 => (.plain (zext d8), s)
  | .zeroPageX d8 => (.plain (zext (d8 + s.x)), s)
  | .zeroPageY d8 => (.plain (zext (d8 + s.y)), s)
  | .absolute a16 => (.plain a16, s)
  | .absoluteX a16 => (.indexed a16 s.x, s)
  | .absoluteY a16 => (.indexed a16 s.y, s)
  | .indirect a16 =>
    let r := s.read16Wrap a16
    (.plain r.1, r.2)
  | .indexedIndirect d8 =>
    let r := s.read16Wrap (zext (d8 + s.x))
    (.plain r.1, r.2)
  | .indirectIndexed d8 =>
    let r := s.read16Wrap (zext d8)
    (.indexed r.1 s.y, r.2)
  | .relative d8 => (.plain (branchTarget s.pc d8), s)

/-- The size of an instruction in bytes by its mode (R73). BRK is the one exception: it passes 2 itself (R73, R198). -/
def modeSize (m : Mode) : Nat := 1 + m.operandBytes

/-- The cycle columns of an official opcode: the first row of the parameter table that lists it; DESIGN CHOICE
(log 15): one that no row lists has 2 cycles and no page cycle (R72). -/
def officialColumns (cfg : Config) (op : Byte) : CycleColumns :=
  match cfg.official.find? (fun row => row.opcodes.contains op) with
  | some row => row.columns
  | none => { cycles := 2, pageCycle := false }

/-- The cycle columns of an instruction: those of its opcode. A term without an opcode is never decoded. -/
def columnsOf (cfg : Config) (i : Instr) : CycleColumns := officialColumns cfg (i.opcode.getD 0x00)

/-- The common part of the step after the fetch: resolve the operand, advance `PC` by `size`, add the base cycles and one
more if a page was crossed and the opcode pays for it (R89, R220). Gives the effective address and the state in which the
handler runs. -/
def State.enter (s : State) (o : Operand) (size : Nat) (c : CycleColumns) : Addr × State :=
  let r := s.resolve o
  let extra := if r.1.crossed && c.pageCycle then 1 else 0
  (r.1.ea, { r.2 with pc := s.pc + BitVec.ofNat 16 size, cycles := r.2.cycles + (c.cycles + extra) })

/-- The source operand the handler reads (R74): `A` in accumulator mode, the byte after the opcode in immediate mode (it
was read with the instruction: one read in total, R77), else one read at `ea`. -/
def State.loadOperand (s : State) (o : Operand) (ea : Addr) : Byte × State :=
  match o with
  | .accumulator => (s.a, s)
  | .immediate d8 => (d8, s)
  | _ => s.get ea

/-- Write of the result (R74): to `A` in accumulator mode, else one write at `ea`. -/
def State.storeOperand (s : State) (o : Operand) (ea : Addr) (v : Byte) : State :=
  match o with
  | .accumulator => { s with a := v }
  | _ => s.set ea v

/-- The instruction `i` reads its operand `o`: the operand byte and the state in which its result is written (R74, R89). -/
def State.readOperand (s : State) (i : Instr) (o : Operand) : Byte × State :=
  let e := s.enter o (modeSize o.mode) (columnsOf s.config i)
  e.2.loadOperand o e.1

/-- The instruction `i` stores `v` at its operand `o`: no read of the address (R103). -/
def State.writeOperand (s : State) (i : Instr) (o : Operand) (v : Byte) : State :=
  let e := s.enter o (modeSize o.mode) (columnsOf s.config i)
  e.2.storeOperand o e.1 v

/-- The instruction `i` reads, modifies and writes its operand `o`: one read, `f` of the byte and the flags, one write, the
flags `f` gives (R137, R154). -/
def State.modifyOperand (s : State) (i : Instr) (o : Operand) (f : Byte → Flags → AluResult) : State :=
  let e := s.enter o (modeSize o.mode) (columnsOf s.config i)
  let m := e.2.loadOperand o e.1
  let r := f m.1 m.2.flags
  (m.2.storeOperand o e.1 r.value).setFlags r.flags

/-- The instruction `i`, of one byte and without operand: the state in which its effect happens (R75). -/
def State.enterImplied (s : State) (i : Instr) : State := (s.enter .implied 1 (columnsOf s.config i)).2

end Sys2Proof.Machine
end

