-- ==== Sys2Proof/Machine/Arithmetic.lean ====
section
/-! DEFINITION. Arithmetic, compare, increment and decrement: spec/42_arithmetic.md R130 to R143. -/

namespace Sys2Proof.Machine

/-- ADC (R130), with the decimal flag set as `DECIMAL_MODE` selects (R131). -/
def execAdc (o : Operand) (s : State) : Result :=
  let r := s.readOperand (.adc o) o
  let t := adcResult s.config.decimalMode r.2.a r.1 r.2.flags
  .next ({ r.2 with a := t.value }.setFlags t.flags)

/-- SBC (R132), with the decimal flag set as `DECIMAL_MODE` selects (R133). -/
def execSbc (o : Operand) (s : State) : Result :=
  let r := s.readOperand (.sbc o) o
  let t := sbcResult s.config.decimalMode r.2.a r.1 r.2.flags
  .next ({ r.2 with a := t.value }.setFlags t.flags)

/-- CMP (R134). -/
def execCmp (o : Operand) (s : State) : Result :=
  let r := s.readOperand (.cmp o) o
  .next (r.2.setFlags (compareFlags r.2.a r.1 r.2.flags))

/-- CPX (R135). -/
def execCpx (o : Operand) (s : State) : Result :=
  let r := s.readOperand (.cpx o) o
  .next (r.2.setFlags (compareFlags r.2.x r.1 r.2.flags))

/-- CPY (R136). -/
def execCpy (o : Operand) (s : State) : Result :=
  let r := s.readOperand (.cpy o) o
  .next (r.2.setFlags (compareFlags r.2.y r.1 r.2.flags))

/-- The value and flags of INC on memory (R137). -/
def incResult (v : Byte) (f : Flags) : AluResult := { value := v + 1, flags := f.setZN (v + 1) }

/-- The value and flags of DEC on memory (R140). -/
def decResult (v : Byte) (f : Flags) : AluResult := { value := v - 1, flags := f.setZN (v - 1) }

/-- INC (R137). -/
def execInc (o : Operand) (s : State) : Result := .next (s.modifyOperand (.inc o) o incResult)

/-- DEC (R140). -/
def execDec (o : Operand) (s : State) : Result := .next (s.modifyOperand (.dec o) o decResult)

/-- INX (R138). -/
def execInx (s : State) : Result := .next ({ s.enterImplied .inx with x := s.x + 1 }.setZN (s.x + 1))

/-- INY (R139). -/
def execIny (s : State) : Result := .next ({ s.enterImplied .iny with y := s.y + 1 }.setZN (s.y + 1))

/-- DEX (R141). -/
def execDex (s : State) : Result := .next ({ s.enterImplied .dex with x := s.x - 1 }.setZN (s.x - 1))

/-- DEY (R142). -/
def execDey (s : State) : Result := .next ({ s.enterImplied .dey with y := s.y - 1 }.setZN (s.y - 1))

end Sys2Proof.Machine
end

