-- ==== Sys2Proof/Machine/Control.lean ====
section
/-! DEFINITION. Jumps, subroutine calls and conditional branches: spec/44_control_flow.md R170 to R182. -/

namespace Sys2Proof.Machine

/-- JMP (R170). -/
def execJmp (o : Operand) (s : State) : Result :=
  let e := s.enter o 3 (columnsOf s.config (.jmp o))
  .next (e.2.setPc e.1)

/-- JSR: pushes the address of its own last byte, high byte first (R171). -/
def execJsr (a16 : Addr) (s : State) : Result :=
  let e := s.enter (.absolute a16) 3 (columnsOf s.config (.jsr a16))
  .next ((e.2.push16 (e.2.pc - 1)).setPc e.1)

/-- RTS: pulls the word JSR pushed and adds one (R172). -/
def execRts (s : State) : Result :=
  let r := (s.enterImplied .rts).pull16
  .next (r.2.setPc (r.1 + 1))

/-- The common rule of a conditional branch `i` (R173): if taken, one cycle more, one more still if the target's page differs
from that of the next instruction, and `PC` becomes the target. -/
def State.branch (s : State) (i : Instr) (d8 : Byte) (taken : Bool) : State :=
  let e := s.enter (.relative d8) 2 (columnsOf s.config i)
  if taken then (e.2.addCycles (if pageDiffers e.1 e.2.pc then 2 else 1)).setPc e.1 else e.2

/-- BCC (R174). -/
def execBcc (d8 : Byte) (s : State) : Result := .next (s.branch (.bcc d8) d8 (!s.flags.c))

/-- BCS (R175). -/
def execBcs (d8 : Byte) (s : State) : Result := .next (s.branch (.bcs d8) d8 s.flags.c)

/-- BEQ (R176). -/
def execBeq (d8 : Byte) (s : State) : Result := .next (s.branch (.beq d8) d8 s.flags.z)

/-- BMI (R177). -/
def execBmi (d8 : Byte) (s : State) : Result := .next (s.branch (.bmi d8) d8 s.flags.n)

/-- BNE (R178). -/
def execBne (d8 : Byte) (s : State) : Result := .next (s.branch (.bne d8) d8 (!s.flags.z))

/-- BPL (R179). -/
def execBpl (d8 : Byte) (s : State) : Result := .next (s.branch (.bpl d8) d8 (!s.flags.n))

/-- BVC (R180). -/
def execBvc (d8 : Byte) (s : State) : Result := .next (s.branch (.bvc d8) d8 (!s.flags.v))

/-- BVS (R181). -/
def execBvs (d8 : Byte) (s : State) : Result := .next (s.branch (.bvs d8) d8 s.flags.v)

end Sys2Proof.Machine
end

