-- ==== Sys2Proof/Machine/Illegal.lean ====
section
/-! DEFINITION. The 105 undocumented opcodes: spec/46_illegal.md R210 to R212. -/

namespace Sys2Proof.Machine

/-- The decode columns of an undocumented opcode: the first row of the parameter table that lists it; one that no row
lists has the columns of the first row of R211 (log 7). -/
def illegalColumns (cfg : Config) (op : Byte) : IllegalColumns :=
  match cfg.illegal.find? (fun row => row.opcodes.contains op) with
  | some row => row.columns
  | none => { mode := .implied, size := 1, cycles := 2, pageCycle := false }

/-- The operand that mode `m` reads behind the opcode (R74 to R88): the bytes after `PC`, each one `get`. In immediate mode
the operand is read by a handler only (R77), and the handler of an undocumented opcode reads nothing. -/
def State.fetchOperand (s : State) (m : Mode) : Operand × State :=
  match m with
  | .implied | .accumulator | .immediate => (m.operand 0 0, s)
  | .zeroPage | .zeroPageX | .zeroPageY | .indexedIndirect | .indirectIndexed | .relative =>
    let b1 := s.get (s.pc + 1)
    (m.operand b1.1 0, b1.2)
  | .absolute | .absoluteX | .absoluteY | .indirect =>
    let b1 := s.get (s.pc + 1)
    let b2 := b1.2.get (s.pc + 2)
    (m.operand b1.1 b2.1, b2.2)

/-- ILL: the common step with an empty handler (R210): resolve, advance `PC`, count cycles, nothing else. -/
def execIll (op : Byte) (s : State) : Result :=
  let c := illegalColumns s.config op
  let r := s.fetchOperand c.mode
  .next (r.2.enter r.1 c.size { cycles := c.cycles, pageCycle := c.pageCycle }).2

end Sys2Proof.Machine
end

