-- ==== Sys2Proof/Machine/LoadStore.lean ====
section
/-! DEFINITION. Loads, stores and register transfers: spec/40_load_store_transfer.md R100 to R111. -/

namespace Sys2Proof.Machine

/-- LDA (R100). -/
def execLda (o : Operand) (s : State) : Result :=
  let r := s.readOperand (.lda o) o
  .next ({ r.2 with a := r.1 }.setZN r.1)

/-- LDX (R101). -/
def execLdx (o : Operand) (s : State) : Result :=
  let r := s.readOperand (.ldx o) o
  .next ({ r.2 with x := r.1 }.setZN r.1)

/-- LDY (R102). -/
def execLdy (o : Operand) (s : State) : Result :=
  let r := s.readOperand (.ldy o) o
  .next ({ r.2 with y := r.1 }.setZN r.1)

/-- STA (R103). -/
def execSta (o : Operand) (s : State) : Result := .next (s.writeOperand (.sta o) o s.a)

/-- STX (R104). -/
def execStx (o : Operand) (s : State) : Result := .next (s.writeOperand (.stx o) o s.x)

/-- STY (R105). -/
def execSty (o : Operand) (s : State) : Result := .next (s.writeOperand (.sty o) o s.y)

/-- TAX (R106). -/
def execTax (s : State) : Result := .next ({ s.enterImplied .tax with x := s.a }.setZN s.a)

/-- TAY (R107). -/
def execTay (s : State) : Result := .next ({ s.enterImplied .tay with y := s.a }.setZN s.a)

/-- TXA (R108). -/
def execTxa (s : State) : Result := .next ({ s.enterImplied .txa with a := s.x }.setZN s.x)

/-- TYA (R109). -/
def execTya (s : State) : Result := .next ({ s.enterImplied .tya with a := s.y }.setZN s.y)

/-- TSX (R110). -/
def execTsx (s : State) : Result := .next ({ s.enterImplied .tsx with x := s.sp }.setZN s.sp)

/-- TXS, the one transfer that writes no flag (R111). -/
def execTxs (s : State) : Result := .next { s.enterImplied .txs with sp := s.x }

end Sys2Proof.Machine
end

