-- ==== Sys2Proof/Machine/Logic.lean ====
section
/-! DEFINITION. Logic, bit test, shifts and rotates: spec/43_logic_shift.md R150 to R157. -/

namespace Sys2Proof.Machine

/-- AND (R150). -/
def execAnd (o : Operand) (s : State) : Result :=
  let r := s.readOperand (.and o) o
  .next ({ r.2 with a := r.2.a &&& r.1 }.setZN (r.2.a &&& r.1))

/-- ORA (R151). -/
def execOra (o : Operand) (s : State) : Result :=
  let r := s.readOperand (.ora o) o
  .next ({ r.2 with a := r.2.a ||| r.1 }.setZN (r.2.a ||| r.1))

/-- EOR (R152). -/
def execEor (o : Operand) (s : State) : Result :=
  let r := s.readOperand (.eor o) o
  .next ({ r.2 with a := r.2.a ^^^ r.1 }.setZN (r.2.a ^^^ r.1))

/-- BIT (R153). -/
def execBit (o : Operand) (s : State) : Result :=
  let r := s.readOperand (.bit o) o
  .next (r.2.setFlags (bitFlags r.2.a r.1 r.2.flags))

/-- ASL on A or memory (R154). -/
def execAsl (o : Operand) (s : State) : Result := .next (s.modifyOperand (.asl o) o aslResult)

/-- LSR on A or memory (R155). -/
def execLsr (o : Operand) (s : State) : Result := .next (s.modifyOperand (.lsr o) o lsrResult)

/-- ROL on A or memory (R156). -/
def execRol (o : Operand) (s : State) : Result := .next (s.modifyOperand (.rol o) o rolResult)

/-- ROR on A or memory (R157). -/
def execRor (o : Operand) (s : State) : Result := .next (s.modifyOperand (.ror o) o rorResult)

end Sys2Proof.Machine
end

