-- ==== Sys2Proof/Machine/StackOps.lean ====
section
/-! DEFINITION. Stack instructions: spec/41_stack.md R120 to R123. -/

namespace Sys2Proof.Machine

/-- PHA (R120). -/
def execPha (s : State) : Result := .next ((s.enterImplied .pha).push s.a)

/-- PHP: the pushed image has bits 4 and 5 set (R121). -/
def execPhp (s : State) : Result := .next ((s.enterImplied .php).push (s.flags.pushed true))

/-- PLA (R122). -/
def execPla (s : State) : Result :=
  let r := (s.enterImplied .pla).pull
  .next ({ r.2 with a := r.1 }.setZN r.1)

/-- PLP: B cleared, U set, the other flags from the pulled byte (R123). -/
def execPlp (s : State) : Result := .next (s.enterImplied .plp).pullFlags

end Sys2Proof.Machine
end

