-- ==== Sys2Proof/Machine/System.lean ====
section
/-! DEFINITION. Flag instructions, NOP, BRK and RTI: spec/45_flags_system.md R190 to R199. -/

namespace Sys2Proof.Machine

/-- The flag instruction `i`: one byte, the flags as given (R190 to R196). -/
def State.flagInstr (s : State) (i : Instr) (f : Flags) : State := (s.enterImplied i).setFlags f

/-- CLC (R190). -/
def execClc (s : State) : Result := .next (s.flagInstr .clc { s.flags with c := false })

/-- CLD (R191). -/
def execCld (s : State) : Result := .next (s.flagInstr .cld { s.flags with d := false })

/-- CLI (R192). -/
def execCli (s : State) : Result := .next (s.flagInstr .cli { s.flags with i := false })

/-- CLV (R193). -/
def execClv (s : State) : Result := .next (s.flagInstr .clv { s.flags with v := false })

/-- SEC (R194). -/
def execSec (s : State) : Result := .next (s.flagInstr .sec { s.flags with c := true })

/-- SED (R195). -/
def execSed (s : State) : Result := .next (s.flagInstr .sed { s.flags with d := true })

/-- SEI (R196). -/
def execSei (s : State) : Result := .next (s.flagInstr .sei { s.flags with i := true })

/-- NOP (R197). -/
def execNop (s : State) : Result := .next (s.enterImplied .nop)

/-- BRK: two bytes, the second not read; the trap entry through the IRQ vector with bit 4 pushed as 1 (R198). -/
def execBrk (s : State) : Result :=
  let e := s.enter .implied 2 (columnsOf s.config .brk)
  .next (e.2.interrupt s.config.irqVector true)

/-- RTI (R199). -/
def execRti (s : State) : Result := .next (s.enterImplied .rti).returnFromInterrupt

end Sys2Proof.Machine
end

