-- ==== Sys2Proof/Machine/HostOps.lean ====
section
/-! DEFINITION. What the host does between steps: reset, start, creation and power loss, interrupt requests, keys, stall,
ticks, and the accounting of the emulation loop (spec/60_exceptions.md R221, R222, R231, R250, R266, R319;
spec/70_reset_and_hazards.md R340 to R342, R354). -/

namespace Sys2Proof.Machine

/-- `reset()`: `PC` from the vector pair at 0xFFFC, `SP` and the flags to their fixed values, nothing else (R340). The
machine may step from then on (R342). -/
def State.hostReset (s : State) : State :=
  let r := s.read16 resetVector
  { r.2 with pc := r.1, sp := s.config.resetSp, flags := Flags.ofByte s.config.resetP, started := true }

/-- `start_at(addr)`: as `reset()` with `PC <- addr` and no memory access (R341, R342). -/
def State.startAt (s : State) (addr : Addr) : State :=
  { s with pc := addr, sp := s.config.resetSp, flags := Flags.ofByte s.config.resetP, started := true }

/-- Creation (R26, R342) with the given parameters; `PC`, `SP` and the flags have no defined value until `reset()` or
`start_at()`, so they are arguments, and no step is taken before it. What RAM and the devices hold is log 1, 8 and 40. -/
def State.create (cfg : Config) (pc : Addr) (sp : Byte) (flags : Flags) : State where
  a := cfg.initA
  x := cfg.initX
  y := cfg.initY
  sp := sp
  pc := pc
  flags := flags
  pending := .none
  stall := 0
  cycles := 0
  started := false
  budget := 0
  mem := []
  dev := Devices.reset
  config := cfg

/-- Power loss and power-up: the machine is created anew, with the ROM's bytes and the flash device's as they were (R319),
and then `reset()`. The window, dirty or not, and the directory copy are lost (log 53). -/
def State.powerCycle (s : State) : State :=
  { State.create s.config s.pc s.sp s.flags with
    mem := s.mem.filter (fun c => locate s.config (BitVec.ofNat 16 c.1) = Place.region .rom)
    dev := { Devices.reset with store := s.dev.store.powerUp } }.hostReset

/-- `trigger_nmi()` (R221). -/
def State.triggerNmi (s : State) : State := { s with pending := .nmi }

/-- `trigger_irq()` (R222). -/
def State.triggerIrq (s : State) : State :=
  if s.flags.i = false ∧ s.pending ≠ .nmi then { s with pending := .irq } else s

/-- `key_down(code)` (R270, R354). -/
def State.keyDown (s : State) (code : Byte) : State := { s with dev := s.dev.keyDown s.config code }

/-- `key_up(code)` (R270, R354). -/
def State.keyUp (s : State) (code : Byte) : State := { s with dev := s.dev.keyUp s.config code }

/-- The host sets the stall counter (R17, R233, decision D18). -/
def State.setStall (s : State) (n : Nat) : State := { s with stall := n }

/-- One `tick()`, and `trigger_irq()` after it if it returned true (R231, R266). -/
def State.tick (s : State) : State :=
  let r := s.dev.tick s.config
  let s := { s with dev := r.2 }
  if r.1 then s.triggerIrq else s

/-- `n` ticks. -/
def State.ticks : Nat → State → State
  | 0, s => s
  | n + 1, s => State.ticks n s.tick

/-- The emulation loop after a step that consumed `n` cycles: they go into the cycle budget, and a tick is made for every
`TICK_CYCLES` the budget holds, the remainder kept (R250, log 9). -/
def State.elapse (s : State) (n : Nat) : State :=
  let total := s.budget + n
  State.ticks (total / s.config.tickCycles) { s with budget := total % s.config.tickCycles }

/-- One stalled cycle (R220). -/
def State.idleCycle (s : State) : State := { s with stall := s.stall - 1, cycles := s.cycles + 1 }

/-- The start of an unstalled step: service a pending interrupt, then fetch and decode the instruction at `PC` (R220). -/
def State.begin (s : State) : Instr × State := s.service.fetch

/-- The host places an instruction's bytes at `PC`, and lets the next step fetch them: no stall, no pending interrupt, the
machine started (the load of a program from outside, R55, R343, log 3). -/
def State.placeAtPc (s : State) (b0 b1 b2 : Byte) : State :=
  { ((s.store s.pc b0).store (s.pc + 1) b1).store (s.pc + 2) b2 with
    stall := 0, pending := .none, started := true }

end Sys2Proof.Machine
end

