-- ==== Sys2Proof/Machine/Step.lean ====
section
/-! DEFINITION. The step: `Processor.step()` (spec/60_exceptions.md R220) and, around it, one round of the emulation loop
(R250); and how the host places a word where the step fetches. -/

namespace Sys2Proof.Machine

/-- `Processor.step()` (R220): one stalled cycle, or the service of a pending interrupt followed by one whole instruction.
It returns the growth of `cycles`. A step before the first `reset()` or `start_at()` is refused (R342). -/
def cpuStep (s : State) : Host.Outcome State Fault Refusal :=
  if s.started then
    if s.stall > 0 then .next s.idleCycle
    else exec s.begin.1 s.begin.2
  else .refused .notReset

/-- One round of the emulation loop (R250): `Processor.step()`, then the cycles it consumed go to the budget and due ticks
are made. -/
def step (s : State) : Host.Outcome State Fault Refusal :=
  match cpuStep s with
  | .next t => .next (t.elapse (t.cycles - s.cycles))
  | .fault r => .fault r
  | .refused r => .refused r

/-- `s` with the instruction whose bits are `w` (bits above `nbits` are 0) at the program counter, so that the next step
fetches and runs it: the three bytes an instruction can have (log 3). -/
def State.withFetchWord (s : State) (nbits w : Nat) : State :=
  s.placeAtPc (tableByte nbits w 0) (tableByte nbits w 1) (tableByte nbits w 2)

end Sys2Proof.Machine
end

