-- ==== Sys2Proof/Safety.lean ====
section
/-! DEFINITION. The terms the statements use: the Encoding lines of the instruction rules as rows, the shape of a completed
instruction, which instruction may write what, and the invariants of a safe machine. -/

namespace Sys2Proof.Machine

/-! ### Encoding lines (spec/40 to 45) -/

/-- One entry of an Encoding line: opcode byte, mode, size in bytes, base cycles, `+p`. -/
structure Row where
  op : Byte
  mode : Mode
  size : Nat
  cycles : Nat
  page : Bool
  deriving DecidableEq, Repr

/-- The eight rows of a read instruction on A whose opcodes are, in the order of R100's Encoding line, `imm` to `izy`. -/
def aluRows (imm zp zpx abs abx aby izx izy : Byte) : List Row :=
  [⟨imm, .immediate, 2, 2, false⟩, ⟨zp, .zeroPage, 2, 3, false⟩, ⟨zpx, .zeroPageX, 2, 4, false⟩,
   ⟨abs, .absolute, 3, 4, false⟩, ⟨abx, .absoluteX, 3, 4, true⟩, ⟨aby, .absoluteY, 3, 4, true⟩,
   ⟨izx, .indexedIndirect, 2, 6, false⟩, ⟨izy, .indirectIndexed, 2, 5, true⟩]

/-- R100. -/
def ldaRows : List Row := aluRows 0xA9 0xA5 0xB5 0xAD 0xBD 0xB9 0xA1 0xB1

/-- R101. -/
def ldxRows : List Row :=
  [⟨0xA2, .immediate, 2, 2, false⟩, ⟨0xA6, .zeroPage, 2, 3, false⟩, ⟨0xB6, .zeroPageY, 2, 4, false⟩,
   ⟨0xAE, .absolute, 3, 4, false⟩, ⟨0xBE, .absoluteY, 3, 4, true⟩]

/-- R102. -/
def ldyRows : List Row :=
  [⟨0xA0, .immediate, 2, 2, false⟩, ⟨0xA4, .zeroPage, 2, 3, false⟩, ⟨0xB4, .zeroPageX, 2, 4, false⟩,
   ⟨0xAC, .absolute, 3, 4, false⟩, ⟨0xBC, .absoluteX, 3, 4, true⟩]

/-- R103. -/
def staRows : List Row :=
  [⟨0x85, .zeroPage, 2, 3, false⟩, ⟨0x95, .zeroPageX, 2, 4, false⟩, ⟨0x8D, .absolute, 3, 4, false⟩,
   ⟨0x9D, .absoluteX, 3, 5, false⟩, ⟨0x99, .absoluteY, 3, 5, false⟩, ⟨0x81, .indexedIndirect, 2, 6, false⟩,
   ⟨0x91, .indirectIndexed, 2, 6, false⟩]

/-- R104. -/
def stxRows : List Row :=
  [⟨0x86, .zeroPage, 2, 3, false⟩, ⟨0x96, .zeroPageY, 2, 4, false⟩, ⟨0x8E, .absolute, 3, 4, false⟩]

/-- R105. -/
def styRows : List Row :=
  [⟨0x84, .zeroPage, 2, 3, false⟩, ⟨0x94, .zeroPageX, 2, 4, false⟩, ⟨0x8C, .absolute, 3, 4, false⟩]

/-- R130. -/
def adcRows : List Row := aluRows 0x69 0x65 0x75 0x6D 0x7D 0x79 0x61 0x71

/-- R132. -/
def sbcRows : List Row := aluRows 0xE9 0xE5 0xF5 0xED 0xFD 0xF9 0xE1 0xF1

/-- R134. -/
def cmpRows : List Row := aluRows 0xC9 0xC5 0xD5 0xCD 0xDD 0xD9 0xC1 0xD1

/-- R135. -/
def cpxRows : List Row :=
  [⟨0xE0, .immediate, 2, 2, false⟩, ⟨0xE4, .zeroPage, 2, 3, false⟩, ⟨0xEC, .absolute, 3, 4, false⟩]

/-- R136. -/
def cpyRows : List Row :=
  [⟨0xC0, .immediate, 2, 2, false⟩, ⟨0xC4, .zeroPage, 2, 3, false⟩, ⟨0xCC, .absolute, 3, 4, false⟩]

/-- The four memory rows of a read-modify-write instruction (R137, R140, R154 to R157). -/
def modifyRows (zp zpx abs abx : Byte) : List Row :=
  [⟨zp, .zeroPage, 2, 5, false⟩, ⟨zpx, .zeroPageX, 2, 6, false⟩, ⟨abs, .absolute, 3, 6, false⟩,
   ⟨abx, .absoluteX, 3, 7, false⟩]

/-- R137. -/
def incRows : List Row := modifyRows 0xE6 0xF6 0xEE 0xFE

/-- R140. -/
def decRows : List Row := modifyRows 0xC6 0xD6 0xCE 0xDE

/-- R150. -/
def andRows : List Row := aluRows 0x29 0x25 0x35 0x2D 0x3D 0x39 0x21 0x31

/-- R151. -/
def oraRows : List Row := aluRows 0x09 0x05 0x15 0x0D 0x1D 0x19 0x01 0x11

/-- R152. -/
def eorRows : List Row := aluRows 0x49 0x45 0x55 0x4D 0x5D 0x59 0x41 0x51

/-- R153. -/
def bitRows : List Row := [⟨0x24, .zeroPage, 2, 3, false⟩, ⟨0x2C, .absolute, 3, 4, false⟩]

/-- R154, memory forms. -/
def aslRows : List Row := modifyRows 0x06 0x16 0x0E 0x1E

/-- R155, memory forms. -/
def lsrRows : List Row := modifyRows 0x46 0x56 0x4E 0x5E

/-- R156, memory forms. -/
def rolRows : List Row := modifyRows 0x26 0x36 0x2E 0x3E

/-- R157, memory forms. -/
def rorRows : List Row := modifyRows 0x66 0x76 0x6E 0x7E

/-! ### The shape of a completed instruction -/

/-- `PC` advanced by `size`, `cycles` by `cost` (R220). -/
def State.advance (s : State) (size cost : Nat) : State :=
  { s with pc := s.pc + BitVec.ofNat 16 size, cycles := s.cycles + cost }

/-- `SetZN(v)` of R7, spelled out. -/
def Flags.withZN (f : Flags) (v : Byte) : Flags := { f with z := decide (v = 0), n := v.getLsbD 7 }

/-- `{N, V, u, b, D, I, Z, C}`: the flags as a byte, with bits 5 and 4 given (R14, R225). -/
def Flags.image (f : Flags) (u b : Bool) : Byte :=
  BitVec.ofNat 8 (128 * f.n.toNat + 64 * f.v.toNat + 32 * u.toNat + 16 * b.toNat + 8 * f.d.toNat + 4 * f.i.toNat +
    2 * f.z.toNat + f.c.toNat)

/-- The source operand of an instruction about to run in `s`, before `PC` moves, and the state after the reads it takes
(R74, R76, R77). -/
def State.source (s : State) (o : Operand) : Byte × State :=
  match o with
  | .accumulator => (s.a, s)
  | .immediate d8 => (d8, s)
  | _ => (s.resolve o).2.get (s.resolve o).1.ea

/-- `BASE_CYCLES[op]` and `PAGE_CYCLE[op]` (R6, R72) have the values the spec takes for them (decisions D16, D10): the
parameter table of the machine as reset has these columns for opcode `op`. -/
def TakesCycles (op : Byte) (cycles : Nat) (page : Bool) : Prop :=
  officialColumns State.reset.config op = { cycles := cycles, pageCycle := page }

/-- The columns of a row are the values taken. -/
def Row.TakesCycles (r : Row) : Prop := Machine.TakesCycles r.op r.cycles r.page

/-- The cycles of opcode `op` with operand `o` run in `s`, by the columns of the parameter table (R6, R89, R220). -/
def State.cost (s : State) (op : Byte) (o : Operand) : Nat :=
  (officialColumns s.config op).cycles +
    (if (officialColumns s.config op).pageCycle && (s.resolve o).1.crossed then 1 else 0)

/-- In every state that meets `pre`, the read instruction `mk`, in each form of `rows`, decodes from its opcode and
completes: `eff` of the operand byte, the old state and the state after the reads; then `PC` and `cycles` advance,
`cycles` by the columns, which as reset are those of the row. -/
def CompletesReading (mk : Operand → Instr) (rows : List Row) (pre : State → Prop)
    (eff : Byte → State → State → State) : Prop :=
  ∀ r ∈ rows, r.TakesCycles ∧ ∀ (b1 b2 : Byte) (s : State), pre s →
    decodeOp r.op b1 b2 = mk (r.mode.operand b1 b2) ∧
    exec (mk (r.mode.operand b1 b2)) s =
      .next ((eff (s.source (r.mode.operand b1 b2)).1 s (s.source (r.mode.operand b1 b2)).2).advance r.size
        (s.cost r.op (r.mode.operand b1 b2)))

/-- The store `mk`, in each form of `rows`, decodes from its opcode and completes: one write of `v s` at the effective
address, no read of it, as reset no page-crossing cycle. -/
def CompletesStoring (mk : Operand → Instr) (rows : List Row) (v : State → Byte) : Prop :=
  ∀ r ∈ rows, r.TakesCycles ∧ ∀ (b1 b2 : Byte) (s : State),
    decodeOp r.op b1 b2 = mk (r.mode.operand b1 b2) ∧
    exec (mk (r.mode.operand b1 b2)) s =
      .next (((s.resolve (r.mode.operand b1 b2)).2.set (s.resolve (r.mode.operand b1 b2)).1.ea (v s)).advance r.size
        (s.cost r.op (r.mode.operand b1 b2)))

/-- The read-modify-write instruction `mk`, in each memory form of `rows`, decodes from its opcode and completes: one read
at the effective address, one write there of `value` of the byte and the old carry, the flags `flags` of the byte and the
old flags. -/
def CompletesModifying (mk : Operand → Instr) (rows : List Row) (value : Byte → Bool → Byte)
    (flags : Byte → Flags → Flags) : Prop :=
  ∀ r ∈ rows, r.TakesCycles ∧ ∀ (b1 b2 : Byte) (s : State),
    decodeOp r.op b1 b2 = mk (r.mode.operand b1 b2) ∧
    (let e := s.resolve (r.mode.operand b1 b2)
     let m := e.2.get e.1.ea
     exec (mk (r.mode.operand b1 b2)) s =
       .next ({ m.2.set e.1.ea (value m.1 s.flags.c) with flags := flags m.1 s.flags }.advance r.size
         (s.cost r.op (r.mode.operand b1 b2))))

/-- The accumulator form of the shift or rotate `mk`: one byte, as reset 2 cycles. -/
def CompletesOnAccumulator (mk : Operand → Instr) (op : Byte) (value : Byte → Bool → Byte)
    (flags : Byte → Flags → Flags) : Prop :=
  TakesCycles op 2 false ∧ ∀ (b1 b2 : Byte) (s : State),
    decodeOp op b1 b2 = mk .accumulator ∧
    exec (mk .accumulator) s =
      .next ({ s with a := value s.a s.flags.c, flags := flags s.a s.flags }.advance 1 (s.cost op .accumulator))

/-- The one-byte instruction `i` decodes from `op` and completes with `eff`, as reset in `cycles` cycles. -/
def CompletesInside (i : Instr) (op : Byte) (cycles : Nat) (eff : State → State) : Prop :=
  TakesCycles op cycles false ∧ ∀ (b1 b2 : Byte) (s : State),
    decodeOp op b1 b2 = i ∧ exec i s = .next ((eff s).advance 1 (s.cost op .implied))

/-- The branch `mk` decodes from `op` and completes, as reset in 2 cycles: to `PC0 + 2`, or if `taken` to the target, one
cycle more, two if the target's page is not that of `PC0 + 2` (R88, R173). -/
def CompletesBranching (mk : Byte → Instr) (op : Byte) (taken : Flags → Bool) : Prop :=
  TakesCycles op 2 false ∧ ∀ (d8 b2 : Byte) (s : State),
    decodeOp op d8 b2 = mk d8 ∧
    (let next := s.pc + 2
     let target := next + d8.signExtend 16
     let base := s.cycles + s.cost op (.relative d8)
     exec (mk d8) s = .next (if taken s.flags then
       { s with pc := target, cycles := base + (if target.toNat / 256 = next.toNat / 256 then 1 else 2) }
       else { s with pc := next, cycles := base }))

end Sys2Proof.Machine

namespace Sys2Proof

/-! ### Which instruction may write what (spec/10_state.md R10, R13, R15) -/

/-- A shift or rotate in accumulator form. -/
def Instr.onAccumulator : Instr → Bool
  | .asl .accumulator => true
  | .lsr .accumulator => true
  | .rol .accumulator => true
  | .ror .accumulator => true
  | _ => false

/-- The instructions that write A (R10). -/
def Instr.writesA : Instr → Bool
  | .lda _ | .txa | .tya | .pla | .adc _ | .sbc _ | .and _ | .ora _ | .eor _ => true
  | i => i.onAccumulator

/-- The instructions that write X (R10). -/
def Instr.writesX : Instr → Bool
  | .ldx _ | .tax | .tsx | .inx | .dex => true
  | _ => false

/-- The instructions that write Y (R10). -/
def Instr.writesY : Instr → Bool
  | .ldy _ | .tay | .iny | .dey => true
  | _ => false

/-- The instructions that write SP: TXS, every push and pull, BRK's interrupt entry (R13). -/
def Instr.writesSp : Instr → Bool
  | .txs | .pha | .php | .pla | .plp | .jsr _ | .rts | .brk | .rti => true
  | _ => false

/-- PLP and RTI, which write every flag (R15). -/
def Instr.pullsFlags : Instr → Bool
  | .plp | .rti => true
  | _ => false

/-- The writers of C (R15). -/
def Instr.writesC : Instr → Bool
  | .adc _ | .sbc _ | .cmp _ | .cpx _ | .cpy _ | .asl _ | .lsr _ | .rol _ | .ror _ | .clc | .sec => true
  | i => i.pullsFlags

/-- The writers of Z and N (R15). -/
def Instr.writesZN : Instr → Bool
  | .lda _ | .ldx _ | .ldy _ | .tax | .tay | .txa | .tya | .tsx | .pla | .adc _ | .sbc _ | .and _ | .ora _ | .eor _ | .bit _
  | .cmp _ | .cpx _ | .cpy _ | .inc _ | .inx | .iny | .dec _ | .dex | .dey | .asl _ | .lsr _ | .rol _ | .ror _ => true
  | i => i.pullsFlags

/-- The writers of I; BRK sets it (R15). -/
def Instr.writesI : Instr → Bool
  | .sei | .cli | .brk => true
  | i => i.pullsFlags

/-- The writers of D (R15). -/
def Instr.writesD : Instr → Bool
  | .sed | .cld => true
  | i => i.pullsFlags

/-- The writers of V (R15). -/
def Instr.writesV : Instr → Bool
  | .adc _ | .sbc _ | .bit _ | .clv => true
  | i => i.pullsFlags

/-- The instructions that load `PC`: jumps, calls, returns, branches, BRK (R170 to R181, R198, R199). -/
def Instr.transfersControl : Instr → Bool
  | .jmp _ | .jsr _ | .rts | .bcc _ | .bcs _ | .beq _ | .bmi _ | .bne _ | .bpl _ | .bvc _ | .bvs _ | .brk | .rti => true
  | _ => false

/-- An undocumented opcode. -/
def Instr.isIll : Instr → Bool
  | .ill _ => true
  | _ => false

end Sys2Proof

namespace Sys2Proof.Machine

/-! ### Memory -/

/-- The pointer bytes an operand's mode reads (R84 to R87). -/
def State.pointerBytes (s : State) : Operand → List Addr
  | .indirect a16 => [a16, nextInPage a16]
  | .indexedIndirect d8 => [zext (d8 + s.x), nextInPage (zext (d8 + s.x))]
  | .indirectIndexed d8 => [zext d8, nextInPage (zext d8)]
  | _ => []

/-- The addresses that resolving an operand and accessing it touch: pointer bytes and effective address, none for
accumulator and immediate mode (R74 to R88). -/
def State.operandBytes (s : State) : Operand → List Addr
  | .accumulator | .immediate _ => []
  | o => (s.resolve o).1.ea :: s.pointerBytes o

/-- The addresses an instruction run in `s` may access besides the opcode and operand bytes that were fetched with it. An
undocumented opcode reads its operand bytes itself. -/
def State.accessed (s : State) : Instr → List Addr
  | .lda o | .ldx o | .ldy o | .sta o | .stx o | .sty o | .adc o | .sbc o | .cmp o | .cpx o | .cpy o | .inc o | .dec o
  | .and o | .ora o | .eor o | .bit o | .asl o | .lsr o | .rol o | .ror o => s.operandBytes o
  | .jmp o => s.pointerBytes o
  | .pha | .php => [stackAddr s.config s.sp]
  | .pla | .plp => [stackAddr s.config (s.sp + 1)]
  | .jsr _ => [stackAddr s.config s.sp, stackAddr s.config (s.sp - 1)]
  | .rts => [stackAddr s.config (s.sp + 1), stackAddr s.config (s.sp + 2)]
  | .rti => [stackAddr s.config (s.sp + 1), stackAddr s.config (s.sp + 2), stackAddr s.config (s.sp + 3)]
  | .brk => [stackAddr s.config s.sp, stackAddr s.config (s.sp - 1), stackAddr s.config (s.sp - 2), s.config.irqVector, s.config.irqVector + 1]
  | .ill op => [s.pc + 1, s.pc + 2] ++ s.pointerBytes (s.fetchOperand (illegalColumns s.config op).mode).1
  | _ => []

/-- The addresses an instruction run in `s` writes: the effective address of a store or of a read-modify-write, the stack
bytes of a push (R103 to R105, R120, R121, R137, R140, R154 to R157, R171, R198); none for any other. -/
def State.storedAddresses (s : State) : Instr → List Addr
  | .sta o | .stx o | .sty o | .inc o | .dec o => [(s.resolve o).1.ea]
  | .asl o | .lsr o | .rol o | .ror o => if o = .accumulator then [] else [(s.resolve o).1.ea]
  | .pha | .php => [stackAddr s.config s.sp]
  | .jsr _ => [stackAddr s.config s.sp, stackAddr s.config (s.sp - 1)]
  | .brk => [stackAddr s.config s.sp, stackAddr s.config (s.sp - 1), stackAddr s.config (s.sp - 2)]
  | _ => []

/-- `a` is not in the chipset register window: an access there has no side effect on a device (R48). -/
abbrev Quiet (cfg : Config) (a : Addr) : Prop :=
  ¬ (cfg.ioBase.toNat ≤ a.toNat ∧ a.toNat < cfg.ioBase.toNat + ioSpan)

/-- `a` is RAM. -/
abbrev IsRam (cfg : Config) (a : Addr) : Prop := locate cfg a = .region .ram

/-- What a `get` of `a` returns. -/
def State.peek (s : State) (a : Addr) : Byte := (s.get a).1

/-! ### Devices -/

/-- `n` successive ticks of the Chipset; the last one's request, `false` if there is none. -/
def Chipset.ticks (cfg : Config) : Nat → Chipset → Bool × Chipset
  | 0, c => (false, c)
  | n + 1, c => (Chipset.ticks cfg n c).2.tick cfg

/-- The Chipset with every input latch 0: two Chipsets agree here if they differ in their input latches only. -/
def Chipset.withoutInputs (c : Chipset) : Chipset :=
  { c with
    p1A.port.inp := 0, p1B.port.inp := 0, p2A.port.inp := 0, p2B.port.inp := 0
    vA.inp := 0, vB.inp := 0 }

/-- `c` with the ports and control registers of `c'`. -/
def Chipset.withPorts (c c' : Chipset) : Chipset :=
  { c with p1A := c'.p1A, p1B := c'.p1B, p2A := c'.p2A, p2B := c'.p2B, vA := c'.vA, vB := c'.vB }

/-- The input latches show the levels that come back to the Chipset (R252, R257, R259, R269, R271): a bit that one wire
drives its signal, the other bits of the data-in port the data bus, the other bits of the column port the Keyboard's
column byte. -/
def Devices.InputsShow (cfg : Config) (d : Devices) : Prop :=
  let m := cfg.chipset
  let wired (id : PortId) (k : Nat) : Prop := ∃ w ∈ m.inWires, w.port = id ∧ w.bit = k
  (∀ w ∈ m.inWires, w.bit < 8 → (∀ w' ∈ m.inWires, w'.port = w.port → w'.bit = w.bit → w' = w) →
    (d.chip.port w.port).inp.getLsbD w.bit =
      ((match w.signal with
        | .line l => d.bus.level l
        | .retrace => d.chip.retrace) != w.invert)) ∧
  (∀ k, k < 8 → ¬ wired m.dataInPort k → (d.chip.port m.dataInPort).inp.getLsbD k = d.bus.data.getLsbD k) ∧
  (∀ k, k < 8 → m.columnPort ≠ m.dataInPort → ¬ wired m.columnPort k →
    (d.chip.port m.columnPort).inp.getLsbD k = (d.keys.read cfg.keyDownLevel).getLsbD k)

/-- A line that handshake line 1 of port `q`, or (`second`) line 2, watches had another level on the bus `before` than
`now`, where it is `active` (R253, log 23). -/
def edgeSeen (cfg : Config) (before now : Bus) (q : PiaId) (second active : Bool) : Bool :=
  cfg.chipset.handshakeIn.any (fun w =>
    w.pia == q && w.second == second && before.level w.line != now.level w.line && now.level w.line == active)

/-- Port `q`'s control register is `cr`, with bit 7 set too if line 1 saw its active edge between the bus `before` and
now, and bit 6 if line 2, as an input, saw its own (R253, R256, log 23). -/
def Devices.EdgesLatched (cfg : Config) (before : Bus) (q : PiaId) (cr : Byte) (d : Devices) : Prop :=
  (d.chip.pia q).cr &&& 0x3F = cr &&& 0x3F ∧
  (d.chip.pia q).cr.getLsbD 7 = (cr.getLsbD 7 || edgeSeen cfg before d.bus q false (cr.getLsbD 1)) ∧
  (d.chip.pia q).cr.getLsbD 6 =
    (cr.getLsbD 6 || (!cr.getLsbD 5 && edgeSeen cfg before d.bus q true (cr.getLsbD 4)))

/-- The key of a code is pressed. -/
def Keyboard.isDown (k : Keyboard) (r : Fin 10) (c : Nat) : Bool := k.matrix[r].getLsbD c

/-- Packed BCD of a number below 100 (R131). -/
def bcd (n : Nat) : Byte := BitVec.ofNat 8 (n / 10 * 16 + n % 10)

/-! ### Invariants -/

/-- The stored B is 0 and the stored U is 1, as reset, PLP and RTI leave them (R15, R123, R199). -/
def State.StatusInv (s : State) : Prop := s.flags.b = false ∧ s.flags.u = true

/-- The memory and the flash device are in canonical form. -/
def State.CellsInv (s : State) : Prop := Memory.wf s.mem ∧ Cells.wf erasedByte s.dev.store.flash

/-- Both halves of SRQ stay true (R298). -/
def Bus.SrqInv (b : Bus) : Prop := b.srq = LineHalves.released

/-- The window's base is a multiple of 4096, a dirty window is valid, the pending filename has at most 16 bytes (R305,
R312 to R314). -/
def Storage.Inv (st : Storage) : Prop :=
  st.base % 4096 = 0 ∧ (st.dirty = true → st.valid = true) ∧ st.pendingName.length ≤ 16

/-- The tick count stays below 20, SRQ released, the Storage invariant. -/
def Devices.Inv (d : Devices) : Prop := d.chip.tickCount < 20 ∧ d.bus.SrqInv ∧ d.store.Inv

end Sys2Proof.Machine
end

