-- ==== Sys2Proof/Certificates/Slice0/Obligations.lean ====
section
/-! DEFINITION. The statements for the provers, one definition each. Where a docstring names a decision D<n> or a log entry,
that clause is the spec's own choice or the model's, not the document's. -/

section Statements

open Sys2Proof Sys2Proof.Machine

/-! ### Encoding -/

/-- Sanity (R71, R90): words written out from the Encoding lines decode to the instruction they stand for. That BRK takes
its first byte only is decision D17 and log 18, that an undocumented opcode takes its opcode byte only is log 7. -/
def Obligations.SpecWordsDecode : Prop :=
  decode [0xA9, 0x80] = .instr (.lda (.immediate 0x80)) [] ∧
  decode [0x8D, 0x00, 0x02] = .instr (.sta (.absolute 0x0200)) [] ∧
  decode [0x94, 0xF0] = .instr (.sty (.zeroPageX 0xF0)) [] ∧
  decode [0x48, 0x11] = .instr .pha [0x11] ∧
  decode [0x61, 0x44] = .instr (.adc (.indexedIndirect 0x44)) [] ∧
  decode [0xDE, 0x34, 0x12] = .instr (.dec (.absoluteX 0x1234)) [] ∧
  decode [0x51, 0x20] = .instr (.eor (.indirectIndexed 0x20)) [] ∧
  decode [0x6A] = .instr (.ror .accumulator) [] ∧
  decode [0x6C, 0xFF, 0x30] = .instr (.jmp (.indirect 0x30FF)) [] ∧
  decode [0x20, 0x00, 0x06] = .instr (.jsr 0x0600) [] ∧
  decode [0xD0, 0xFD] = .instr (.bne 0xFD) [] ∧
  decode [0x00] = .instr .brk [] ∧
  decode [0x1A] = .instr (.ill 0x1A) [] ∧
  decode [0x20, 0x00] = .rejected (.operandMissing 0x20)

/-- The bytes of every well-formed instruction decode to it, with every operand at every value, and leave the bytes after
it. The encoder follows the Encoding lines of files 40 to 46, the decoder the matrix of R90. The encoder gives BRK one
byte, because its second byte is padding that is never read (decision D17, log 18), and an undocumented opcode its opcode
byte only, because how many operand bytes follow is a parameter (log 7): those bytes are the first of `rest`. -/
def Obligations.DecodeEncode : Prop :=
  ∀ (i : Instr) (rest : List Byte), i.wf = true → decode (encode i ++ rest) = .instr i rest

/-- R91: every one of the 256 opcode bytes is an instruction, with every operand byte; the opcodes the matrix leaves open
are exactly the 105 listed columns, and no other byte is one. -/
def Obligations.EveryOpcodeExecutes : Prop :=
  (∀ op b1 b2 : Byte,
    (decodeOp op b1 b2).wf = true ∧ (decodeOp op b1 b2).opcode = some op ∧
    (decodeOp op b1 b2 = .ill op ↔ isUndocumented op = true) ∧
    ∀ s : State, ∃ t, exec (decodeOp op b1 b2) s = .next t) ∧
  ((List.range 256).filter (fun n => isUndocumented (BitVec.ofNat 8 n))).length = 105

/-! ### Results: what each instruction does when it completes -/

/-- R100 to R102: each load, in each form, completes: the register takes the operand byte, Z and N follow it, nothing else
changes but what the reads did, `PC` and `cycles`. The cycle columns are parameters with the values of the Encoding lines
as reset (decision D16, log 15), here and in every result; the page that `+p` refers to is decision D10. -/
def Obligations.LoadResult : Prop :=
  CompletesReading .lda ldaRows (fun _ => True) (fun m s u => { u with a := m, flags := s.flags.withZN m }) ∧
  CompletesReading .ldx ldxRows (fun _ => True) (fun m s u => { u with x := m, flags := s.flags.withZN m }) ∧
  CompletesReading .ldy ldyRows (fun _ => True) (fun m s u => { u with y := m, flags := s.flags.withZN m })

/-- R103 to R105: each store, in each form, completes: one write of the register at the effective address, no read of it,
no flag written, as reset no page-crossing cycle. -/
def Obligations.StoreResult : Prop :=
  CompletesStoring .sta staRows (fun s => s.a) ∧
  CompletesStoring .stx stxRows (fun s => s.x) ∧
  CompletesStoring .sty styRows (fun s => s.y)

/-- R106 to R109, R111, R138, R139, R141, R142, and the effect R110 gives TSX: transfers, increments and decrements of
registers complete; each writes its one register, and Z and N but for TXS. -/
def Obligations.RegisterResult : Prop :=
  CompletesInside .tax 0xAA 2 (fun s => { s with x := s.a, flags := s.flags.withZN s.a }) ∧
  CompletesInside .tay 0xA8 2 (fun s => { s with y := s.a, flags := s.flags.withZN s.a }) ∧
  CompletesInside .txa 0x8A 2 (fun s => { s with a := s.x, flags := s.flags.withZN s.x }) ∧
  CompletesInside .tya 0x98 2 (fun s => { s with a := s.y, flags := s.flags.withZN s.y }) ∧
  CompletesInside .tsx 0xBA 2 (fun s => { s with x := s.sp, flags := s.flags.withZN s.sp }) ∧
  CompletesInside .txs 0x9A 2 (fun s => { s with sp := s.x }) ∧
  CompletesInside .inx 0xE8 2 (fun s => { s with x := s.x + 1, flags := s.flags.withZN (s.x + 1) }) ∧
  CompletesInside .iny 0xC8 2 (fun s => { s with y := s.y + 1, flags := s.flags.withZN (s.y + 1) }) ∧
  CompletesInside .dex 0xCA 2 (fun s => { s with x := s.x - 1, flags := s.flags.withZN (s.x - 1) }) ∧
  CompletesInside .dey 0x88 2 (fun s => { s with y := s.y - 1, flags := s.flags.withZN (s.y - 1) })

/-- R120, R122: PHA writes A at `STACK_BASE` + SP and then decrements SP; PLA increments SP and then reads there, and Z
and N follow A. `STACK_BASE` is a parameter, 0x0100 as reset (decision D5, log 11). -/
def Obligations.AccumulatorStackResult : Prop :=
  CompletesInside .pha 0x48 3 (fun s => { s.set (s.config.stackBase + s.sp.setWidth 16) s.a with sp := s.sp - 1 }) ∧
  CompletesInside .pla 0x68 4 (fun s =>
    let m := s.get (s.config.stackBase + (s.sp + 1).setWidth 16)
    { m.2 with a := m.1, sp := s.sp + 1, flags := s.flags.withZN m.1 })

/-- R121, R123: PHP pushes the flags with bits 5 and 4 set; PLP takes six flags from the pulled byte, clears B and sets U.
Bits 4 and 5 are decisions D6 and D7. -/
def Obligations.StatusStackResult : Prop :=
  CompletesInside .php 0x08 3 (fun s =>
    { s.set (s.config.stackBase + s.sp.setWidth 16) (s.flags.image true true) with sp := s.sp - 1 }) ∧
  CompletesInside .plp 0x28 4 (fun s =>
    let m := s.get (s.config.stackBase + (s.sp + 1).setWidth 16)
    { m.2 with
      sp := s.sp + 1
      flags := { c := m.1.getLsbD 0, z := m.1.getLsbD 1, i := m.1.getLsbD 2, d := m.1.getLsbD 3, b := false, u := true,
                 v := m.1.getLsbD 6, n := m.1.getLsbD 7 } })

/-- R130, R131: ADC in every form and every mode. With D = 0, and with D = 1 under `binary`, the binary sum; with D = 1
under `nmos_bcd`, the digit-wise algorithm, Z of the binary sum, N and V of the sum before the high-digit correction. -/
def Obligations.AdcResult : Prop :=
  CompletesReading .adc adcRows (fun s => s.flags.d = false ∨ s.config.decimalMode = .binary)
    (fun m s u =>
      let t := s.a.toNat + m.toNat + s.flags.c.toNat
      let r := BitVec.ofNat 8 t
      { u with
        a := r
        flags := { s.flags.withZN r with c := decide (0xFF < t), v := ((s.a ^^^ r) &&& (m ^^^ r)).getLsbD 7 } }) ∧
  CompletesReading .adc adcRows (fun s => s.flags.d = true ∧ s.config.decimalMode = .nmosBcd)
    (fun m s u =>
      let al0 := s.a.toNat % 16 + m.toNat % 16 + s.flags.c.toNat
      let al := if 0x0A ≤ al0 then (al0 + 6) % 16 + 16 else al0
      let t := s.a.toNat / 16 * 16 + m.toNat / 16 * 16 + al
      let r := if 0xA0 ≤ t then t + 0x60 else t
      { u with
        a := BitVec.ofNat 8 r
        flags :=
          { s.flags with
            z := decide ((s.a.toNat + m.toNat + s.flags.c.toNat) % 256 = 0)
            n := (BitVec.ofNat 8 t).getLsbD 7
            v := ((s.a ^^^ BitVec.ofNat 8 t) &&& (m ^^^ BitVec.ofNat 8 t)).getLsbD 7
            c := decide (0x100 ≤ r) } })

/-- R132, R133: SBC in every form and every mode. The flags are always those of the binary subtraction; with D = 1 under
`nmos_bcd` the value written to A is that of the digit-wise algorithm. -/
def Obligations.SbcResult : Prop :=
  CompletesReading .sbc sbcRows (fun s => s.flags.d = false ∨ s.config.decimalMode = .binary)
    (fun m s u =>
      let t := s.a.toNat + (255 - m.toNat) + s.flags.c.toNat
      let r := BitVec.ofNat 8 t
      { u with
        a := r
        flags := { s.flags.withZN r with c := decide (0xFF < t), v := ((s.a ^^^ m) &&& (s.a ^^^ r)).getLsbD 7 } }) ∧
  CompletesReading .sbc sbcRows (fun s => s.flags.d = true ∧ s.config.decimalMode = .nmosBcd)
    (fun m s u =>
      let t := s.a.toNat + (255 - m.toNat) + s.flags.c.toNat
      let r := BitVec.ofNat 8 t
      let al0 : Int := (s.a.toNat % 16 : Nat) - (m.toNat % 16 : Nat) + (s.flags.c.toNat : Nat) - 1
      let al : Int := if al0 < 0 then (al0 - 6) % 16 - 16 else al0
      let w0 : Int := (s.a.toNat / 16 * 16 : Nat) - (m.toNat / 16 * 16 : Nat) + al
      let w : Int := if w0 < 0 then w0 - 0x60 else w0
      { u with
        a := BitVec.ofInt 8 w
        flags := { s.flags.withZN r with c := decide (0xFF < t), v := ((s.a ^^^ m) &&& (s.a ^^^ r)).getLsbD 7 } })

/-- R134 to R136: a compare, in each form, writes C (register at least the operand, unsigned), Z (equal) and N (bit 7 of
the difference) and no register. -/
def Obligations.CompareResult : Prop :=
  (let flags (r m : Byte) (f : Flags) : Flags :=
    { f with c := decide (m.toNat ≤ r.toNat), z := decide (r = m), n := (r - m).getLsbD 7 }
   CompletesReading .cmp cmpRows (fun _ => True) (fun m s u => { u with flags := flags s.a m s.flags }) ∧
   CompletesReading .cpx cpxRows (fun _ => True) (fun m s u => { u with flags := flags s.x m s.flags }) ∧
   CompletesReading .cpy cpyRows (fun _ => True) (fun m s u => { u with flags := flags s.y m s.flags }))

/-- R137, R140: INC and DEC, in each form: one read and one write of the effective address, Z and N from the new value, C
and V unchanged. -/
def Obligations.MemoryStepResult : Prop :=
  CompletesModifying .inc incRows (fun v _ => v + 1) (fun v f => f.withZN (v + 1)) ∧
  CompletesModifying .dec decRows (fun v _ => v - 1) (fun v f => f.withZN (v - 1))

/-- R150 to R152: AND, ORA, EOR in each form. -/
def Obligations.LogicResult : Prop :=
  CompletesReading .and andRows (fun _ => True)
    (fun m s u => { u with a := s.a &&& m, flags := s.flags.withZN (s.a &&& m) }) ∧
  CompletesReading .ora oraRows (fun _ => True)
    (fun m s u => { u with a := s.a ||| m, flags := s.flags.withZN (s.a ||| m) }) ∧
  CompletesReading .eor eorRows (fun _ => True)
    (fun m s u => { u with a := s.a ^^^ m, flags := s.flags.withZN (s.a ^^^ m) })

/-- R153: BIT sets Z from the and, copies bits 7 and 6 of the operand to N and V, and writes no register. -/
def Obligations.BitResult : Prop :=
  CompletesReading .bit bitRows (fun _ => True)
    (fun m s u => { u with flags := { s.flags with z := decide (s.a &&& m = 0), v := m.getLsbD 6, n := m.getLsbD 7 } })

/-- R154 to R157: the shifts and rotates on A and, in each form, on memory. -/
def Obligations.ShiftResult : Prop :=
  (let meets (mk : Operand → Instr) (op : Byte) (rows : List Row) (value : Byte → Bool → Byte) (out : Nat) : Prop :=
    CompletesOnAccumulator mk op value (fun v f => { f.withZN (value v f.c) with c := v.getLsbD out }) ∧
    CompletesModifying mk rows value (fun v f => { f.withZN (value v f.c) with c := v.getLsbD out })
   meets .asl 0x0A aslRows (fun v _ => v <<< 1) 7 ∧
   meets .lsr 0x4A lsrRows (fun v _ => v >>> 1) 0 ∧
   meets .rol 0x2A rolRows (fun v c => BitVec.ofNat 8 (2 * v.toNat + c.toNat)) 7 ∧
   meets .ror 0x6A rorRows (fun v c => BitVec.ofNat 8 (v.toNat / 2 + 128 * c.toNat)) 0)

/-- R170: JMP in both forms; the indirect form takes the target's high byte from the pointer's own page (D9). -/
def Obligations.JumpResult : Prop :=
  TakesCycles 0x4C 3 false ∧ TakesCycles 0x6C 5 false ∧
  (∀ (lo hi : Byte) (s : State),
    decodeOp 0x4C lo hi = .jmp (.absolute (hi ++ lo)) ∧
    exec (.jmp (.absolute (hi ++ lo))) s =
      .next { s with pc := hi ++ lo, cycles := s.cycles + s.cost 0x4C (.absolute (hi ++ lo)) }) ∧
  (∀ (lo hi : Byte) (s : State),
    decodeOp 0x6C lo hi = .jmp (.indirect (hi ++ lo)) ∧
    (let l := s.get (hi ++ lo)
     let h := l.2.get (hi ++ (lo + 1))
     exec (.jmp (.indirect (hi ++ lo))) s =
       .next { h.2 with pc := h.1 ++ l.1, cycles := s.cycles + s.cost 0x6C (.indirect (hi ++ lo)) }))

/-- R171, R172: JSR pushes the address of its own last byte, high byte first, and jumps; RTS pulls a word, low byte first,
and adds one. `STACK_BASE` is decision D5. -/
def Obligations.CallReturnResult : Prop :=
  TakesCycles 0x20 6 false ∧ TakesCycles 0x60 6 false ∧
  (∀ (lo hi : Byte) (s : State),
    decodeOp 0x20 lo hi = .jsr (hi ++ lo) ∧
    exec (.jsr (hi ++ lo)) s =
      .next { (s.set (s.config.stackBase + s.sp.setWidth 16) ((s.pc + 2).extractLsb' 8 8)).set
                (s.config.stackBase + (s.sp - 1).setWidth 16) ((s.pc + 2).extractLsb' 0 8) with
              sp := s.sp - 2, pc := hi ++ lo, cycles := s.cycles + s.cost 0x20 (.absolute (hi ++ lo)) }) ∧
  (∀ (b1 b2 : Byte) (s : State),
    decodeOp 0x60 b1 b2 = .rts ∧
    (let l := s.get (s.config.stackBase + (s.sp + 1).setWidth 16)
     let h := l.2.get (s.config.stackBase + (s.sp + 2).setWidth 16)
     exec .rts s =
       .next { h.2 with sp := s.sp + 2, pc := (h.1 ++ l.1) + 1, cycles := s.cycles + s.cost 0x60 .implied }))

/-- R173 to R181: each conditional branch, taken and not. The page that the second extra cycle refers to
is decision D11. -/
def Obligations.BranchResult : Prop :=
  CompletesBranching .bcc 0x90 (fun f => !f.c) ∧
  CompletesBranching .bcs 0xB0 (fun f => f.c) ∧
  CompletesBranching .beq 0xF0 (fun f => f.z) ∧
  CompletesBranching .bmi 0x30 (fun f => f.n) ∧
  CompletesBranching .bne 0xD0 (fun f => !f.z) ∧
  CompletesBranching .bpl 0x10 (fun f => !f.n) ∧
  CompletesBranching .bvc 0x50 (fun f => !f.v) ∧
  CompletesBranching .bvs 0x70 (fun f => f.v)

/-- R190, R194, R197, and the effects R191 to R193, R195 and R196 give: each flag instruction writes its one flag, NOP
nothing; beside that `PC` advances by 1 and `cycles` by the opcode's column, 2 as reset (decision D16, log 15). -/
def Obligations.FlagInstructionResult : Prop :=
  CompletesInside .clc 0x18 2 (fun s => { s with flags := { s.flags with c := false } }) ∧
  CompletesInside .cld 0xD8 2 (fun s => { s with flags := { s.flags with d := false } }) ∧
  CompletesInside .cli 0x58 2 (fun s => { s with flags := { s.flags with i := false } }) ∧
  CompletesInside .clv 0xB8 2 (fun s => { s with flags := { s.flags with v := false } }) ∧
  CompletesInside .sec 0x38 2 (fun s => { s with flags := { s.flags with c := true } }) ∧
  CompletesInside .sed 0xF8 2 (fun s => { s with flags := { s.flags with d := true } }) ∧
  CompletesInside .sei 0x78 2 (fun s => { s with flags := { s.flags with i := true } }) ∧
  CompletesInside .nop 0xEA 2 (fun s => s)

/-- R198, R224, R225: BRK pushes `PC0 + 2`, high byte first, then the flags with bits 5 and 4 set, sets I, loads `PC` from
`IRQ_VECTOR`, low byte first. Size 2, the values of `IRQ_VECTOR` and `STACK_BASE`, and bits 4 and 5 are decisions D17, D4,
D5, D6. -/
def Obligations.BreakResult : Prop :=
  TakesCycles 0x00 7 false ∧ ∀ (b1 b2 : Byte) (s : State),
    decodeOp 0x00 b1 b2 = .brk ∧
    (let ret := s.pc + 2
     let p1 := s.set (s.config.stackBase + s.sp.setWidth 16) (ret.extractLsb' 8 8)
     let p2 := p1.set (s.config.stackBase + (s.sp - 1).setWidth 16) (ret.extractLsb' 0 8)
     let p3 := p2.set (s.config.stackBase + (s.sp - 2).setWidth 16) (s.flags.image true true)
     let lo := p3.get s.config.irqVector
     let hi := lo.2.get (s.config.irqVector + 1)
     exec .brk s =
       .next { hi.2 with
               sp := s.sp - 3
               pc := hi.1 ++ lo.1
               flags := { s.flags with i := true }
               cycles := s.cycles + s.cost 0x00 .implied })

/-- R199, R227: RTI pulls the flags (B cleared, U set: decision D7), then `PC`, low byte first, and adds nothing. -/
def Obligations.ReturnFromInterruptResult : Prop :=
  TakesCycles 0x40 6 false ∧ ∀ (b1 b2 : Byte) (s : State),
    decodeOp 0x40 b1 b2 = .rti ∧
    (let p := s.get (s.config.stackBase + (s.sp + 1).setWidth 16)
     let l := p.2.get (s.config.stackBase + (s.sp + 2).setWidth 16)
     let h := l.2.get (s.config.stackBase + (s.sp + 3).setWidth 16)
     exec .rti s =
       .next { h.2 with
               sp := s.sp + 3
               pc := h.1 ++ l.1
               cycles := s.cycles + s.cost 0x40 .implied
               flags := { c := p.1.getLsbD 0, z := p.1.getLsbD 1, i := p.1.getLsbD 2, d := p.1.getLsbD 3, b := false,
                          u := true, v := p.1.getLsbD 6, n := p.1.getLsbD 7 } })

/-- R210: an undocumented opcode completes for every value of its four parameters: `PC` advances by the size, `cycles` by
the cost, no register, flag or memory byte is written. Its mode column reads no byte, the one byte after the opcode, or
the two, low byte first, and then the pointer. The columns are parameters, and an immediate operand is read by a handler
only, so not here (log 7). -/
def Obligations.UndocumentedResult : Prop :=
  ∀ (op b1 b2 : Byte) (s : State), isUndocumented op = true →
    decodeOp op b1 b2 = .ill op ∧
    (let c := illegalColumns s.config op
     let r := (s.fetchOperand c.mode).2.resolve (s.fetchOperand c.mode).1
     exec (.ill op) s =
       .next { s with
               pc := s.pc + BitVec.ofNat 16 c.size
               cycles := s.cycles + c.cycles + (if r.1.crossed ∧ c.pageCycle = true then 1 else 0)
               dev := r.2.dev }) ∧
    (let d8 := s.get (s.pc + 1)
     let hi := d8.2.get (s.pc + 2)
     s.fetchOperand .implied = (.implied, s) ∧ s.fetchOperand .accumulator = (.accumulator, s) ∧
     s.fetchOperand .immediate = (.immediate 0, s) ∧
     s.fetchOperand .zeroPage = (.zeroPage d8.1, d8.2) ∧ s.fetchOperand .zeroPageX = (.zeroPageX d8.1, d8.2) ∧
     s.fetchOperand .zeroPageY = (.zeroPageY d8.1, d8.2) ∧ s.fetchOperand .relative = (.relative d8.1, d8.2) ∧
     s.fetchOperand .indexedIndirect = (.indexedIndirect d8.1, d8.2) ∧
     s.fetchOperand .indirectIndexed = (.indirectIndexed d8.1, d8.2) ∧
     s.fetchOperand .absolute = (.absolute (hi.1 ++ d8.1), hi.2) ∧
     s.fetchOperand .absoluteX = (.absoluteX (hi.1 ++ d8.1), hi.2) ∧
     s.fetchOperand .absoluteY = (.absoluteY (hi.1 ++ d8.1), hi.2) ∧
     s.fetchOperand .indirect = (.indirect (hi.1 ++ d8.1), hi.2))

/-! ### What the results mean -/

/-- R130, R132: V of the binary sum and difference is signed overflow, C of the difference is "no borrow". -/
def Obligations.SignedOverflow : Prop :=
  (∀ (a m : Byte) (f : Flags),
    (adcBinary a m f).flags.v =
      decide (a.toInt + m.toInt + f.c.toNat < -128 ∨ 127 < a.toInt + m.toInt + f.c.toNat)) ∧
  (∀ (a m : Byte) (f : Flags),
    (sbcBinary a m f).flags.v =
      decide (a.toInt - m.toInt - (1 - f.c.toNat) < -128 ∨ 127 < a.toInt - m.toInt - (1 - f.c.toNat))) ∧
  (∀ (a m : Byte) (f : Flags),
    (sbcBinary a m f).flags.c = decide (m.toNat + (1 - f.c.toNat) ≤ a.toNat))

/-- R131, R133: on valid packed-BCD operands the `nmos_bcd` ADC and SBC give the decimal sum and difference modulo 100, C
the decimal carry or the absence of a decimal borrow. -/
def Obligations.BcdArithmetic : Prop :=
  (∀ (x y : Nat) (f : Flags), x < 100 → y < 100 →
    (adcBcd (bcd x) (bcd y) f).value = bcd ((x + y + f.c.toNat) % 100) ∧
    (adcBcd (bcd x) (bcd y) f).flags.c = decide (100 ≤ x + y + f.c.toNat)) ∧
  (∀ (x y : Nat) (f : Flags), x < 100 → y < 100 → f.d = true →
    (sbcResult .nmosBcd (bcd x) (bcd y) f).value = bcd ((x + 99 + f.c.toNat - y) % 100) ∧
    (sbcResult .nmosBcd (bcd x) (bcd y) f).flags.c = decide (y + (1 - f.c.toNat) ≤ x))

/-- R120 to R123, R171, R172, R198, R199: with RAM under the stack, PLA undoes PHA, PLP undoes PHP, RTS returns behind
JSR, RTI returns two bytes behind BRK with the flags as they were (B cleared, U set). -/
def Obligations.StackRoundTrips : Prop :=
  (∀ s : State, IsRam s.config (stackAddr s.config s.sp) →
    ∃ t u, exec .pha s = .next t ∧ exec .pla t = .next u ∧ u.a = s.a ∧ u.sp = s.sp) ∧
  (∀ s : State, IsRam s.config (stackAddr s.config s.sp) →
    ∃ t u, exec .php s = .next t ∧ exec .plp t = .next u ∧ u.sp = s.sp ∧
      u.flags = { s.flags with b := false, u := true }) ∧
  (∀ (s : State) (a16 : Addr), IsRam s.config (stackAddr s.config s.sp) → IsRam s.config (stackAddr s.config (s.sp - 1)) →
    ∃ t u, exec (.jsr a16) s = .next t ∧ exec .rts t = .next u ∧ u.sp = s.sp ∧ u.pc = s.pc + 3) ∧
  (∀ s : State, IsRam s.config (stackAddr s.config s.sp) → IsRam s.config (stackAddr s.config (s.sp - 1)) →
    IsRam s.config (stackAddr s.config (s.sp - 2)) →
    ∃ t u, exec .brk s = .next t ∧ exec .rti t = .next u ∧ u.sp = s.sp ∧ u.pc = s.pc + 2 ∧
      u.flags = { s.flags with b := false, u := true })

/-! ### Frames, over all instructions -/

/-- R10, R13: no instruction writes A, X, Y or SP but those listed; interrupt entry writes SP alone of them, `reset()`
likewise. -/
def Obligations.FrameRegisters : Prop :=
  (∀ (i : Instr) (s t : State), i.wf = true → exec i s = .next t →
    (i.writesA = false → t.a = s.a) ∧ (i.writesX = false → t.x = s.x) ∧ (i.writesY = false → t.y = s.y) ∧
    (i.writesSp = false → t.sp = s.sp)) ∧
  (∀ (s : State) (vector : Addr) (brk : Bool),
    (s.interrupt vector brk).a = s.a ∧ (s.interrupt vector brk).x = s.x ∧ (s.interrupt vector brk).y = s.y ∧
    (s.interrupt vector brk).sp = s.sp - 3) ∧
  (∀ s : State, s.hostReset.a = s.a ∧ s.hostReset.x = s.x ∧ s.hostReset.y = s.y)

/-- R15: no instruction writes a flag but those the table lists; B and U are written by PLP and RTI only; interrupt entry
writes I alone. -/
def Obligations.FrameFlags : Prop :=
  (∀ (i : Instr) (s t : State), i.wf = true → exec i s = .next t →
    (i.writesC = false → t.flags.c = s.flags.c) ∧ (i.writesZN = false → t.flags.z = s.flags.z ∧ t.flags.n = s.flags.n) ∧
    (i.writesI = false → t.flags.i = s.flags.i) ∧ (i.writesD = false → t.flags.d = s.flags.d) ∧
    (i.writesV = false → t.flags.v = s.flags.v) ∧
    (i.pullsFlags = false → t.flags.b = s.flags.b ∧ t.flags.u = s.flags.u)) ∧
  (∀ (s : State) (vector : Addr) (brk : Bool), (s.interrupt vector brk).flags = { s.flags with i := true })

/-- R49: no instruction changes a byte of memory but at the addresses it stores to: the effective address of a store or
read-modify-write, the stack bytes of a push. An undocumented opcode stores nothing. -/
def Obligations.FrameMemory : Prop :=
  ∀ (i : Instr) (s t : State) (a : Addr), i.wf = true → exec i s = .next t → a ∉ s.storedAddresses i →
    t.byteAt a = s.byteAt a

/-- R16, R17, R27, R48: no instruction touches the pending tag, the stall counter, the started mark, the cycle budget or
the parameters; one whose accesses all lie outside the chipset window changes no device. -/
def Obligations.FrameRest : Prop :=
  ∀ (i : Instr) (s t : State), i.wf = true → exec i s = .next t →
    t.pending = s.pending ∧ t.stall = s.stall ∧ t.started = s.started ∧ t.budget = s.budget ∧ t.config = s.config ∧
    ((∀ a ∈ s.accessed i, Quiet s.config a) → t.dev = s.dev)

/-- R11, R73: every official instruction that does not transfer control advances `PC` by its length, modulo 65536. -/
def Obligations.SequentialPc : Prop :=
  ∀ (i : Instr) (s t : State), i.wf = true → i.transfersControl = false → i.isIll = false → exec i s = .next t →
    t.pc.toNat = (s.pc.toNat + (encode i).length) % 65536

/-! ### Addressing -/

/-- R77 to R83, R88: the effective address of the modes that read no pointer, as numbers, and whether a page is crossed;
resolving them reads nothing. The reference page is decision D10, the wrap at 65536 decision D15. -/
def Obligations.EffectiveAddresses : Prop :=
  ∀ (s : State) (d8 : Byte) (a16 : Addr),
    (s.resolve (.immediate d8) = (⟨s.pc + 1, false⟩, s)) ∧
    (∃ e, s.resolve (.zeroPage d8) = (⟨e, false⟩, s) ∧ e.toNat = d8.toNat) ∧
    (∃ e, s.resolve (.zeroPageX d8) = (⟨e, false⟩, s) ∧ e.toNat = (d8.toNat + s.x.toNat) % 256) ∧
    (∃ e, s.resolve (.zeroPageY d8) = (⟨e, false⟩, s) ∧ e.toNat = (d8.toNat + s.y.toNat) % 256) ∧
    (s.resolve (.absolute a16) = (⟨a16, false⟩, s)) ∧
    (∃ e, s.resolve (.absoluteX a16) = (⟨e, decide (a16.toNat / 256 ≠ e.toNat / 256)⟩, s) ∧
      e.toNat = (a16.toNat + s.x.toNat) % 65536) ∧
    (∃ e, s.resolve (.absoluteY a16) = (⟨e, decide (a16.toNat / 256 ≠ e.toNat / 256)⟩, s) ∧
      e.toNat = (a16.toNat + s.y.toNat) % 65536) ∧
    (∃ e, s.resolve (.relative d8) = (⟨e, false⟩, s) ∧
      (e.toNat : Int) = (s.pc.toNat + 2 + (if d8.toNat < 128 then (d8.toNat : Int) else d8.toNat - 256)) % 65536)

/-- R7, R43, R45, R84 to R87: words and pointers are read low byte first, each byte one access, a word's second byte at
the next address modulo 65536, a pointer's from the same page; the indirect modes use the pointer read. That all three of
them wrap is decision D9, the wrap at 65536 decision D15. -/
def Obligations.PointerFetch : Prop :=
  (∀ (s : State) (a b : Addr), b.toNat = (a.toNat + 1) % 65536 →
    (s.read16 a).1.toNat = (s.get a).1.toNat + 256 * ((s.get a).2.get b).1.toNat ∧
    (s.read16 a).2 = ((s.get a).2.get b).2) ∧
  (∀ (s : State) (a b : Addr), b.toNat = a.toNat / 256 * 256 + (a.toNat + 1) % 256 →
    (s.read16Wrap a).1.toNat = (s.get a).1.toNat + 256 * ((s.get a).2.get b).1.toNat ∧
    (s.read16Wrap a).2 = ((s.get a).2.get b).2) ∧
  (∀ (s : State) (a16 : Addr),
    s.resolve (.indirect a16) = (⟨(s.read16Wrap a16).1, false⟩, (s.read16Wrap a16).2)) ∧
  (∀ (s : State) (d8 : Byte) (p : Addr), p.toNat = (d8.toNat + s.x.toNat) % 256 →
    s.resolve (.indexedIndirect d8) = (⟨(s.read16Wrap p).1, false⟩, (s.read16Wrap p).2)) ∧
  (∀ (s : State) (d8 : Byte) (p : Addr), p.toNat = d8.toNat →
    ∃ e, s.resolve (.indirectIndexed d8) =
        (⟨e, decide ((s.read16Wrap p).1.toNat / 256 ≠ e.toNat / 256)⟩, (s.read16Wrap p).2) ∧
      e.toNat = ((s.read16Wrap p).1.toNat + s.y.toNat) % 65536)

/-! ### Memory -/

/-- R40, R46, R47, R48, R251: where an address lies and what `get` and `set` do by place. The 0x50 bytes from `IO_BASE`
are the window; outside it an address has the kind of the first region of the map that holds it, or is unmapped (log 49).
Outside the chipset window a read returns the byte held (RAM, ROM, video) or 0 and changes nothing; a write to ROM, the
storage range or an unmapped address changes nothing; the window reads and writes the Chipset's register at `a - IO_BASE`.
Video as RAM and the empty storage range are decision D20 (log 41, 42). -/
def Obligations.MemoryRegions : Prop :=
  ∀ (s : State) (a : Addr) (v : Byte),
    (let holds (r : Region) : Prop := r.base ≤ a.toNat ∧ a.toNat < r.base + r.size
     (s.config.ioBase.toNat ≤ a.toNat ∧ a.toNat < s.config.ioBase.toNat + 0x50 →
       locate s.config a = .window (a.toNat - s.config.ioBase.toNat)) ∧
     (¬ (s.config.ioBase.toNat ≤ a.toNat ∧ a.toNat < s.config.ioBase.toNat + 0x50) →
       (∀ (before after : List Region) (r : Region), s.config.regions = before ++ r :: after →
         (∀ q ∈ before, ¬ holds q) → holds r → locate s.config a = .region r.kind) ∧
       ((∀ r ∈ s.config.regions, ¬ holds r) → locate s.config a = .unmapped))) ∧
    (Quiet s.config a → (s.get a).2 = s ∧ (s.set a v).dev = s.dev) ∧
    (locate s.config a = .region .ram ∨ locate s.config a = .region .video → (s.get a).1 = s.byteAt a) ∧
    (locate s.config a = .region .rom → (s.get a).1 = s.byteAt a ∧ s.set a v = s) ∧
    (locate s.config a = .region .storage ∨ locate s.config a = .unmapped → (s.get a).1 = 0 ∧ s.set a v = s) ∧
    (∀ offset, locate s.config a = .window offset →
      offset < 0x50 ∧ a.toNat = s.config.ioBase.toNat + offset ∧
      s.get a = ((s.dev.read s.config offset).1, { s with dev := (s.dev.read s.config offset).2 }) ∧
      s.set a v = { s with dev := s.dev.write s.config offset v })

/-- R47, R50: in RAM or video memory a read returns the last byte written, and a write leaves every other byte as it was,
and every register and device. -/
def Obligations.ReadAfterWrite : Prop :=
  ∀ (s : State) (a : Addr) (v : Byte), locate s.config a = .region .ram ∨ locate s.config a = .region .video →
    ((s.set a v).get a).1 = v ∧ (∀ b, b ≠ a → (s.set a v).byteAt b = s.byteAt b) ∧
    s.set a v = { s with mem := (s.set a v).mem }

/-! ### The step, interrupts and the host -/

/-- R220: when the bytes at `PC`, outside the chipset window, decode to a well-formed instruction, the machine has been
reset or started, and there is no stall and nothing pending, the step runs it; then the loop accounts for its cycles
(R250). -/
def Obligations.StepRunsDecoded : Prop :=
  ∀ (s : State) (i : Instr) (rest : List Byte), s.started = true → s.stall = 0 → s.pending = .none →
    Quiet s.config s.pc → Quiet s.config (s.pc + 1) → Quiet s.config (s.pc + 2) →
    decode [s.peek s.pc, s.peek (s.pc + 1), s.peek (s.pc + 2)] = .instr i rest → i.wf = true →
    ∃ t, exec i s = .next t ∧ step s = .next (t.elapse (t.cycles - s.cycles))

/-- R220, R223: on a machine that has been reset or started, a stalled step burns one cycle and does nothing else; an
unstalled one first services the pending interrupt (NMI through `NMI_VECTOR`, IRQ through `IRQ_VECTOR`, 7 cycles), then
runs the one instruction it fetches, and ends with nothing pending. The vectors, bit 4 and the counted idle cycle are
decisions D4, D6, D18. Fetching reads at `PC`, then, for an instruction of two or three bytes, at `PC + 1` and `PC + 2`;
these bytes are the instruction's encoding. The emulation loop's round is that step, and the accounting of the cycles it
consumed (R250). The host sets the stall (R17, decision D18). -/
def Obligations.StepOrder : Prop :=
  (∀ s : State, s.started = true → 0 < s.stall → cpuStep s = .next { s with stall := s.stall - 1, cycles := s.cycles + 1 }) ∧
  (∀ s : State, s.started = true → s.stall = 0 →
    ∃ t, exec s.service.fetch.1 s.service.fetch.2 = .next t ∧ cpuStep s = .next t ∧ t.pending = .none) ∧
  (∀ s : State, s.pending = .none → s.service = s) ∧
  (∀ s : State, s.pending = .nmi →
    s.service = { s.interrupt s.config.nmiVector s.config.irqPushedB with pending := .none, cycles := s.cycles + 7 }) ∧
  (∀ s : State, s.pending = .irq →
    s.service = { s.interrupt s.config.irqVector s.config.irqPushedB with pending := .none, cycles := s.cycles + 7 }) ∧
  (∀ s : State, s.fetch.1.opcode = some (s.peek s.pc) ∧ ∃ d, s.fetch.2 = { s with dev := d }) ∧
  (∀ s : State,
    let op := s.get s.pc
    let b1 := op.2.get (s.pc + 1)
    let b2 := b1.2.get (s.pc + 2)
    s.fetch.1.wf = true ∧
    ((encode s.fetch.1 = [op.1] ∧ s.fetch.2 = op.2) ∨
     (encode s.fetch.1 = [op.1, b1.1] ∧ s.fetch.2 = b1.2) ∨
     (encode s.fetch.1 = [op.1, b1.1, b2.1] ∧ s.fetch.2 = b2.2))) ∧
  (∀ s t : State, cpuStep s = .next t → step s = .next (t.elapse (t.cycles - s.cycles))) ∧
  (∀ (s : State) (n : Nat), s.setStall n = { s with stall := n })

/-- R224, R225: trap entry pushes `PC`, high byte first, then the flags with U set and B as the event says, sets I, loads
`PC` from the vector, and changes nothing else. The push order and the stack page are decision D5, bits 4 and 5 D6. -/
def Obligations.InterruptEntry : Prop :=
  ∀ (s : State) (vector : Addr) (brk : Bool),
    let p1 := s.set (s.config.stackBase + s.sp.setWidth 16) (s.pc.extractLsb' 8 8)
    let p2 := p1.set (s.config.stackBase + (s.sp - 1).setWidth 16) (s.pc.extractLsb' 0 8)
    let p3 := p2.set (s.config.stackBase + (s.sp - 2).setWidth 16) (s.flags.image true brk)
    let lo := p3.get vector
    let hi := lo.2.get (vector + 1)
    s.interrupt vector brk =
      { hi.2 with sp := s.sp - 3, pc := hi.1 ++ lo.1, flags := { s.flags with i := true } }

/-- R221, R222, R228: `trigger_nmi()` latches NMI whatever was latched; `trigger_irq()` latches IRQ unless I is set or an
NMI is latched, and is dropped otherwise; in either order of the two calls NMI stays. The replacement policy is D8. -/
def Obligations.InterruptLatches : Prop :=
  ∀ s : State,
    s.triggerNmi = { s with pending := .nmi } ∧
    (s.flags.i = true → s.triggerIrq = s) ∧
    (s.pending = .nmi → s.triggerIrq = s) ∧
    (s.flags.i = false → s.pending ≠ .nmi → s.triggerIrq = { s with pending := .irq }) ∧
    s.triggerIrq.triggerNmi.pending = .nmi ∧ s.triggerNmi.triggerIrq.pending = .nmi

/-- R6, R26, R340 to R342: `reset()` loads `PC` from 0xFFFC, low byte first, SP and the flags with their fixed values and
nothing else but the mark that the machine may step; `start_at` the same without the fetch; creation takes A, X and Y from
their parameters; and what the state right after creation and `reset()` holds, whatever `PC`, SP and the flags were in
between. Between creation and the first `reset()` or `start_at()` a step is refused (log 54). The values 0xFD, 0x24, the
vectors, the stack page and those at creation are decisions D1 to D5 (log 4, 11, 40); that `reset()` of the reset state is
that state rests on memory nothing has written reading 0x00 (log 1), the budget's 0 is log 9, the sentinels' numbers are
log 50. -/
def Obligations.ResetAndStart : Prop :=
  (∀ s : State,
    let lo := s.get 0xFFFC
    let hi := lo.2.get 0xFFFD
    s.hostReset =
      { hi.2 with
        pc := hi.1 ++ lo.1, sp := s.config.resetSp, flags := Flags.ofByte s.config.resetP, started := true }) ∧
  (∀ p : Byte,
    Flags.ofByte p =
      { c := p.getLsbD 0, z := p.getLsbD 1, i := p.getLsbD 2, d := p.getLsbD 3, b := p.getLsbD 4, u := p.getLsbD 5
        v := p.getLsbD 6, n := p.getLsbD 7 }) ∧
  (∀ (s : State) (a : Addr),
    s.startAt a =
      { s with pc := a, sp := s.config.resetSp, flags := Flags.ofByte s.config.resetP, started := true }) ∧
  (∀ (cfg : Config) (pc : Addr) (sp : Byte) (flags : Flags),
    let s := State.create cfg pc sp flags
    s.a = cfg.initA ∧ s.x = cfg.initX ∧ s.y = cfg.initY ∧ s.config = cfg ∧ s.pending = .none ∧ s.stall = 0 ∧ s.cycles = 0 ∧
    s.started = false ∧ step s = .refused .notReset) ∧
  (∀ (pc : Addr) (sp : Byte) (flags : Flags), (State.create State.reset.config pc sp flags).hostReset = State.reset) ∧
  State.reset.hostReset = State.reset ∧ State.reset.started = true ∧ State.reset.budget = 0 ∧
  State.reset.config.nmiVector = 0xFFFA ∧ State.reset.config.irqVector = 0xFFFE ∧ State.reset.config.stackBase = 0x0100 ∧
  45 < State.reset.config.noSlot ∧ 45 < State.reset.config.notFound ∧
  State.reset.sp = 0xFD ∧ State.reset.flags.image State.reset.flags.u State.reset.flags.b = 0x24 ∧
  State.reset.pending = .none ∧ State.reset.stall = 0 ∧ State.reset.cycles = 0 ∧
  State.reset.dev.bus.tag = .idle ∧ (∀ l, State.reset.dev.bus.line l = LineHalves.released) ∧
  State.reset.dev.bus.offset = 0 ∧ State.reset.dev.bus.legacy = false ∧
  State.reset.dev.store.dirValid = false ∧ State.reset.dev.store.valid = false ∧ State.reset.dev.store.dirty = false

/-- R231, R250, R266: cycles that do not fill a tick are kept; a tick is made for every `TICK_CYCLES` the budget then
holds; a tick whose result is true is followed by `trigger_irq()`; no tick touches a register, a flag or memory. That the
remainder is kept, that several ticks follow one step, and that none is made with `TICK_CYCLES` = 0 are log 9. -/
def Obligations.EmulationLoop : Prop :=
  (∀ (s : State) (n : Nat), s.budget + n < s.config.tickCycles → s.elapse n = { s with budget := s.budget + n }) ∧
  (∀ (s : State) (n : Nat), s.config.tickCycles ≤ s.budget + n → s.budget + n < 2 * s.config.tickCycles →
    s.elapse n = { s with budget := s.budget + n - s.config.tickCycles }.tick) ∧
  (∀ (s : State) (n k : Nat), k * s.config.tickCycles ≤ s.budget + n → s.budget + n < (k + 1) * s.config.tickCycles →
    s.elapse n = State.ticks k { s with budget := s.budget + n - k * s.config.tickCycles }) ∧
  (∀ (s : State) (k : Nat), State.ticks 0 s = s ∧ State.ticks (k + 1) s = State.ticks k s.tick) ∧
  (∀ (s : State) (n : Nat), s.config.tickCycles = 0 → s.elapse n = { s with budget := s.budget + n }) ∧
  (∀ s : State, (s.dev.tick s.config).1 = true → s.tick = { s with dev := (s.dev.tick s.config).2 }.triggerIrq) ∧
  (∀ s : State, (s.dev.tick s.config).1 = false → s.tick = { s with dev := (s.dev.tick s.config).2 }) ∧
  (∀ (s : State) (n : Nat),
    ∃ p d b, s.elapse n = { s with pending := p, dev := d, budget := b } ∧
      (0 < s.config.tickCycles → b < s.config.tickCycles))

/-- R226, R342: there is no fault path: every step of a machine that has been reset or started answers a next state, from
which it may step again. A step before that is refused, as R342 asks of a model (log 54). -/
def Obligations.StepNeverStops : Prop :=
  (∀ s : State, s.started = true → ∃ t, step s = .next t ∧ t.started = true) ∧
  (∀ s : State, s.started = true → ∃ t, core.step s = .next t) ∧
  (∀ s : State, s.started = false → step s = .refused .notReset)

/-- R18, R352: `cycles` only grows; a stalled step costs 1; an official instruction costs 2 to 7, and 7 more if an
interrupt is serviced first, while the cycle columns of the official opcodes are those of the reset state, which no step
changes (RomNeverChanges). The base costs are decision D16 (log 15). -/
def Obligations.StepCost : Prop :=
  ∀ s t : State, step s = .next t →
    s.cycles ≤ t.cycles ∧
    (0 < s.stall → t.cycles = s.cycles + 1) ∧
    (s.config.official = State.reset.config.official → s.stall = 0 → s.begin.1.isIll = false →
      (s.pending = .none → s.cycles + 2 ≤ t.cycles ∧ t.cycles ≤ s.cycles + 7) ∧
      (s.pending ≠ .none → s.cycles + 9 ≤ t.cycles ∧ t.cycles ≤ s.cycles + 14))

/-! ### Invariants that every step keeps -/

/-- R15, R123, R199: the stored B stays 0 and the stored U stays 1. That pulls force them is decision D7. -/
def Obligations.StatusInvariant : Prop :=
  ∀ s t : State, s.StatusInv → step s = .next t → t.StatusInv

/-- The memory and the flash device stay in their one canonical form, whatever flash operations fail. -/
def Obligations.CellsInvariant : Prop :=
  ∀ s t : State, s.CellsInv → step s = .next t → t.CellsInv

/-- R259, R298, R305, R312 to R314: SRQ stays released on both sides, the tick count below 20, the cache window aligned to
its sector, a dirty window valid, the pending filename at most 16 bytes. -/
def Obligations.DeviceInvariant : Prop :=
  ∀ s t : State, s.dev.Inv → step s = .next t → t.dev.Inv

/-- The three invariants hold right after reset. The memory that lists nothing is log 1, the tick count 0 log 26, the
window's base 0 and the empty filename log 40, the flash device that lists nothing log 37: the spec leaves these values
open. -/
def Obligations.InvariantsAtReset : Prop :=
  State.reset.StatusInv ∧ State.reset.CellsInv ∧ State.reset.dev.Inv

/-- R47, R50: no step changes a byte outside RAM and video memory: not in ROM, not at an unmapped address; and no step
moves the address map. -/
def Obligations.RomNeverChanges : Prop :=
  ∀ (s t : State), step s = .next t →
    t.config = s.config ∧
    ∀ a, locate s.config a ≠ .region .ram → locate s.config a ≠ .region .video → t.byteAt a = s.byteAt a

/-! ### The Chipset and the Keyboard -/

/-- R251 to R257, R259, R269, R271: the line value of a port bit by bit; what an offset of the window that holds a
parallel port or its control register reads and writes; a port read with and without handshake enabled; a port write to
the output latch or the direction register and the row select it forwards. A control register keeps bits 7 and 6 from
the Processor's write: a set one stays set, and both are as before where no bus level that the port watches changed; a
port or control write that moves a watched line sets the flag of its active edge. After every port or control write,
tick and key call the input latches show what is wired to them; a window write changes no other input bit. A port write
changes the output latch and the direction register of its own port only, a control write none, and neither a timer nor
another register of the versatile adapter. The row port is a parameter (log 8); that the row select is forwarded on
every write is log 21, the moments of the refresh log 22, the edge flags log 23. -/
def Obligations.PortAccess : Prop :=
  (∀ (p : Port) (k : Nat), k < 8 →
    p.lineValue.getLsbD k = (if p.ddr.getLsbD k then p.out.getLsbD k else p.inp.getLsbD k)) ∧
  (∀ (cfg : Config) (p : PiaId) (d : Devices), (d.chip.pia p).cr.getLsbD 2 = true →
    (d.readPia cfg p).1 = (d.chip.pia p).port.lineValue ∧
    (d.readPia cfg p).2 = d.setChip (d.chip.setPia p { d.chip.pia p with cr := (d.chip.pia p).cr &&& 0x3F })) ∧
  (∀ (cfg : Config) (p : PiaId) (d : Devices), (d.chip.pia p).cr.getLsbD 2 = false →
    (d.readPia cfg p).2 = d ∧
    (d.readPia cfg p).1 = (if cfg.chipset.rowPort = .pia p then d.keys.row else (d.chip.pia p).port.ddr)) ∧
  (∀ (cfg : Config) (p : PiaId) (d : Devices) (v : Byte), (d.chip.pia p).cr.getLsbD 2 = true →
    (((d.writePia cfg p v).chip.pia p).port.out = v ∧
     ((d.writePia cfg p v).chip.pia p).port.ddr = (d.chip.pia p).port.ddr ∧
     (d.writePia cfg p v).keys.row =
       (if cfg.chipset.rowPort = .pia p then
         { (d.chip.pia p).port with out := v }.lineValue &&& cfg.chipset.rowMask else d.keys.row))) ∧
  (∀ (cfg : Config) (p : PiaId) (d : Devices) (v : Byte), (d.chip.pia p).cr.getLsbD 2 = false →
    (((d.writePia cfg p v).chip.pia p).port.ddr = v ∧
     ((d.writePia cfg p v).chip.pia p).port.out = (d.chip.pia p).port.out ∧
     (d.writePia cfg p v).keys.row =
       (if cfg.chipset.rowPort = .pia p then
         { (d.chip.pia p).port with ddr := v }.lineValue &&& cfg.chipset.rowMask else d.keys.row))) ∧
  (∀ (cfg : Config) (p : PiaId) (d : Devices) (v : Byte),
    ((d.writeControl cfg p v).chip.pia p).cr &&& 0x3F = v &&& 0x3F ∧
    (∀ k, k = 6 ∨ k = 7 → (d.chip.pia p).cr.getLsbD k = true → ((d.writeControl cfg p v).chip.pia p).cr.getLsbD k = true) ∧
    ((∀ w ∈ cfg.chipset.handshakeIn, w.pia = p → (d.writeControl cfg p v).bus.level w.line = d.bus.level w.line) →
      ((d.writeControl cfg p v).chip.pia p).cr = ((d.chip.pia p).cr &&& 0xC0) ||| (v &&& 0x3F))) ∧
  (∀ (cfg : Config) (offset : Nat) (d : Devices) (v : Byte),
    (registerAt cfg.chipset offset = none → d.read cfg offset = (0x00, d) ∧ d.write cfg offset v = d) ∧
    (∀ p, registerAt cfg.chipset offset = some (.piaPort p) →
      d.read cfg offset = d.readPia cfg p ∧ d.write cfg offset v = d.writePia cfg p v) ∧
    (∀ p, registerAt cfg.chipset offset = some (.piaControl p) →
      d.read cfg offset = ((d.chip.pia p).cr, d) ∧ d.write cfg offset v = d.writeControl cfg p v) ∧
    (∀ (id : PortId) (k : Nat), k < 8 → id ≠ cfg.chipset.dataInPort → id ≠ cfg.chipset.columnPort →
      (∀ w ∈ cfg.chipset.inWires, w.port = id → w.bit ≠ k) →
      ((d.write cfg offset v).chip.port id).inp.getLsbD k = (d.chip.port id).inp.getLsbD k)) ∧
  (∀ (cfg : Config) (id : PortId) (put : Port → Port) (d : Devices) (q : PiaId),
    (d.writePort cfg id put).EdgesLatched cfg d.bus q (d.chip.pia q).cr) ∧
  (∀ (cfg : Config) (p : PiaId) (v : Byte) (d : Devices) (q : PiaId),
    (d.writeControl cfg p v).EdgesLatched cfg d.bus q
      (if q = p then ((d.chip.pia p).cr &&& 0xC0) ||| (v &&& 0x3F) else (d.chip.pia q).cr)) ∧
  (∀ (cfg : Config) (d : Devices),
    (∀ (id : PortId) (put : Port → Port), (d.writePort cfg id put).InputsShow cfg) ∧
    (∀ (p : PiaId) (v : Byte), (d.writeControl cfg p v).InputsShow cfg) ∧ (d.tick cfg).2.InputsShow cfg ∧
    (∀ code : Byte, (d.keyDown cfg code).InputsShow cfg ∧ (d.keyUp cfg code).InputsShow cfg)) ∧
  (∀ (cfg : Config) (id : PortId) (put : Port → Port) (d : Devices),
    let t := (d.writePort cfg id put).chip
    (t.port id).out = (put (d.chip.port id)).out ∧ (t.port id).ddr = (put (d.chip.port id)).ddr ∧
    (∀ q, q ≠ id → (t.port q).out = (d.chip.port q).out ∧ (t.port q).ddr = (d.chip.port q).ddr) ∧
    t = d.chip.withPorts t) ∧
  (∀ (cfg : Config) (p : PiaId) (v : Byte) (d : Devices),
    let t := (d.writeControl cfg p v).chip
    (∀ q, (t.port q).out = (d.chip.port q).out ∧ (t.port q).ddr = (d.chip.port q).ddr) ∧
    t = { d.chip.withPorts t with blankLevel := t.blankLevel })

/-- R251, R252, R262 to R265: writes and reads of the versatile adapter's registers, wherever the map puts them: both
ports and their direction registers, the enable and flag registers, both bytes of timer 1's counter and of its latch, both
of timer 2, and the shift, auxiliary and peripheral control registers, which hold what is written (log 25). The high-byte
write arms; the latch-only high register (log 25) does not. -/
def Obligations.VersatileRegisters : Prop :=
  ∀ (cfg : Config) (offset : Nat) (d : Devices) (v : Byte),
    (registerAt cfg.chipset offset = some .intEnable →
      d.write cfg offset v =
        d.setChip { d.chip with ier := if v.getLsbD 7 then d.chip.ier ||| v else d.chip.ier &&& ~~~v } ∧
      (d.chip.ier.getLsbD 7 = true → (d.write cfg offset v).chip.ier.getLsbD 7 = true) ∧
      d.read cfg offset = (d.chip.ier, d)) ∧
    (registerAt cfg.chipset offset = some .intFlag →
      (∀ k, k < 7 → (d.write cfg offset v).chip.ifr.getLsbD k = (d.chip.ifr.getLsbD k && !v.getLsbD k)) ∧
      d.write cfg offset v = d.setChip { d.chip with ifr := (d.write cfg offset v).chip.ifr } ∧
      d.read cfg offset = (d.chip.ifr, d)) ∧
    (registerAt cfg.chipset offset = some .t1CounterLow →
      d.write cfg offset v = d.setChip { d.chip with latch1 := d.chip.latch1.extractLsb' 8 8 ++ v } ∧
      d.read cfg offset =
        (d.chip.counter1.extractLsb' 0 8, d.setChip { d.chip with ifr := d.chip.ifr &&& 0xBF })) ∧
    (registerAt cfg.chipset offset = some .t1CounterHigh →
      d.write cfg offset v =
        d.setChip { d.chip with
          latch1 := v ++ d.chip.latch1.extractLsb' 0 8
          counter1 := v ++ d.chip.latch1.extractLsb' 0 8
          active1 := true
          ifr := d.chip.ifr &&& 0xBF } ∧
      d.read cfg offset = (d.chip.counter1.extractLsb' 8 8, d)) ∧
    (registerAt cfg.chipset offset = some .t1LatchLow →
      d.write cfg offset v = d.setChip { d.chip with latch1 := d.chip.latch1.extractLsb' 8 8 ++ v } ∧
      d.read cfg offset = (d.chip.latch1.extractLsb' 0 8, d)) ∧
    (registerAt cfg.chipset offset = some .t1LatchHigh →
      d.write cfg offset v =
        d.setChip { d.chip with latch1 := v ++ d.chip.latch1.extractLsb' 0 8, ifr := d.chip.ifr &&& 0xBF } ∧
      d.read cfg offset = (d.chip.latch1.extractLsb' 8 8, d)) ∧
    (registerAt cfg.chipset offset = some .t2Low →
      d.write cfg offset v = d.setChip { d.chip with held2 := v } ∧
      d.read cfg offset =
        (d.chip.counter2.extractLsb' 0 8, d.setChip { d.chip with ifr := d.chip.ifr &&& 0xDF })) ∧
    (registerAt cfg.chipset offset = some .t2High →
      d.write cfg offset v =
        d.setChip { d.chip with counter2 := v ++ d.chip.held2, active2 := true, ifr := d.chip.ifr &&& 0xDF } ∧
      d.read cfg offset = (d.chip.counter2.extractLsb' 8 8, d)) ∧
    (registerAt cfg.chipset offset = some .viaPortA →
      d.write cfg offset v = d.writePort cfg .viaA (fun p => { p with out := v }) ∧
      (d.write cfg offset v).chip.vA.out = v ∧ (d.write cfg offset v).chip.vA.ddr = d.chip.vA.ddr ∧
      d.read cfg offset = (d.chip.vA.lineValue, d)) ∧
    (registerAt cfg.chipset offset = some .viaPortB →
      d.write cfg offset v = d.writePort cfg .viaB (fun p => { p with out := v }) ∧
      (d.write cfg offset v).chip.vB.out = v ∧ (d.write cfg offset v).chip.vB.ddr = d.chip.vB.ddr ∧
      d.read cfg offset = (d.chip.vB.lineValue, d)) ∧
    (registerAt cfg.chipset offset = some .viaDdrA →
      d.write cfg offset v = d.writePort cfg .viaA (fun p => { p with ddr := v }) ∧
      (d.write cfg offset v).chip.vA.ddr = v ∧ (d.write cfg offset v).chip.vA.out = d.chip.vA.out ∧
      d.read cfg offset = (d.chip.vA.ddr, d)) ∧
    (registerAt cfg.chipset offset = some .viaDdrB →
      d.write cfg offset v = d.writePort cfg .viaB (fun p => { p with ddr := v }) ∧
      (d.write cfg offset v).chip.vB.ddr = v ∧ (d.write cfg offset v).chip.vB.out = d.chip.vB.out ∧
      d.read cfg offset = (d.chip.vB.ddr, d)) ∧
    (registerAt cfg.chipset offset = some .shift →
      d.write cfg offset v = d.setChip { d.chip with shift := v } ∧ d.read cfg offset = (d.chip.shift, d)) ∧
    (registerAt cfg.chipset offset = some .auxControl →
      d.write cfg offset v = d.setChip { d.chip with acr := v } ∧ d.read cfg offset = (d.chip.acr, d)) ∧
    (registerAt cfg.chipset offset = some .periphControl →
      d.write cfg offset v = d.setChip { d.chip with pcr := v } ∧ d.read cfg offset = (d.chip.pcr, d))

/-- R259 to R261: one tick. The retrace bit is set on the ticks whose count is 0 modulo 20 and such a tick requests; a
timer about to pass below zero sets its flag and reloads (timer 1, continuous) or stops, another counts down; the
request is the OR of the four terms, bit 7 of the flag register the third. The underflow test and the request pattern
are decisions D23 and D33. A retrace tick sets bit 7 of the control register that the map names, if any; nothing else of
the Chipset changes. That flag and the phase of the retrace are log 26. `tick()` on the devices is the Chipset's, after
which the input latches are refreshed (log 22). -/
def Obligations.TickRules : Prop :=
  (∀ (cfg : Config) (c : Chipset) (n : Nat),
    ((Chipset.ticks cfg (n + 1) c).2.tickCount = (c.tickCount + n + 1) % 20 ∧
     (Chipset.ticks cfg (n + 1) c).2.retrace = decide ((c.tickCount + n + 1) % 20 = 0) ∧
     ((c.tickCount + n + 1) % 20 = 0 → (Chipset.ticks cfg (n + 1) c).1 = true))) ∧
  (∀ (cfg : Config) (c : Chipset),
    let c' := (c.tick cfg).2
    let under1 := c.active1 && decide (c.counter1.toNat < cfg.timerDec)
    let under2 := c.active2 && decide (c.counter2.toNat < cfg.timerDec)
    let enabled (k : Nat) : Bool := c.ier.getLsbD 7 && c.ier.getLsbD k
    (c'.ifr.getLsbD 6 = (c.ifr.getLsbD 6 || under1)) ∧
    (c'.ifr.getLsbD 5 = (c.ifr.getLsbD 5 || under2)) ∧
    (∀ k, k < 5 → c'.ifr.getLsbD k = c.ifr.getLsbD k) ∧
    (c'.ifr.getLsbD 7 = decide (c'.ifr &&& c.ier &&& 0x7F ≠ 0)) ∧
    (c'.active1 = (c.active1 && (!under1 || c.acr.getLsbD 6))) ∧
    (c'.active2 = (c.active2 && !under2)) ∧
    (c'.counter1 =
      if under1 then (if c.acr.getLsbD 6 then c.latch1 else c.counter1)
      else if c.active1 then c.counter1 - BitVec.ofNat 16 cfg.timerDec else c.counter1) ∧
    (c'.counter2 =
      if c.active2 && !under2 then c.counter2 - BitVec.ofNat 16 cfg.timerDec else c.counter2) ∧
    (c.tick cfg).1 =
      (c'.retrace || (under1 && enabled 6) || (under2 && enabled 5) || decide (c'.ifr &&& c.ier &&& 0x7F ≠ 0) ||
        [c'.p1A.cr, c'.p1B.cr, c'.p2A.cr, c'.p2B.cr].any
          (fun cr => (cr.getLsbD 7 && cr.getLsbD 0) || (cr.getLsbD 6 && cr.getLsbD 3)))) ∧
  (∀ (cfg : Config) (c : Chipset),
    let c' := (c.tick cfg).2
    c'.tickCount = (c.tickCount + 1) % 20 ∧ c'.retrace = decide ((c.tickCount + 1) % 20 = 0) ∧
    (∀ q, c'.pia q =
      { c.pia q with
        cr := if c'.retrace = true ∧ cfg.chipset.retraceFlag = some q then (c.pia q).cr ||| 0x80 else (c.pia q).cr }) ∧
    c' =
      { c.withPorts c' with
        vA := c.vA, vB := c.vB, counter1 := c'.counter1, active1 := c'.active1, counter2 := c'.counter2
        active2 := c'.active2, ifr := c'.ifr, tickCount := c'.tickCount, retrace := c'.retrace }) ∧
  (∀ (cfg : Config) (d : Devices),
    (d.tick cfg).1 = (d.chip.tick cfg).1 ∧
    (d.tick cfg).2.chip.withoutInputs = (d.chip.tick cfg).2.withoutInputs ∧
    (d.tick cfg).2 = { d with chip := (d.tick cfg).2.chip } ∧ (d.tick cfg).2.InputsShow cfg)

/-- R260, R264: writing timer 1's high byte arms it; after as many ticks as the loaded value takes to pass below zero, and
no earlier, its flag is set, and if enabled that tick requests an interrupt. The underflow test is decision D23. -/
def Obligations.TimerExpires : Prop :=
  ∀ (cfg : Config) (c : Chipset) (v : Byte), 0 < cfg.timerDec →
    let c0 := c.writeT1High v
    let n := c0.latch1.toNat / cfg.timerDec
    (∀ k, k ≤ n → (Chipset.ticks cfg k c0).2.ifr.getLsbD 6 = false) ∧
    (Chipset.ticks cfg (n + 1) c0).2.ifr.getLsbD 6 = true ∧
    (c.ier.getLsbD 7 = true → c.ier.getLsbD 6 = true → (Chipset.ticks cfg (n + 1) c0).1 = true)

/-- R270, R271: a key code with a row below 10 and a column below 8 presses or releases that key and no other, any other
code does nothing; the column byte of a selected row shows each key at the given level, a row above 9 no key. The two
out-of-range cases are decision D33, the level a parameter (U12). The host's calls reach the Keyboard and change nothing
else but the input latches, which then show the column byte (log 22). -/
def Obligations.KeyboardRules : Prop :=
  (∀ (k : Keyboard) (code : Byte) (r : Fin 10) (c : Nat), c < 8 →
    ((k.keyDown code).isDown r c = (k.isDown r c || decide (code.toNat = 16 * r.val + c)) ∧
     (k.keyUp code).isDown r c = (k.isDown r c && !decide (code.toNat = 16 * r.val + c)))) ∧
  (∀ (k : Keyboard) (code : Byte), 9 < code.toNat / 16 ∨ 7 < code.toNat % 16 → k.keyDown code = k ∧ k.keyUp code = k) ∧
  (∀ (k : Keyboard) (row : Byte), k.write row = { k with row := row }) ∧
  (∀ (k : Keyboard) (level : Bool) (r : Fin 10) (c : Nat), c < 8 → k.row.toNat = r.val →
    (k.read level).getLsbD c = (k.isDown r c == level)) ∧
  (∀ (k : Keyboard) (level : Bool), 9 < k.row.toNat → k.read level = if level then 0x00 else 0xFF) ∧
  (∀ (cfg : Config) (d : Devices) (code : Byte),
    d.keyDown cfg code = { d with keys := d.keys.keyDown code, chip := (d.keyDown cfg code).chip } ∧
    (d.keyDown cfg code).chip.withoutInputs = d.chip.withoutInputs ∧
    d.keyUp cfg code = { d with keys := d.keys.keyUp code, chip := (d.keyUp cfg code).chip } ∧
    (d.keyUp cfg code).chip.withoutInputs = d.chip.withoutInputs ∧
    (d.keyDown cfg code).InputsShow cfg ∧ (d.keyUp cfg code).InputsShow cfg) ∧
  (∀ (s : State) (code : Byte),
    s.keyDown code = { s with dev := s.dev.keyDown s.config code } ∧
    s.keyUp code = { s with dev := s.dev.keyUp s.config code })

/-! ### The InstrumentBus -/

/-- R256, R258, R269, R281, R284, R285, R298: a getter is the AND of both halves; a setter records the level in the
externally driven half, and if that half had another level runs the edge rule of the line; a call with the level the
half already has does nothing; no setter call changes a half of SRQ. A port write forwards its line values: the row
select to the Keyboard, a changed value to the data bus, the level of every wired bit that changed to its line's setter,
in the order of the wiring, and to no other line. The blanking line does nothing when its level stays, and else sets the
level and EOI. A control write that puts out a level on a handshake output calls the setter of the line it drives, or
the blanking line; one that puts out none, or is to a port that drives no handshake output, leaves the bus as it is,
also a line it drove before. What counts as an edge is decision D36; how a write is forwarded is log 21, the control
bits that put out a level, and the line kept when they no longer do, are log 23. -/
def Obligations.BusLines : Prop :=
  (∀ (b : Bus) (l : Line), b.level l = ((b.line l).ext && (b.line l).loc)) ∧
  (∀ (cfg : Config) (d : Devices) (l : Line) (level : Bool), l ≠ .srq →
    ((d.lineOut cfg l level).bus.line l).ext = level) ∧
  (∀ (cfg : Config) (d : Devices) (l : Line) (level : Bool), (d.bus.line l).ext = level → d.lineOut cfg l level = d) ∧
  (∀ (cfg : Config) (d : Devices) (l : Line) (level : Bool), l ≠ .srq → (d.bus.line l).ext ≠ level →
    d.lineOut cfg l level = (d.setBus (d.bus.setLine l { d.bus.line l with ext := level })).edge cfg l level) ∧
  (∀ (cfg : Config) (d : Devices) (l : Line) (level : Bool), (d.lineOut cfg l level).bus.srq = d.bus.srq) ∧
  (∀ (cfg : Config) (id : PortId) (put : Port → Port) (d : Devices),
    let old := d.chip.port id
    let f := (d.setChip (d.chip.setPort id (put old))).forwardPort cfg id old.lineValue (put old).lineValue
    (d.writePort cfg id put).bus = f.bus ∧ (d.writePort cfg id put).store = f.store ∧
    (d.writePort cfg id put).keys = f.keys) ∧
  (∀ (cfg : Config) (id : PortId) (old new : Byte) (d : Devices),
    let wired (w : OutWire) : Prop := w ∈ cfg.chipset.outWires ∧ w.port = id
    let changed (w : OutWire) : Prop := old.getLsbD w.bit ≠ new.getLsbD w.bit
    let f := d.forwardPort cfg id old new
    let before : Devices :=
      { d with
        keys := if cfg.chipset.rowPort = id then { d.keys with row := new &&& cfg.chipset.rowMask } else d.keys
        bus := { d.bus with data := if cfg.chipset.dataOutPort = id ∧ old ≠ new then new else d.bus.data } }
    f = (cfg.chipset.outWires.filter (fun w => decide (w.port = id ∧ old.getLsbD w.bit ≠ new.getLsbD w.bit))).foldl
      (fun e w => e.lineOut cfg w.line (new.getLsbD w.bit)) before ∧
    (∀ w, cfg.chipset.outWires.filter (fun w => decide (w.port = id ∧ old.getLsbD w.bit ≠ new.getLsbD w.bit)) = [w] →
      f = before.lineOut cfg w.line (new.getLsbD w.bit)) ∧
    f.keys = (if cfg.chipset.rowPort = id then { d.keys with row := new &&& cfg.chipset.rowMask } else d.keys) ∧
    ((∀ w, wired w → ¬ changed w) →
      f.store = d.store ∧
      f.bus = { d.bus with data := if cfg.chipset.dataOutPort = id ∧ old ≠ new then new else d.bus.data }) ∧
    (∀ l, (∀ w, wired w → w.line = l → ¬ changed w) → (f.bus.line l).ext = (d.bus.line l).ext) ∧
    (∀ w, wired w → w.line ≠ .srq → changed w → (∀ w', wired w' → w'.line = w.line → w' = w) →
      (f.bus.line w.line).ext = new.getLsbD w.bit)) ∧
  (∀ (cfg : Config) (level : Bool) (d : Devices),
    (d.chip.blankLevel = level → d.setBlanking cfg level = d) ∧
    (d.chip.blankLevel ≠ level →
      d.setBlanking cfg level = (d.setChip { d.chip with blankLevel := level }).lineOut cfg .eoi level ∧
      (d.setBlanking cfg level).chip = { d.chip with blankLevel := level } ∧
      ((d.setBlanking cfg level).bus.line .eoi).ext = level)) ∧
  (∀ (cfg : Config) (p : PiaId) (v : Byte) (d : Devices),
    (v.getLsbD 5 = false ∨ v.getLsbD 4 = false ∨ (∀ h ∈ cfg.chipset.handshakeOut, h.pia ≠ p) →
      (d.writeControl cfg p v).bus = d.bus ∧ (d.writeControl cfg p v).store = d.store ∧
      (d.writeControl cfg p v).chip.blankLevel = d.chip.blankLevel) ∧
    (d.writeControl cfg p v).keys = d.keys ∧
    (v.getLsbD 5 = true → v.getLsbD 4 = true → (∃ h ∈ cfg.chipset.handshakeOut, h.pia = p) →
      (∀ h ∈ cfg.chipset.handshakeOut, h.pia = p → h.target = .blanking) →
      (d.writeControl cfg p v).chip.blankLevel = v.getLsbD 3 ∧
      ((d.writeControl cfg p v).bus.line .eoi).ext =
        (if d.chip.blankLevel = v.getLsbD 3 then (d.bus.line .eoi).ext else v.getLsbD 3)) ∧
    (∀ (h : HandshakeOut) (l : Line), v.getLsbD 5 = true → v.getLsbD 4 = true →
      cfg.chipset.handshakeOut.filter (fun h => h.pia = p) = [h] → h.target = .line l →
      (let e := (d.setChip (d.chip.setCr p (((d.chip.pia p).cr &&& 0xC0) ||| (v &&& 0x3F)))).lineOut cfg l (v.getLsbD 3)
       (d.writeControl cfg p v).bus = e.bus ∧ (d.writeControl cfg p v).store = e.store ∧
       (l ≠ .srq → ((d.writeControl cfg p v).bus.line l).ext = v.getLsbD 3))))

/-- R286 to R289: a byte is a command while ATN is asserted and data otherwise; the command table by state, an
unrecognised byte ignored; the data bytes by state. OPEN empties the pending filename, and its finalisation gives it
zeros until it has 16 bytes (R305). Byte values are parameters: where two hold the same byte the earlier row of the
table wins, and `OPEN_DATA` is a range (log 30). The finalisation of a filename is decision D30, the count of bytes
saved that an UNLISTEN in Save passes on decision D25 (log 38). -/
def Obligations.BusBytes : Prop :=
  ∀ (cfg : Config) (d : Devices) (byte : Byte),
    (d.bus.level .atn = false → d.dataIn cfg byte = d.command cfg byte) ∧
    (d.bus.level .atn = true → d.dataIn cfg byte = d.dataByte byte) ∧
    (d.bus.tag = .idle →
      (byte = cfg.bus.listenBase + cfg.bus.deviceAddress →
        d.command cfg byte = { d with bus := { d.bus with legacy := false, tag := .listen } }) ∧
      (byte = cfg.bus.talkBase + cfg.bus.deviceAddress → byte ≠ cfg.bus.listenBase + cfg.bus.deviceAddress →
        d.command cfg byte = { d with bus := { d.bus with offset := 0, legacy := false, tag := .load } }) ∧
      (byte ≠ cfg.bus.listenBase + cfg.bus.deviceAddress → byte ≠ cfg.bus.talkBase + cfg.bus.deviceAddress →
        byte ≠ cfg.bus.legacyLoadTrigger → byte ≠ cfg.bus.legacySaveTrigger → d.command cfg byte = d) ∧
      d.dataByte byte = d) ∧
    (d.bus.tag = .listen →
      (byte = cfg.bus.openLoad →
        d.command cfg byte =
          { d with bus := { d.bus with openKind := .load, tag := .filenameCapture }, store := d.store.startFilename }) ∧
      (byte = cfg.bus.openSave → byte ≠ cfg.bus.openLoad →
        d.command cfg byte =
          { d with bus := { d.bus with openKind := .save, tag := .filenameCapture }, store := d.store.startFilename }) ∧
      (byte ≠ cfg.bus.openLoad → byte ≠ cfg.bus.openSave →
        (cfg.bus.openDataFirst ≤ byte → byte ≤ cfg.bus.openDataLast →
          d.command cfg byte = { d with bus := { d.bus with offset := 0, tag := .save } }) ∧
        (¬ (cfg.bus.openDataFirst ≤ byte ∧ byte ≤ cfg.bus.openDataLast) →
          d.command cfg byte =
            if byte = cfg.bus.unlisten then { d with bus := { d.bus with tag := .idle } } else d)) ∧
      d.dataByte byte = d) ∧
    (d.bus.tag = .filenameCapture →
      (byte = cfg.bus.unlisten →
        (d.bus.openKind = .load →
          d.command cfg byte =
            { d with bus := { d.bus with tag := .idle }, store := d.store.padFilename.fnameDone }) ∧
        (d.bus.openKind = .save →
          d.command cfg byte =
            { d with bus := { d.bus with tag := .idle }, store := d.store.padFilename.startSave })) ∧
      (byte ≠ cfg.bus.unlisten → d.command cfg byte = d) ∧
      (d.store.pendingName.length < 16 →
        d.dataByte byte = { d with store := { d.store with pendingName := d.store.pendingName ++ [byte] } }) ∧
      (16 ≤ d.store.pendingName.length → d.dataByte byte = d)) ∧
    (d.bus.tag = .load →
      (byte = cfg.bus.untalk →
        d.command cfg byte =
          { d with bus := { d.bus with dav.loc := true, eoi.loc := true, tag := .idle } }) ∧
      (byte ≠ cfg.bus.untalk → d.command cfg byte = d) ∧
      d.dataByte byte = d) ∧
    (d.bus.tag = .save →
      (byte = cfg.bus.unlisten →
        d.command cfg byte = { d with bus := { d.bus with tag := .idle }, store := d.store.endSave d.store.saved }) ∧
      (byte ≠ cfg.bus.unlisten → d.command cfg byte = d) ∧
      d.dataByte byte =
        { d with
          bus := { d.bus with offset := d.bus.offset + 1 }
          store := d.store.saveDataByte d.bus.offset byte }) ∧
    (∀ st : Storage,
      st.startFilename = { st with pendingName := [] } ∧
      st.padFilename =
        { st with pendingName := st.pendingName ++ List.replicate (16 - st.pendingName.length) 0x00 })

/-- R290 to R294: the device as acceptor and as talker. A falling DAV hands over the inverted data bus, then the
acceptor responds as `ACCEPTOR_RESPONSE` says (D34); in Load a rising NDAC advances the offset and releases DAV and EOI,
ending the transfer at the length; a rising NRFD, or a rising ATN with NRFD released, places the next byte inverted and
asserts DAV, and EOI with the penultimate byte. In any other state the last three do nothing. A falling NDAC, NRFD, ATN
or EOI sets nothing off in any state. -/
def Obligations.BusHandshake : Prop :=
  ∀ (cfg : Config) (d : Devices),
    (cfg.acceptor = .literal →
      (let u := d.dataIn cfg (d.bus.data ^^^ 0xFF)
       d.edge cfg .dav false = { u with bus := { u.bus with ndac.loc := false, nrfd.loc := true } }) ∧
      d.edge cfg .dav true = { d with bus := { d.bus with ndac.loc := true, nrfd.loc := false } }) ∧
    (cfg.acceptor = .ieee488 →
      (let u := d.dataIn cfg (d.bus.data ^^^ 0xFF)
       d.edge cfg .dav false = { u with bus := { u.bus with ndac.loc := true, nrfd.loc := false } }) ∧
      d.edge cfg .dav true = { d with bus := { d.bus with ndac.loc := false, nrfd.loc := true } }) ∧
    (d.bus.tag = .load →
      (let len := d.store.loadDataLen
       d.edge cfg .ndac true =
         { d with
           store := len.2
           bus :=
             { d.bus with
               offset := d.bus.offset + 1, dav.loc := true, eoi.loc := true
               tag := if d.bus.offset + 1 = len.1 then .idle else .load } } ∧
       (len.1 ≤ d.bus.offset → d.edge cfg .nrfd true = { d with store := len.2 }) ∧
       (d.bus.offset < len.1 →
         (let r := len.2.loadDataByte cfg d.bus.offset
          d.edge cfg .nrfd true =
            { d with
              store := r.2
              bus :=
                { d.bus with
                  data := r.1 ^^^ 0xFF, dav.loc := false
                  eoi.loc := if d.bus.offset + 2 = len.1 then false else d.bus.eoi.loc } })) ∧
       (d.bus.level .nrfd = true → d.edge cfg .atn true = d.edge cfg .nrfd true) ∧
       (d.bus.level .nrfd = false → d.edge cfg .atn true = d))) ∧
    (d.bus.tag ≠ .load →
      d.edge cfg .ndac true = d ∧ d.edge cfg .nrfd true = d ∧ d.edge cfg .atn true = d) ∧
    (d.edge cfg .ndac false = d ∧ d.edge cfg .nrfd false = d ∧ d.edge cfg .atn false = d ∧ d.edge cfg .eoi false = d)

/-- R287, R296, R297: a legacy load starts, if there is something to load, at the offset that byte 0 selects; a legacy
save starts at offset 0, stores each data byte and advances, and a rising EOI ends it with one byte less, or with none if
there was none (log 46). A legacy save goes to the slot that is open for writing. Trigger bytes and offsets are
parameters; a trigger is a command that no earlier row of the table takes, and the load trigger wins over an equal save
trigger (log 30). The file a legacy save goes to when none is open is a free value (log 32); when one stops being open is
log 51. -/
def Obligations.LegacyTransfers : Prop :=
  ∀ (cfg : Config) (d : Devices) (byte : Byte),
    (d.bus.tag = .idle → byte ≠ cfg.bus.listenBase + cfg.bus.deviceAddress →
      byte ≠ cfg.bus.talkBase + cfg.bus.deviceAddress →
      (byte = cfg.bus.legacyLoadTrigger → d.store.hasDataToLoad = false → d.command cfg byte = d) ∧
      (byte = cfg.bus.legacyLoadTrigger → d.store.hasDataToLoad = true →
        (let r := d.store.loadDataByte cfg 0
         ∃ start : LegacyStart,
           d.command cfg byte =
             { d with store := r.2, bus := { d.bus with legacy := true, tag := .load, offset := start.toNat } } ∧
           start = (if r.1 = 0x00 then cfg.bus.legacyOffsetSentinel else cfg.bus.legacyOffsetOther) ∧
           (start.toNat = 1 ∨ start.toNat = 2))) ∧
      (byte = cfg.bus.legacySaveTrigger → byte ≠ cfg.bus.legacyLoadTrigger →
        (d.command cfg byte).bus = { d.bus with legacy := true, tag := .saveLegacy, offset := 0 } ∧
        (∀ k, d.store.writeOpen = true → d.store.current = .slot k →
          (d.command cfg byte).store = { d.store with saved := 0 }) ∧
        (d.store.writeOpen = false ∨ (∀ k, d.store.current ≠ .slot k) →
          ∃ file n, (d.command cfg byte).store =
            { d.store with current := file, writeOpen := true, saved := 0, freeCount := n }))) ∧
    (d.bus.tag = .saveLegacy →
      d.command cfg byte = d ∧
      d.dataByte byte =
        { d with
          bus := { d.bus with offset := d.bus.offset + 1 }
          store := d.store.saveDataByte d.bus.offset byte } ∧
      d.edge cfg .eoi true =
        { d with
          bus := { d.bus with offset := d.bus.offset - 1, tag := .idle }
          store := d.store.endSave (d.bus.offset - 1) }) ∧
    (d.bus.tag ≠ .saveLegacy → d.edge cfg .eoi true = d)

/-! ### The Storage -/

/-- R301, R302, R308, R310 to R314: where bytes lie; a read after a write of the same linear address returns it; a read
miss loads the window from the device, a write miss leaves it zero but for the byte written; a miss first flushes a
dirty window, and a write hit changes the one byte. Saving byte `i` of an open slot is a write `i` bytes into the slot's
window, loading one below the length a read there; from `i` = 8192 on that address lies in the next slot's window, or
behind the last (log 39). The length is the directory's; on a miss there is nothing to load, length 0 and nothing saved
(decision D25). The directory copy is log 35, the count log 38. -/
def Obligations.CacheWindow : Prop :=
  (∀ k i : Nat, Storage.slotAddr k = 22 * k ∧ Storage.dataAddr k i = k * 8192 + 1024 + i) ∧
  (∀ addr : Nat, Storage.physical addr = addr % 1024 + addr / 1024 * 4096) ∧
  (∀ (st : Storage) (addr : Nat) (v : Byte),
    ((st.writeByte addr v).readByte addr).1 = v ∧
    (st.writeByte addr v).dirty = true ∧ (st.writeByte addr v).hits addr = true) ∧
  (∀ (st : Storage) (addr : Nat), (st.readByte addr).2.hits addr = true) ∧
  (∀ (st : Storage) (addr : Nat), st.hits addr = true ↔ st.valid = true ∧ st.base = addr / 1024 * 4096) ∧
  (∀ (st : Storage) (addr : Nat) (v : Byte), st.hits addr = true →
    st.writeByte addr v = { st with buf := (st.writeByte addr v).buf, dirty := true } ∧
    ∀ j, j < 1024 → j ≠ addr % 1024 → (st.writeByte addr v).buf.toList.getD j 0 = st.buf.toList.getD j 0) ∧
  (∀ (st : Storage) (addr : Nat) (v : Byte), st.hits addr = false →
    (st.dirty = true → st.writeByte addr v = st.flush.writeByte addr v ∧ st.readByte addr = st.flush.readByte addr) ∧
    (st.dirty = false →
      st.writeByte addr v =
        { st with base := addr / 1024 * 4096, buf := (st.writeByte addr v).buf, valid := true, dirty := true })) ∧
  (∀ (st : Storage) (addr : Nat), st.hits addr = true →
    st.readByte addr = (st.buf.toList.getD (addr % 1024) 0, st)) ∧
  (∀ (st : Storage) (addr : Nat), st.hits addr = false → st.dirty = false → st.failures = [] →
    (st.readByte addr).1 = Cells.read erasedByte st.flash (Storage.physical addr) ∧
    (st.readByte addr).2.flash = st.flash ∧ (st.readByte addr).2.dirty = false) ∧
  (∀ (st : Storage) (addr : Nat) (v : Byte) (j : Nat), st.hits addr = false → j < 1024 → j ≠ addr % 1024 →
    (st.writeByte addr v).buf.toList.getD j 0xFF = 0x00) ∧
  (∀ (st : Storage) (k : Fin 46) (i : Nat) (v : Byte), st.current = .slot k →
    st.saveDataByte i v = { st.writeByte (k.val * 8192 + 1024 + i) v with saved := max st.saved (i + 1) }) ∧
  (∀ (st : Storage), st.listing = false →
    (∀ k, st.current = .slot k →
      st.hasDataToLoad = true ∧ st.loadDataLen = (st.fetchDirectory.dir[k].len.toNat, st.fetchDirectory) ∧
      ∀ (cfg : Config) (i : Nat), i < st.fetchDirectory.dir[k].len.toNat →
        st.loadDataByte cfg i = st.readByte (k.val * 8192 + 1024 + i)) ∧
    ((∀ k, st.current ≠ .slot k) →
      st.hasDataToLoad = false ∧ st.loadDataLen = (0, st) ∧ ∀ (i : Nat) (v : Byte), st.saveDataByte i v = st))

/-- R309, R315, R317, R319: on a device that does not fail, a flush makes the device's sector hold the window, the rest of
the sector all-ones, and nothing else changes on it; a byte written survives the window's move to another chunk, and, once
flushed, a power loss, which keeps the device and ROM and loses the window and the directory copy (log 53). `end_save()`
puts pending data on the device, writes the count, modulo 65536 (log 39), into its slot's entry and no other, and leaves
the directory on the device and the directory copy invalid; with no slot open it does nothing (decision D25). That the
slot is then no longer open for writing is log 51, that the count starts again at 0 is log 38. That it flushes only a
dirty window first is log 52, that the directory goes through the read path decision D35 (log 35). After a flush whose
erase fails, the bytes on the device and in the window are free values, whatever was programmed (log 37). -/
def Obligations.FlushPersists : Prop :=
  (∀ st : Storage, (st.dirty = true → st.flushIfDirty = st.flush) ∧ (st.dirty = false → st.flushIfDirty = st)) ∧
  (∀ st : Storage, st.failures = [] →
    (st.flush.dirty = false ∧ st.flush.buf = st.buf ∧
     (∀ j, j < 1024 → Cells.read erasedByte st.flush.flash (st.base + j) = st.buf.toList.getD j 0) ∧
     (∀ j, 1024 ≤ j → j < 4096 → Cells.read erasedByte st.flush.flash (st.base + j) = 0xFF) ∧
     (∀ p, p < st.base ∨ st.base + 4096 ≤ p →
       Cells.read erasedByte st.flush.flash p = Cells.read erasedByte st.flash p))) ∧
  (∀ (st : Storage) (a b : Nat) (v : Byte), st.failures = [] → a / 1024 ≠ b / 1024 →
    ((((st.writeByte a v).readByte b).2).readByte a).1 = v) ∧
  (∀ (s : State) (a : Nat) (v : Byte), s.dev.store.failures = [] →
    (({ s with dev := s.dev.setStore (s.dev.store.writeByte a v).flush }.powerCycle.dev.store).readByte a).1 = v) ∧
  (∀ s : State,
    s.powerCycle.config = s.config ∧ s.powerCycle.dev.store.flash = s.dev.store.flash ∧
    s.powerCycle.dev.store.valid = false ∧ s.powerCycle.dev.store.dirty = false ∧
    s.powerCycle.dev.store.dirValid = false ∧
    ∀ a, locate s.config a = .region .rom → s.powerCycle.byteAt a = s.byteAt a) ∧
  (∀ (st : Storage) (n : Nat), (∀ k, st.current ≠ .slot k) → st.endSave n = st) ∧
  (∀ (st : Storage) (n : Nat) (k : Fin 46), st.current = .slot k → st.failures = [] → st.base % 4096 = 0 →
    let before := (st.flushIfDirty.makeResident 0).buf
    let u := st.endSave n
    (u.current = .slot k ∧ u.saved = 0 ∧ u.writeOpen = false ∧ u.dirValid = false ∧ u.dirty = false ∧ u.hits 0 = true) ∧
    DirSlot.parse u.buf k = { DirSlot.parse before k with len := BitVec.ofNat 16 n } ∧
    (∀ j : Fin 46, j ≠ k → DirSlot.parse u.buf j = DirSlot.parse before j) ∧
    (∀ j, j < 1024 → Cells.read erasedByte u.flash j = u.buf.toList.getD j 0) ∧
    (st.dirty = true → st.base ≠ 0 → ∀ j, j < 1024 → Cells.read erasedByte u.flash (st.base + j) = st.buf.toList.getD j 0)) ∧
  (∀ st : Storage, st.failures.head? = some true → ∀ j, j < 1024 →
    (∃ n, st.freeCount ≤ n ∧ Cells.read erasedByte st.flush.flash (st.base + j) = Config.freeByte n) ∧
    (∃ n, st.freeCount ≤ n ∧ st.flush.buf.toList.getD j 0 = Config.freeByte n))

/-- R24, R301, R303 to R307, R316: `add_file` takes the first slot, in index order, that is free or already has the
name, and answers its index, or `NO_SLOT` if there is none; the slot's entry is then the name, the window's address and
length 0, every other entry of the window is as it was, and the directory copy is invalid. The pending filename is 16
bytes, padded with zeros. `start_save()` makes the slot that `add_file` answers the current one, open for writing, with
no byte counted yet (log 38), also where there is no slot (log 51). `fname_done()` enters the listing mode for `$`, and
for another name makes a slot in use with exactly that name the current one, or `NOT_FOUND` if there is none. That a
directory update goes through the read path is decision D35; that the directory copy is read, when it is not valid,
through the cache window, is log 35 (its fields' byte order is R301's); that among several slots in use with one name
the first is found is log 55; that `fname_done()` ends an open save, but not for `$`, is log 51; the sentinels' numbers
are log 50. -/
def Obligations.AddFile : Prop :=
  (∀ st : Storage,
    (st.dirValid = true → st.fetchDirectory = st) ∧
    (st.dirValid = false →
      st.fetchDirectory = { st.makeResident 0 with dir := st.fetchDirectory.dir, dirValid := true } ∧
      ∀ k : Fin 46, st.fetchDirectory.dir[k] = DirSlot.parse (st.makeResident 0).buf k)) ∧
  (∀ (st : Storage) (addr : Nat), st.makeResident addr = (st.readByte addr).2) ∧
  (∀ (w : Vector Byte 1024) (k : Fin 46),
    let at' (j : Nat) : Byte := w.toList.getD (22 * k.val + j) 0
    (∀ j, j < 16 → (DirSlot.parse w k).name.toList.getD j 0 = at' j) ∧
    (DirSlot.parse w k).addr = at' 16 ++ at' 17 ++ at' 18 ++ at' 19 ∧ (DirSlot.parse w k).len = at' 20 ++ at' 21) ∧
  (∀ (st : Storage) (name : Vector Byte 16),
    let dir := ((st.makeResident 0).fetchDirectory).dir
    let usable (k : Fin 46) : Prop := dir[k].addr = 0 ∨ dir[k].addr = 0xFFFFFFFF ∨ dir[k].name = name
    ((∀ k, ¬ usable k) → (st.addFile name).1 = .noSlot ∧ ∀ cfg, (st.addFile name).1.value cfg = cfg.noSlot) ∧
    (∀ i : Fin 46, usable i → (∀ k, k < i → ¬ usable k) →
      (st.addFile name).1 = .slot i ∧ (∀ cfg, (st.addFile name).1.value cfg = i.val) ∧
      (st.addFile name).2.dirValid = false ∧
      DirSlot.parse (st.addFile name).2.buf i =
        { name := name, addr := BitVec.ofNat 32 (i.val * 8192 + 1024), len := 0 } ∧
      (∀ k : Fin 46, k ≠ i →
        DirSlot.parse (st.addFile name).2.buf k = DirSlot.parse (st.makeResident 0).buf k))) ∧
  (∀ (st : Storage) (j : Nat), j < 16 → st.filename.toList.getD j 0xFF = st.pendingName.getD j 0x00) ∧
  (∀ st : Storage,
    st.startSave =
      { (st.addFile st.filename).2 with current := (st.addFile st.filename).1, writeOpen := true, saved := 0 }) ∧
  (∀ st : Storage, st.filename.toList.getD 0 0 = 0x24 → st.fnameDone = { st with listing := true }) ∧
  (∀ st : Storage, st.filename.toList.getD 0 0 ≠ 0x24 →
    let dir := st.fetchDirectory.dir
    let matches' (k : Fin 46) : Prop := dir[k].addr ≠ 0 ∧ dir[k].addr ≠ 0xFFFFFFFF ∧ dir[k].name = st.filename
    st.fnameDone = { st.fetchDirectory with listing := false, writeOpen := false, current := st.fnameDone.current } ∧
    ((∃ k, matches' k) → ∃ k, matches' k ∧ st.fnameDone.current = .slot k) ∧
    (∀ k, matches' k → (∀ j, j < k → ¬ matches' j) → st.fnameDone.current = .slot k) ∧
    ((∀ k, ¬ matches' k) → st.fnameDone.current = .notFound))

/-- R303, R318: in listing mode `load_data_byte` gives the fabricated listing, byte by byte, for the `n` slots in use,
those whose address field is neither 0 nor all-ones, in index order: header 0x01, 0x04; then 24 bytes a slot. The
24-byte line, the pointer base and the length are decision D26; that the slots are those of the directory copy, read on
first use through the cache window, is log 35. -/
def Obligations.ListingStream : Prop :=
  (∀ (base : Addr) (slots : List DirSlot), listingByte base slots 0 = 0x01 ∧ listingByte base slots 1 = 0x04) ∧
  (∀ (base : Addr) (slots : List DirSlot) (k : Nat) (h : k < slots.length),
    let at' (j : Nat) : Byte := listingByte base slots (2 + 24 * k + j)
    let next : Addr := if k + 1 < slots.length then base + BitVec.ofNat 16 (24 * (k + 1)) else 0
    at' 1 ++ at' 0 = next ∧ at' 3 ++ at' 2 = slots[k].len ∧
    at' 4 = 0x20 ∧ at' 5 = 0x20 ∧ at' 6 = 0x22 ∧ at' 23 = 0x00 ∧
    (∀ j, j < 16 → at' (7 + j) = if j = quoteIndex slots[k].name then 0x22 else slots[k].name.toList.getD j 0)) ∧
  (∀ name : Vector Byte 16,
    (∀ q, q < 15 → (∀ j, q < j → j < 16 → name.toList.getD j 0 = 0) → name.toList.getD q 0 ≠ 0 →
      quoteIndex name = q + 1) ∧
    (name.toList.getD 15 0 ≠ 0 → quoteIndex name = 15) ∧
    ((∀ j, j < 16 → name.toList.getD j 0 = 0) → quoteIndex name = 0)) ∧
  (∀ dir : Vector DirSlot 46,
    populatedSlots dir =
      ((List.finRange 46).filter (fun k => decide (dir[k].addr ≠ 0 ∧ dir[k].addr ≠ 0xFFFFFFFF))).map (fun k => dir[k])) ∧
  (∀ st : Storage, st.listing = true →
    st.loadDataLen.1 = 2 + 24 * (populatedSlots st.fetchDirectory.dir).length ∧
    st.hasDataToLoad = true ∧
    ∀ (cfg : Config) (i : Nat), i < 2 + 24 * (populatedSlots st.fetchDirectory.dir).length →
      st.loadDataByte cfg i = (listingByte cfg.listingBase (populatedSlots st.fetchDirectory.dir) i, st.fetchDirectory))

end Statements
end

