-- ==== Sys2Proof/Laws/Cells.lean ====
section
/-! SUPPORT. The laws of `Cells`: what a read gives after a write or a replacement, on any list; that both keep the canonical
form. -/

namespace Sys2Proof.Machine

/-! ### Reads -/

@[simp] theorem Cells.read_nil (d : Byte) (a : Nat) : Cells.read d [] a = d := rfl

theorem Cells.read_cons (d : Byte) (cell : Host.Cell) (rest : List Host.Cell) (a : Nat) :
    Cells.read d (cell :: rest) a = if cell.1 = a then cell.2 else Cells.read d rest a := rfl

/-- A list none of whose entries is at `a` reads as the unlisted value there. -/
theorem Cells.read_of_absent {d : Byte} {m : List Host.Cell} {a : Nat} (h : ∀ cell ∈ m, cell.1 ≠ a) :
    Cells.read d m a = d := by
  induction m with
  | nil => rfl
  | cons cell rest ih =>
    rw [Cells.read_cons, if_neg (h cell (by simp)), ih (fun c hc => h c (by simp [hc]))]

/-- Reading `m ++ n` is reading `n` where `m` has no entry. -/
theorem Cells.read_append_of_absent {d : Byte} {m n : List Host.Cell} {a : Nat} (h : ∀ cell ∈ m, cell.1 ≠ a) :
    Cells.read d (m ++ n) a = Cells.read d n a := by
  induction m with
  | nil => rfl
  | cons cell rest ih =>
    rw [List.cons_append, Cells.read_cons, if_neg (h cell (by simp)), ih (fun c hc => h c (by simp [hc]))]

/-- Filtering keeps what it keeps: where every entry at `a` passes, the read is as before. -/
theorem Cells.read_filter_of_kept {d : Byte} {m : List Host.Cell} {a : Nat} {p : Host.Cell → Bool}
    (h : ∀ cell ∈ m, cell.1 = a → p cell = true) : Cells.read d (m.filter p) a = Cells.read d m a := by
  induction m with
  | nil => rfl
  | cons cell rest ih =>
    have hr := ih (fun c hc => h c (by simp [hc]))
    by_cases hp : p cell = true
    · rw [List.filter_cons_of_pos hp, Cells.read_cons, Cells.read_cons, hr]
    · have hne : cell.1 ≠ a := fun he => hp (h cell (by simp) he)
      rw [List.filter_cons_of_neg hp, hr, Cells.read_cons, if_neg hne]

theorem Cells.read_erase_other {d : Byte} {m : List Host.Cell} {a b : Nat} (h : b ≠ a) :
    Cells.read d (Cells.erase m a) b = Cells.read d m b :=
  Cells.read_filter_of_kept (fun cell _ hc => by simp [hc, h])

theorem Cells.mem_erase {m : List Host.Cell} {a : Nat} {cell : Host.Cell} :
    cell ∈ Cells.erase m a ↔ cell ∈ m ∧ cell.1 ≠ a := by
  simp [Cells.erase]

theorem Cells.read_erase_self (d : Byte) (m : List Host.Cell) (a : Nat) : Cells.read d (Cells.erase m a) a = d :=
  Cells.read_of_absent (fun _ hc => (Cells.mem_erase.1 hc).2)

theorem Cells.read_insert_self {d : Byte} {m : List Host.Cell} {a : Nat} {v : Byte} (h : ∀ cell ∈ m, cell.1 ≠ a) :
    Cells.read d (Cells.insert m a v) a = v := by
  induction m with
  | nil => simp [Cells.insert, Cells.read]
  | cons cell rest ih =>
    by_cases hlt : a < cell.1
    · simp [Cells.insert, hlt, Cells.read]
    · rw [Cells.insert, if_neg hlt, Cells.read_cons, if_neg (h cell (by simp)), ih (fun c hc => h c (by simp [hc]))]

theorem Cells.read_insert_other {d : Byte} {m : List Host.Cell} {a b : Nat} {v : Byte} (h : b ≠ a) :
    Cells.read d (Cells.insert m a v) b = Cells.read d m b := by
  induction m with
  | nil => simp [Cells.insert, Cells.read, Ne.symm h]
  | cons cell rest ih =>
    by_cases hlt : a < cell.1
    · rw [Cells.insert, if_pos hlt, Cells.read_cons, if_neg (Ne.symm h)]
    · rw [Cells.insert, if_neg hlt, Cells.read_cons, Cells.read_cons, ih]

/-- A read after a write at the same address gives the value written. -/
@[simp] theorem Cells.read_write_self (d : Byte) (m : List Host.Cell) (a : Nat) (v : Byte) :
    Cells.read d (Cells.write d m a v) a = v := by
  unfold Cells.write
  split
  · rename_i hv
    rw [Cells.read_erase_self, hv]
  · exact Cells.read_insert_self (fun _ hc => (Cells.mem_erase.1 hc).2)

/-- A write leaves every other address alone. -/
theorem Cells.read_write_other {d : Byte} {m : List Host.Cell} {a b : Nat} {v : Byte} (h : b ≠ a) :
    Cells.read d (Cells.write d m a v) b = Cells.read d m b := by
  unfold Cells.write
  split
  · exact Cells.read_erase_other h
  · rw [Cells.read_insert_other h, Cells.read_erase_other h]

/-! ### Runs and replacements -/

theorem Cells.mem_run {d : Byte} {bs : List Byte} {a : Nat} {cell : Host.Cell} (h : cell ∈ Cells.run d bs a) :
    a ≤ cell.1 ∧ cell.1 < a + bs.length ∧ cell.2 ≠ d := by
  induction bs generalizing a with
  | nil => simp [Cells.run] at h
  | cons b bs ih =>
    unfold Cells.run at h
    split at h
    · obtain ⟨h1, h2, h3⟩ := ih h
      simp only [List.length_cons]
      exact ⟨by omega, by omega, h3⟩
    · rcases List.mem_cons.1 h with rfl | h
      · exact ⟨Nat.le_refl _, by simp, ‹_›⟩
      · obtain ⟨h1, h2, h3⟩ := ih h
        simp only [List.length_cons]
        exact ⟨by omega, by omega, h3⟩

theorem Cells.read_run {d : Byte} {bs : List Byte} {a j : Nat} {rest : List Host.Cell} (h : j < bs.length)
    (hrest : ∀ cell ∈ rest, a + bs.length ≤ cell.1) :
    Cells.read d (Cells.run d bs a ++ rest) (a + j) = bs.getD j d := by
  induction bs generalizing a j with
  | nil => simp at h
  | cons b bs ih =>
    simp only [List.length_cons] at h hrest
    have hrest' : ∀ cell ∈ rest, a + 1 + bs.length ≤ cell.1 := fun c hc => by have := hrest c hc; omega
    cases j with
    | zero =>
      have habs : ∀ cell ∈ Cells.run d bs (a + 1) ++ rest, cell.1 ≠ a := by
        intro c hc
        rcases List.mem_append.1 hc with hc | hc
        · have := (Cells.mem_run hc).1; omega
        · have := hrest c hc; omega
      unfold Cells.run
      split
      · rename_i hb
        exact (Cells.read_of_absent habs).trans (by simp [hb])
      · simp [Cells.read]
    | succ j =>
      have hj : a + (j + 1) = (a + 1) + j := by omega
      have hi := ih (a := a + 1) (j := j) (by omega) hrest'
      unfold Cells.run
      split
      · rw [hj, hi]; simp
      · rw [List.cons_append, Cells.read_cons, if_neg (show ¬ a = a + (j + 1) by omega), hj, hi]; simp

/-- Inside the replaced range the new bytes are read. -/
theorem Cells.read_replace_inside {d : Byte} {m : List Host.Cell} {a j : Nat} {bs : List Byte} (h : j < bs.length) :
    Cells.read d (Cells.replace d m a bs) (a + j) = bs.getD j d := by
  unfold Cells.replace
  rw [List.append_assoc, Cells.read_append_of_absent, Cells.read_run h]
  · intro c hc
    have := (List.mem_filter.1 hc).2
    simpa using this
  · intro c hc
    have := (List.mem_filter.1 hc).2
    simp only [decide_eq_true_eq] at this
    omega

/-- Outside the replaced range the old bytes are read. -/
theorem Cells.read_replace_outside {d : Byte} {m : List Host.Cell} {a p : Nat} {bs : List Byte}
    (h : p < a ∨ a + bs.length ≤ p) : Cells.read d (Cells.replace d m a bs) p = Cells.read d m p := by
  have hrun : ∀ cell ∈ Cells.run d bs a, cell.1 ≠ p := by
    intro c hc
    obtain ⟨h1, h2, -⟩ := Cells.mem_run hc
    omega
  unfold Cells.replace
  rcases h with h | h
  · have hkeep : Cells.read d (m.filter (fun cell => cell.1 < a)) p = Cells.read d m p :=
      Cells.read_filter_of_kept (fun c _ hc => by simp [hc, h])
    rw [← hkeep]
    generalize m.filter (fun cell => cell.1 < a) = low
    have hhigh : ∀ cell ∈ Cells.run d bs a ++ m.filter (fun cell => a + bs.length ≤ cell.1), cell.1 ≠ p := by
      intro c hc
      rcases List.mem_append.1 hc with hc | hc
      · exact hrun c hc
      · have := (List.mem_filter.1 hc).2
        simp only [decide_eq_true_eq] at this
        omega
    rw [List.append_assoc]
    induction low with
    | nil => rw [List.nil_append, Cells.read_of_absent hhigh]; rfl
    | cons cell rest ih => rw [List.cons_append, Cells.read_cons, Cells.read_cons, ih]
  · rw [Cells.read_append_of_absent, Cells.read_filter_of_kept]
    · intro c _ hc
      simp [hc, h]
    · intro c hc
      rcases List.mem_append.1 hc with hc | hc
      · have := (List.mem_filter.1 hc).2
        simp only [decide_eq_true_eq] at this
        omega
      · exact hrun c hc

/-! ### The canonical form -/

theorem Cells.wf_nil (d : Byte) : Cells.wf d [] := ⟨List.Pairwise.nil, by simp⟩

theorem Cells.wf_filter {d : Byte} {m : List Host.Cell} (h : Cells.wf d m) (p : Host.Cell → Bool) :
    Cells.wf d (m.filter p) :=
  ⟨h.1.filter p, fun c hc => h.2 c (List.mem_filter.1 hc).1⟩

theorem Cells.mem_insert {m : List Host.Cell} {a : Nat} {v : Byte} {cell : Host.Cell} :
    cell ∈ Cells.insert m a v ↔ cell = (a, v) ∨ cell ∈ m := by
  induction m with
  | nil => simp [Cells.insert]
  | cons c rest ih =>
    unfold Cells.insert
    split
    · simp
    · simp only [List.mem_cons, ih]; tauto

theorem Cells.wf_insert {d : Byte} {m : List Host.Cell} {a : Nat} {v : Byte} (h : Cells.wf d m)
    (habs : ∀ cell ∈ m, cell.1 ≠ a) (hv : v ≠ d) : Cells.wf d (Cells.insert m a v) := by
  refine ⟨?_, ?_⟩
  · have hp := h.1
    clear h
    induction m with
    | nil => simp [Cells.insert]
    | cons c rest ih =>
      rw [List.pairwise_cons] at hp
      unfold Cells.insert
      split
      · rename_i hlt
        refine List.pairwise_cons.2 ⟨?_, List.pairwise_cons.2 hp⟩
        intro x hx
        rcases List.mem_cons.1 hx with rfl | hx
        · exact hlt
        · exact lt_trans hlt (hp.1 x hx)
      · rename_i hlt
        have hc := habs c (by simp)
        refine List.pairwise_cons.2 ⟨?_, ih (fun x hx => habs x (by simp [hx])) hp.2⟩
        intro x hx
        rcases Cells.mem_insert.1 hx with rfl | hx
        · show c.1 < a
          omega
        · exact hp.1 x hx
  · intro c hc
    rcases Cells.mem_insert.1 hc with rfl | hc
    · exact hv
    · exact h.2 c hc

/-- A write keeps the canonical form. -/
theorem Cells.wf_write {d : Byte} {m : List Host.Cell} (h : Cells.wf d m) (a : Nat) (v : Byte) :
    Cells.wf d (Cells.write d m a v) := by
  unfold Cells.write
  split
  · exact Cells.wf_filter h _
  · exact Cells.wf_insert (Cells.wf_filter h _) (fun _ hc => (Cells.mem_erase.1 hc).2) ‹_›

theorem Cells.wf_run (d : Byte) (bs : List Byte) (a : Nat) : Cells.wf d (Cells.run d bs a) := by
  refine ⟨?_, fun c hc => (Cells.mem_run hc).2.2⟩
  induction bs generalizing a with
  | nil => exact List.Pairwise.nil
  | cons b bs ih =>
    unfold Cells.run
    split
    · exact ih (a + 1)
    · refine List.pairwise_cons.2 ⟨?_, ih (a + 1)⟩
      intro c hc
      have := (Cells.mem_run hc).1
      show a < c.1
      omega

/-- A replacement keeps the canonical form. -/
theorem Cells.wf_replace {d : Byte} {m : List Host.Cell} (h : Cells.wf d m) (a : Nat) (bs : List Byte) :
    Cells.wf d (Cells.replace d m a bs) := by
  have hlow := Cells.wf_filter h (fun cell => decide (cell.1 < a))
  have hhigh := Cells.wf_filter h (fun cell => decide (a + bs.length ≤ cell.1))
  have hrun := Cells.wf_run d bs a
  refine ⟨?_, ?_⟩
  · unfold Cells.replace
    refine List.pairwise_append.2 ⟨List.pairwise_append.2 ⟨hlow.1, hrun.1, ?_⟩, hhigh.1, ?_⟩
    · intro x hx y hy
      have h1 := (List.mem_filter.1 hx).2
      have h2 := (Cells.mem_run hy).1
      simp only [decide_eq_true_eq] at h1
      omega
    · intro x hx y hy
      have h2 := (List.mem_filter.1 hy).2
      simp only [decide_eq_true_eq] at h2
      rcases List.mem_append.1 hx with hx | hx
      · have h1 := (List.mem_filter.1 hx).2
        simp only [decide_eq_true_eq] at h1
        omega
      · have h1 := (Cells.mem_run hx).2.1
        omega
  · intro c hc
    unfold Cells.replace at hc
    rcases List.mem_append.1 hc with hc | hc
    · rcases List.mem_append.1 hc with hc | hc
      · exact hlow.2 c hc
      · exact hrun.2 c hc
    · exact hhigh.2 c hc

/-- The memory's canonical form after a write at a 16-bit address. -/
theorem Memory.wf_write {m : List Host.Cell} (h : Memory.wf m) (a : Addr) (v : Byte) :
    Memory.wf (Cells.write blankByte m a.toNat v) := by
  refine ⟨Cells.wf_write h.1 _ _, ?_⟩
  intro c hc
  unfold Cells.write at hc
  split at hc
  · exact h.2 c (Cells.mem_erase.1 hc).1
  · rcases Cells.mem_insert.1 hc with rfl | hc
    · exact a.isLt
    · exact h.2 c (Cells.mem_erase.1 hc).1

end Sys2Proof.Machine
end

