-- ==== Sys2Proof/Laws/State.lean ====
section
/-! SUPPORT. One lemma per field per named update of State, Devices and Chipset. -/

namespace Sys2Proof.Machine

/-! ### `State.setFlags` -/

@[simp] theorem State.setFlags_a (s : State) (f : Flags) : (s.setFlags f).a = s.a := rfl
@[simp] theorem State.setFlags_x (s : State) (f : Flags) : (s.setFlags f).x = s.x := rfl
@[simp] theorem State.setFlags_y (s : State) (f : Flags) : (s.setFlags f).y = s.y := rfl
@[simp] theorem State.setFlags_sp (s : State) (f : Flags) : (s.setFlags f).sp = s.sp := rfl
@[simp] theorem State.setFlags_pc (s : State) (f : Flags) : (s.setFlags f).pc = s.pc := rfl
@[simp] theorem State.setFlags_flags (s : State) (f : Flags) : (s.setFlags f).flags = f := rfl
@[simp] theorem State.setFlags_pending (s : State) (f : Flags) : (s.setFlags f).pending = s.pending := rfl
@[simp] theorem State.setFlags_stall (s : State) (f : Flags) : (s.setFlags f).stall = s.stall := rfl
@[simp] theorem State.setFlags_cycles (s : State) (f : Flags) : (s.setFlags f).cycles = s.cycles := rfl
@[simp] theorem State.setFlags_started (s : State) (f : Flags) : (s.setFlags f).started = s.started := rfl
@[simp] theorem State.setFlags_budget (s : State) (f : Flags) : (s.setFlags f).budget = s.budget := rfl
@[simp] theorem State.setFlags_mem (s : State) (f : Flags) : (s.setFlags f).mem = s.mem := rfl
@[simp] theorem State.setFlags_dev (s : State) (f : Flags) : (s.setFlags f).dev = s.dev := rfl
@[simp] theorem State.setFlags_config (s : State) (f : Flags) : (s.setFlags f).config = s.config := rfl

/-! ### `State.setZN` -/

@[simp] theorem State.setZN_a (s : State) (v : Byte) : (s.setZN v).a = s.a := rfl
@[simp] theorem State.setZN_x (s : State) (v : Byte) : (s.setZN v).x = s.x := rfl
@[simp] theorem State.setZN_y (s : State) (v : Byte) : (s.setZN v).y = s.y := rfl
@[simp] theorem State.setZN_sp (s : State) (v : Byte) : (s.setZN v).sp = s.sp := rfl
@[simp] theorem State.setZN_pc (s : State) (v : Byte) : (s.setZN v).pc = s.pc := rfl
@[simp] theorem State.setZN_flags (s : State) (v : Byte) : (s.setZN v).flags = s.flags.setZN v := rfl
@[simp] theorem State.setZN_pending (s : State) (v : Byte) : (s.setZN v).pending = s.pending := rfl
@[simp] theorem State.setZN_stall (s : State) (v : Byte) : (s.setZN v).stall = s.stall := rfl
@[simp] theorem State.setZN_cycles (s : State) (v : Byte) : (s.setZN v).cycles = s.cycles := rfl
@[simp] theorem State.setZN_started (s : State) (v : Byte) : (s.setZN v).started = s.started := rfl
@[simp] theorem State.setZN_budget (s : State) (v : Byte) : (s.setZN v).budget = s.budget := rfl
@[simp] theorem State.setZN_mem (s : State) (v : Byte) : (s.setZN v).mem = s.mem := rfl
@[simp] theorem State.setZN_dev (s : State) (v : Byte) : (s.setZN v).dev = s.dev := rfl
@[simp] theorem State.setZN_config (s : State) (v : Byte) : (s.setZN v).config = s.config := rfl

/-! ### `State.setPc` -/

@[simp] theorem State.setPc_a (s : State) (p : Addr) : (s.setPc p).a = s.a := rfl
@[simp] theorem State.setPc_x (s : State) (p : Addr) : (s.setPc p).x = s.x := rfl
@[simp] theorem State.setPc_y (s : State) (p : Addr) : (s.setPc p).y = s.y := rfl
@[simp] theorem State.setPc_sp (s : State) (p : Addr) : (s.setPc p).sp = s.sp := rfl
@[simp] theorem State.setPc_pc (s : State) (p : Addr) : (s.setPc p).pc = p := rfl
@[simp] theorem State.setPc_flags (s : State) (p : Addr) : (s.setPc p).flags = s.flags := rfl
@[simp] theorem State.setPc_pending (s : State) (p : Addr) : (s.setPc p).pending = s.pending := rfl
@[simp] theorem State.setPc_stall (s : State) (p : Addr) : (s.setPc p).stall = s.stall := rfl
@[simp] theorem State.setPc_cycles (s : State) (p : Addr) : (s.setPc p).cycles = s.cycles := rfl
@[simp] theorem State.setPc_started (s : State) (p : Addr) : (s.setPc p).started = s.started := rfl
@[simp] theorem State.setPc_budget (s : State) (p : Addr) : (s.setPc p).budget = s.budget := rfl
@[simp] theorem State.setPc_mem (s : State) (p : Addr) : (s.setPc p).mem = s.mem := rfl
@[simp] theorem State.setPc_dev (s : State) (p : Addr) : (s.setPc p).dev = s.dev := rfl
@[simp] theorem State.setPc_config (s : State) (p : Addr) : (s.setPc p).config = s.config := rfl

/-! ### `State.addCycles` -/

@[simp] theorem State.addCycles_a (s : State) (n : Nat) : (s.addCycles n).a = s.a := rfl
@[simp] theorem State.addCycles_x (s : State) (n : Nat) : (s.addCycles n).x = s.x := rfl
@[simp] theorem State.addCycles_y (s : State) (n : Nat) : (s.addCycles n).y = s.y := rfl
@[simp] theorem State.addCycles_sp (s : State) (n : Nat) : (s.addCycles n).sp = s.sp := rfl
@[simp] theorem State.addCycles_pc (s : State) (n : Nat) : (s.addCycles n).pc = s.pc := rfl
@[simp] theorem State.addCycles_flags (s : State) (n : Nat) : (s.addCycles n).flags = s.flags := rfl
@[simp] theorem State.addCycles_pending (s : State) (n : Nat) : (s.addCycles n).pending = s.pending := rfl
@[simp] theorem State.addCycles_stall (s : State) (n : Nat) : (s.addCycles n).stall = s.stall := rfl
@[simp] theorem State.addCycles_cycles (s : State) (n : Nat) : (s.addCycles n).cycles = s.cycles + n := rfl
@[simp] theorem State.addCycles_started (s : State) (n : Nat) : (s.addCycles n).started = s.started := rfl
@[simp] theorem State.addCycles_budget (s : State) (n : Nat) : (s.addCycles n).budget = s.budget := rfl
@[simp] theorem State.addCycles_mem (s : State) (n : Nat) : (s.addCycles n).mem = s.mem := rfl
@[simp] theorem State.addCycles_dev (s : State) (n : Nat) : (s.addCycles n).dev = s.dev := rfl
@[simp] theorem State.addCycles_config (s : State) (n : Nat) : (s.addCycles n).config = s.config := rfl

/-! ### `State.store` -/

@[simp] theorem State.store_a (s : State) (a : Addr) (v : Byte) : (s.store a v).a = s.a := rfl
@[simp] theorem State.store_x (s : State) (a : Addr) (v : Byte) : (s.store a v).x = s.x := rfl
@[simp] theorem State.store_y (s : State) (a : Addr) (v : Byte) : (s.store a v).y = s.y := rfl
@[simp] theorem State.store_sp (s : State) (a : Addr) (v : Byte) : (s.store a v).sp = s.sp := rfl
@[simp] theorem State.store_pc (s : State) (a : Addr) (v : Byte) : (s.store a v).pc = s.pc := rfl
@[simp] theorem State.store_flags (s : State) (a : Addr) (v : Byte) : (s.store a v).flags = s.flags := rfl
@[simp] theorem State.store_pending (s : State) (a : Addr) (v : Byte) : (s.store a v).pending = s.pending := rfl
@[simp] theorem State.store_stall (s : State) (a : Addr) (v : Byte) : (s.store a v).stall = s.stall := rfl
@[simp] theorem State.store_cycles (s : State) (a : Addr) (v : Byte) : (s.store a v).cycles = s.cycles := rfl
@[simp] theorem State.store_started (s : State) (a : Addr) (v : Byte) : (s.store a v).started = s.started := rfl
@[simp] theorem State.store_budget (s : State) (a : Addr) (v : Byte) : (s.store a v).budget = s.budget := rfl
@[simp] theorem State.store_mem (s : State) (a : Addr) (v : Byte) : (s.store a v).mem = Cells.write blankByte s.mem a.toNat v := rfl
@[simp] theorem State.store_dev (s : State) (a : Addr) (v : Byte) : (s.store a v).dev = s.dev := rfl
@[simp] theorem State.store_config (s : State) (a : Addr) (v : Byte) : (s.store a v).config = s.config := rfl

/-! ### `State.advance` -/

@[simp] theorem State.advance_a (s : State) (size cost : Nat) : (s.advance size cost).a = s.a := rfl
@[simp] theorem State.advance_x (s : State) (size cost : Nat) : (s.advance size cost).x = s.x := rfl
@[simp] theorem State.advance_y (s : State) (size cost : Nat) : (s.advance size cost).y = s.y := rfl
@[simp] theorem State.advance_sp (s : State) (size cost : Nat) : (s.advance size cost).sp = s.sp := rfl
@[simp] theorem State.advance_pc (s : State) (size cost : Nat) : (s.advance size cost).pc = s.pc + BitVec.ofNat 16 size := rfl
@[simp] theorem State.advance_flags (s : State) (size cost : Nat) : (s.advance size cost).flags = s.flags := rfl
@[simp] theorem State.advance_pending (s : State) (size cost : Nat) : (s.advance size cost).pending = s.pending := rfl
@[simp] theorem State.advance_stall (s : State) (size cost : Nat) : (s.advance size cost).stall = s.stall := rfl
@[simp] theorem State.advance_cycles (s : State) (size cost : Nat) : (s.advance size cost).cycles = s.cycles + cost := rfl
@[simp] theorem State.advance_started (s : State) (size cost : Nat) : (s.advance size cost).started = s.started := rfl
@[simp] theorem State.advance_budget (s : State) (size cost : Nat) : (s.advance size cost).budget = s.budget := rfl
@[simp] theorem State.advance_mem (s : State) (size cost : Nat) : (s.advance size cost).mem = s.mem := rfl
@[simp] theorem State.advance_dev (s : State) (size cost : Nat) : (s.advance size cost).dev = s.dev := rfl
@[simp] theorem State.advance_config (s : State) (size cost : Nat) : (s.advance size cost).config = s.config := rfl

/-! ### `Devices.setChip` -/

@[simp] theorem Devices.setChip_chip (d : Devices) (v : Chipset) : (d.setChip v).chip = v := rfl
@[simp] theorem Devices.setChip_keys (d : Devices) (v : Chipset) : (d.setChip v).keys = d.keys := rfl
@[simp] theorem Devices.setChip_bus (d : Devices) (v : Chipset) : (d.setChip v).bus = d.bus := rfl
@[simp] theorem Devices.setChip_store (d : Devices) (v : Chipset) : (d.setChip v).store = d.store := rfl

/-! ### `Devices.setBus` -/

@[simp] theorem Devices.setBus_chip (d : Devices) (v : Bus) : (d.setBus v).chip = d.chip := rfl
@[simp] theorem Devices.setBus_keys (d : Devices) (v : Bus) : (d.setBus v).keys = d.keys := rfl
@[simp] theorem Devices.setBus_bus (d : Devices) (v : Bus) : (d.setBus v).bus = v := rfl
@[simp] theorem Devices.setBus_store (d : Devices) (v : Bus) : (d.setBus v).store = d.store := rfl

/-! ### `Devices.setStore` -/

@[simp] theorem Devices.setStore_chip (d : Devices) (v : Storage) : (d.setStore v).chip = d.chip := rfl
@[simp] theorem Devices.setStore_keys (d : Devices) (v : Storage) : (d.setStore v).keys = d.keys := rfl
@[simp] theorem Devices.setStore_bus (d : Devices) (v : Storage) : (d.setStore v).bus = d.bus := rfl
@[simp] theorem Devices.setStore_store (d : Devices) (v : Storage) : (d.setStore v).store = v := rfl

/-! ### `Chipset.setPia` -/

@[simp] theorem Chipset.setPia_vA (c : Chipset) (p : PiaId) (v : PiaPort) : (c.setPia p v).vA = c.vA := by cases p <;> rfl
@[simp] theorem Chipset.setPia_vB (c : Chipset) (p : PiaId) (v : PiaPort) : (c.setPia p v).vB = c.vB := by cases p <;> rfl
@[simp] theorem Chipset.setPia_counter1 (c : Chipset) (p : PiaId) (v : PiaPort) : (c.setPia p v).counter1 = c.counter1 := by cases p <;> rfl
@[simp] theorem Chipset.setPia_latch1 (c : Chipset) (p : PiaId) (v : PiaPort) : (c.setPia p v).latch1 = c.latch1 := by cases p <;> rfl
@[simp] theorem Chipset.setPia_active1 (c : Chipset) (p : PiaId) (v : PiaPort) : (c.setPia p v).active1 = c.active1 := by cases p <;> rfl
@[simp] theorem Chipset.setPia_counter2 (c : Chipset) (p : PiaId) (v : PiaPort) : (c.setPia p v).counter2 = c.counter2 := by cases p <;> rfl
@[simp] theorem Chipset.setPia_held2 (c : Chipset) (p : PiaId) (v : PiaPort) : (c.setPia p v).held2 = c.held2 := by cases p <;> rfl
@[simp] theorem Chipset.setPia_active2 (c : Chipset) (p : PiaId) (v : PiaPort) : (c.setPia p v).active2 = c.active2 := by cases p <;> rfl
@[simp] theorem Chipset.setPia_ifr (c : Chipset) (p : PiaId) (v : PiaPort) : (c.setPia p v).ifr = c.ifr := by cases p <;> rfl
@[simp] theorem Chipset.setPia_ier (c : Chipset) (p : PiaId) (v : PiaPort) : (c.setPia p v).ier = c.ier := by cases p <;> rfl
@[simp] theorem Chipset.setPia_acr (c : Chipset) (p : PiaId) (v : PiaPort) : (c.setPia p v).acr = c.acr := by cases p <;> rfl
@[simp] theorem Chipset.setPia_pcr (c : Chipset) (p : PiaId) (v : PiaPort) : (c.setPia p v).pcr = c.pcr := by cases p <;> rfl
@[simp] theorem Chipset.setPia_shift (c : Chipset) (p : PiaId) (v : PiaPort) : (c.setPia p v).shift = c.shift := by cases p <;> rfl
@[simp] theorem Chipset.setPia_tickCount (c : Chipset) (p : PiaId) (v : PiaPort) : (c.setPia p v).tickCount = c.tickCount := by cases p <;> rfl
@[simp] theorem Chipset.setPia_retrace (c : Chipset) (p : PiaId) (v : PiaPort) : (c.setPia p v).retrace = c.retrace := by cases p <;> rfl
@[simp] theorem Chipset.setPia_blankLevel (c : Chipset) (p : PiaId) (v : PiaPort) : (c.setPia p v).blankLevel = c.blankLevel := by cases p <;> rfl

@[simp] theorem Chipset.setPia_pia_self (c : Chipset) (p : PiaId) (v : PiaPort) : (c.setPia p v).pia p = v := by
  cases p <;> rfl

theorem Chipset.setPia_pia_other (c : Chipset) {p q : PiaId} (v : PiaPort) (h : q ≠ p) :
    (c.setPia p v).pia q = c.pia q := by
  cases p <;> cases q <;> first | rfl | exact absurd rfl h

/-! ### `Chipset.setPort` -/

@[simp] theorem Chipset.setPort_counter1 (c : Chipset) (id : PortId) (v : Port) : (c.setPort id v).counter1 = c.counter1 := by
  cases id <;> simp [Chipset.setPort]
@[simp] theorem Chipset.setPort_latch1 (c : Chipset) (id : PortId) (v : Port) : (c.setPort id v).latch1 = c.latch1 := by
  cases id <;> simp [Chipset.setPort]
@[simp] theorem Chipset.setPort_active1 (c : Chipset) (id : PortId) (v : Port) : (c.setPort id v).active1 = c.active1 := by
  cases id <;> simp [Chipset.setPort]
@[simp] theorem Chipset.setPort_counter2 (c : Chipset) (id : PortId) (v : Port) : (c.setPort id v).counter2 = c.counter2 := by
  cases id <;> simp [Chipset.setPort]
@[simp] theorem Chipset.setPort_held2 (c : Chipset) (id : PortId) (v : Port) : (c.setPort id v).held2 = c.held2 := by
  cases id <;> simp [Chipset.setPort]
@[simp] theorem Chipset.setPort_active2 (c : Chipset) (id : PortId) (v : Port) : (c.setPort id v).active2 = c.active2 := by
  cases id <;> simp [Chipset.setPort]
@[simp] theorem Chipset.setPort_ifr (c : Chipset) (id : PortId) (v : Port) : (c.setPort id v).ifr = c.ifr := by
  cases id <;> simp [Chipset.setPort]
@[simp] theorem Chipset.setPort_ier (c : Chipset) (id : PortId) (v : Port) : (c.setPort id v).ier = c.ier := by
  cases id <;> simp [Chipset.setPort]
@[simp] theorem Chipset.setPort_acr (c : Chipset) (id : PortId) (v : Port) : (c.setPort id v).acr = c.acr := by
  cases id <;> simp [Chipset.setPort]
@[simp] theorem Chipset.setPort_pcr (c : Chipset) (id : PortId) (v : Port) : (c.setPort id v).pcr = c.pcr := by
  cases id <;> simp [Chipset.setPort]
@[simp] theorem Chipset.setPort_shift (c : Chipset) (id : PortId) (v : Port) : (c.setPort id v).shift = c.shift := by
  cases id <;> simp [Chipset.setPort]
@[simp] theorem Chipset.setPort_tickCount (c : Chipset) (id : PortId) (v : Port) : (c.setPort id v).tickCount = c.tickCount := by
  cases id <;> simp [Chipset.setPort]
@[simp] theorem Chipset.setPort_retrace (c : Chipset) (id : PortId) (v : Port) : (c.setPort id v).retrace = c.retrace := by
  cases id <;> simp [Chipset.setPort]
@[simp] theorem Chipset.setPort_blankLevel (c : Chipset) (id : PortId) (v : Port) : (c.setPort id v).blankLevel = c.blankLevel := by
  cases id <;> simp [Chipset.setPort]

@[simp] theorem Chipset.setPort_port_self (c : Chipset) (id : PortId) (v : Port) : (c.setPort id v).port id = v := by
  cases id <;> simp [Chipset.setPort, Chipset.port]

/-- A port write leaves every control register alone. -/
@[simp] theorem Chipset.setPort_cr (c : Chipset) (id : PortId) (v : Port) (q : PiaId) :
    ((c.setPort id v).pia q).cr = (c.pia q).cr := by
  cases id with
  | pia p =>
    by_cases h : q = p
    · subst h; simp [Chipset.setPort]
    · simp [Chipset.setPort, Chipset.setPia_pia_other c _ h]
  | viaA => cases q <;> rfl
  | viaB => cases q <;> rfl

/-! ### `Chipset.setCr` -/

@[simp] theorem Chipset.setCr_cr_self (c : Chipset) (p : PiaId) (v : Byte) : ((c.setCr p v).pia p).cr = v := by
  simp [Chipset.setCr]

/-- A control-register write leaves every port alone. -/
@[simp] theorem Chipset.setCr_port (c : Chipset) (p : PiaId) (v : Byte) (id : PortId) :
    (c.setCr p v).port id = c.port id := by
  cases id with
  | pia q =>
    by_cases h : q = p
    · subst h; simp [Chipset.setCr, Chipset.port]
    · simp [Chipset.setCr, Chipset.port, Chipset.setPia_pia_other c _ h]
  | viaA => cases p <;> rfl
  | viaB => cases p <;> rfl

end Sys2Proof.Machine
end

