-- ==== Sys2Proof/Laws/Ops.lean ====
section
/-! SUPPORT. What each shared operation of Machine/Ops.lean and Machine/Operands.lean can do: one lemma each, cited instead of
unfolding the operation. -/

namespace Sys2Proof.Machine

/-! ### The address map -/

/-- An address is in the window exactly when `locate` says so, and the offset is its distance from `IO_BASE`. -/
theorem locate_window_iff {cfg : Config} {a : Addr} {offset : Nat} :
    locate cfg a = .window offset ↔
      (cfg.ioBase.toNat ≤ a.toNat ∧ a.toNat < cfg.ioBase.toNat + ioSpan) ∧ offset = a.toNat - cfg.ioBase.toNat := by
  unfold locate
  split
  · rename_i h
    constructor
    · intro hw
      exact ⟨h, by simpa using hw.symm⟩
    · rintro ⟨-, rfl⟩
      rfl
  · rename_i h
    constructor
    · intro hw
      split at hw <;> cases hw
    · rintro ⟨h', -⟩
      exact absurd h' h

theorem Quiet.not_window {cfg : Config} {a : Addr} (h : Quiet cfg a) (offset : Nat) : locate cfg a ≠ .window offset :=
  fun hw => h (locate_window_iff.1 hw).1

theorem quiet_of_region {cfg : Config} {a : Addr} {k : RegionKind} (h : locate cfg a = .region k) : Quiet cfg a := by
  intro hin
  rw [locate_window_iff.2 ⟨hin, rfl⟩] at h
  cases h

/-! ### get and set -/

theorem readAt_quiet {cfg : Config} {a : Addr} (h : Quiet cfg a) (mem : List Host.Cell) (dev : Devices) :
    (readAt cfg mem dev a).2 = dev := by
  have := h.not_window
  unfold readAt
  split <;> first | rfl | (rename_i hw; exact absurd hw (this _))

theorem writeAt_quiet {cfg : Config} {a : Addr} (h : Quiet cfg a) (mem : List Host.Cell) (dev : Devices) (v : Byte) :
    (writeAt cfg mem dev a v).2 = dev := by
  have := h.not_window
  unfold writeAt
  split <;> first | rfl | (rename_i hw; exact absurd hw (this _))

/-- A write changes the memory only by a store at its own address, in RAM or video memory. -/
theorem writeAt_mem (cfg : Config) (mem : List Host.Cell) (dev : Devices) (a : Addr) (v : Byte) :
    (writeAt cfg mem dev a v).1 = mem ∨
      ((locate cfg a = .region .ram ∨ locate cfg a = .region .video) ∧
        (writeAt cfg mem dev a v).1 = Cells.write blankByte mem a.toNat v) := by
  unfold writeAt
  split <;> simp_all

/-- A read changes devices only. -/
theorem State.get_state (s : State) (a : Addr) : (s.get a).2 = { s with dev := (readAt s.config s.mem s.dev a).2 } := rfl

/-- A read outside the window changes nothing. -/
theorem State.get_quiet {s : State} {a : Addr} (h : Quiet s.config a) : (s.get a).2 = s := by
  rw [State.get_state, readAt_quiet h]

/-- A write changes memory and devices only. -/
theorem State.set_state (s : State) (a : Addr) (v : Byte) :
    s.set a v = { s with mem := (writeAt s.config s.mem s.dev a v).1, dev := (writeAt s.config s.mem s.dev a v).2 } := rfl

/-- A write changes at most the byte at its own address. -/
theorem State.byteAt_set_other {s : State} {a b : Addr} (v : Byte) (h : b ≠ a) :
    (s.set a v).byteAt b = s.byteAt b := by
  have hn : b.toNat ≠ a.toNat := fun he => h (BitVec.eq_of_toNat_eq he)
  show Cells.read blankByte (writeAt s.config s.mem s.dev a v).1 b.toNat = _
  rcases writeAt_mem s.config s.mem s.dev a v with he | ⟨-, he⟩
  · rw [he]; rfl
  · rw [he, Cells.read_write_other hn]; rfl

/-- A write outside RAM and video memory changes no byte. -/
theorem State.byteAt_set_protected {s : State} {a : Addr} (v : Byte) (b : Addr)
    (h : locate s.config b ≠ .region .ram) (h' : locate s.config b ≠ .region .video) :
    (s.set a v).byteAt b = s.byteAt b := by
  by_cases hb : b = a
  · subst hb
    show Cells.read blankByte (writeAt s.config s.mem s.dev b v).1 b.toNat = _
    rcases writeAt_mem s.config s.mem s.dev b v with he | ⟨hl, -⟩
    · rw [he]; rfl
    · rcases hl with hl | hl
      · exact absurd hl h
      · exact absurd hl h'
  · exact State.byteAt_set_other v hb

/-- Every write keeps the memory's canonical form. -/
theorem State.set_memory_wf {s : State} (h : Memory.wf s.mem) (a : Addr) (v : Byte) : Memory.wf (s.set a v).mem := by
  show Memory.wf (writeAt s.config s.mem s.dev a v).1
  rcases writeAt_mem s.config s.mem s.dev a v with he | ⟨-, he⟩
  · rw [he]; exact h
  · rw [he]; exact Memory.wf_write h a v

/-! ### Words, the stack, interrupts -/

/-- A word read changes devices only. -/
theorem State.read16_state (s : State) (a : Addr) : ∃ d, (s.read16 a).2 = { s with dev := d } := ⟨_, rfl⟩

theorem State.read16Wrap_state (s : State) (a : Addr) : ∃ d, (s.read16Wrap a).2 = { s with dev := d } := ⟨_, rfl⟩

/-- A push writes one byte at the stack address and decrements SP. -/
theorem State.push_state (s : State) (v : Byte) :
    s.push v = { s.set (stackAddr s.config s.sp) v with sp := s.sp - 1 } := rfl

/-- A pull increments SP and reads one byte there. -/
theorem State.pull_state (s : State) :
    s.pull = ((s.get (stackAddr s.config (s.sp + 1))).1, { (s.get (stackAddr s.config (s.sp + 1))).2 with sp := s.sp + 1 }) := rfl

theorem State.push_memory_wf {s : State} (h : Memory.wf s.mem) (v : Byte) : Memory.wf (s.push v).mem :=
  State.set_memory_wf h (stackAddr s.config s.sp) v

theorem State.push16_memory_wf {s : State} (h : Memory.wf s.mem) (w : Addr) : Memory.wf (s.push16 w).mem :=
  State.push_memory_wf (State.push_memory_wf h _) _

/-- The memory after trap entry is that after its three pushes. -/
theorem State.interrupt_mem (s : State) (vector : Addr) (brk : Bool) :
    (s.interrupt vector brk).mem = ((s.push16 s.pc).push (s.flags.pushed brk)).mem := by
  simp only [State.interrupt, State.read16, State.get, State.push16, State.push, State.set, State.setFlags, State.setPc]

/-- Trap entry changes memory, devices, `PC`, SP and I, and nothing else. -/
theorem State.interrupt_state (s : State) (vector : Addr) (brk : Bool) :
    ∃ m d pc, s.interrupt vector brk =
      { s with mem := m, dev := d, pc := pc, sp := s.sp - 1 - 1 - 1, flags := { s.flags with i := true } } := by
  simp only [State.interrupt, State.read16, State.get, State.push16, State.push, State.set, State.setFlags, State.setPc]
  exact ⟨_, _, _, rfl⟩

theorem State.interrupt_memory_wf {s : State} (h : Memory.wf s.mem) (vector : Addr) (brk : Bool) :
    Memory.wf (s.interrupt vector brk).mem := by
  rw [State.interrupt_mem]
  exact State.push_memory_wf (State.push16_memory_wf h _) _

/-- Equal memories hold equal bytes. -/
theorem State.byteAt_congr {s t : State} (h : s.mem = t.mem) (a : Addr) : s.byteAt a = t.byteAt a := by
  unfold State.byteAt
  rw [h]

/-- A push changes at most its own stack byte. -/
theorem State.byteAt_push_other {s : State} {a : Addr} (v : Byte) (h : a ≠ stackAddr s.config s.sp) :
    (s.push v).byteAt a = s.byteAt a :=
  State.byteAt_set_other v h

theorem State.push_sp (s : State) (v : Byte) : (s.push v).sp = s.sp - 1 := rfl

theorem State.push16_sp (s : State) (w : Addr) : (s.push16 w).sp = s.sp - 1 - 1 := rfl

theorem State.byteAt_push16_other {s : State} {a : Addr} (w : Addr) (h : a ≠ stackAddr s.config s.sp)
    (h' : a ≠ stackAddr s.config (s.sp - 1)) : (s.push16 w).byteAt a = s.byteAt a := by
  rw [State.push16, State.byteAt_push_other _ (by rw [State.push_sp]; exact h'), State.byteAt_push_other _ h]

/-- Trap entry changes at most the three stack bytes it pushes. -/
theorem State.byteAt_interrupt_other {s : State} {a : Addr} (vector : Addr) (brk : Bool) (h : a ≠ stackAddr s.config s.sp)
    (h' : a ≠ stackAddr s.config (s.sp - 1)) (h'' : a ≠ stackAddr s.config (s.sp - 1 - 1)) :
    (s.interrupt vector brk).byteAt a = s.byteAt a := by
  rw [State.byteAt_congr (State.interrupt_mem s vector brk),
    State.byteAt_push_other _ (by rw [State.push16_sp]; exact h''), State.byteAt_push16_other _ h h']

/-- Outside RAM and video memory a push changes no byte. -/
theorem State.byteAt_push_protected {s : State} (v : Byte) (b : Addr) (h : locate s.config b ≠ .region .ram)
    (h' : locate s.config b ≠ .region .video) : (s.push v).byteAt b = s.byteAt b :=
  State.byteAt_set_protected v b h h'

@[simp] theorem State.push_config (s : State) (v : Byte) : (s.push v).config = s.config := rfl

theorem State.byteAt_interrupt_protected {s : State} (vector : Addr) (brk : Bool) (b : Addr)
    (h : locate s.config b ≠ .region .ram) (h' : locate s.config b ≠ .region .video) :
    (s.interrupt vector brk).byteAt b = s.byteAt b := by
  rw [State.byteAt_congr (State.interrupt_mem s vector brk),
    State.byteAt_push_protected (s := s.push16 s.pc) _ _ h h', State.push16,
    State.byteAt_push_protected (s := s.push _) _ _ h h', State.byteAt_push_protected _ _ h h']

/-! ### Operands -/

/-- Operand resolution changes devices only. -/
theorem State.resolve_state (s : State) (o : Operand) : ∃ d, (s.resolve o).2 = { s with dev := d } := by
  cases o <;> exact ⟨_, rfl⟩

/-- The common part of a step after the fetch changes `PC`, `cycles` and devices only. -/
theorem State.enter_state (s : State) (o : Operand) (size : Nat) (c : CycleColumns) :
    ∃ d n, (s.enter o size c).2 = { s with pc := s.pc + BitVec.ofNat 16 size, cycles := n, dev := d } := by
  obtain ⟨d, hd⟩ := State.resolve_state s o
  exact ⟨d, (s.enter o size c).2.cycles, by simp only [State.enter, hd]⟩

/-- The address `enter` answers is the effective address. -/
theorem State.enter_ea (s : State) (o : Operand) (size : Nat) (c : CycleColumns) :
    (s.enter o size c).1 = (s.resolve o).1.ea := rfl

/-- The source operand's reads change devices only. -/
theorem State.source_state (s : State) (o : Operand) : ∃ d, (s.source o).2 = { s with dev := d } := by
  cases o <;> exact ⟨_, rfl⟩

/-- The columns of an instruction are those of the opcode it has. -/
theorem columnsOf_eq {i : Instr} {op : Byte} (h : i.opcode = some op) (cfg : Config) :
    columnsOf cfg i = officialColumns cfg op := by
  rw [columnsOf, h, Option.getD_some]

/-- Reading the operand: the source operand read in the old state, then `PC` and `cycles` advanced. -/
theorem State.readOperand_eq {i : Instr} {op : Byte} (h : i.opcode = some op) (s : State) (o : Operand) :
    s.readOperand i o = ((s.source o).1, (s.source o).2.advance (modeSize o.mode) (s.cost op o)) := by
  cases o <;> simp only [State.readOperand, State.enter, columnsOf_eq h, State.cost, Bool.and_comm] <;> rfl

/-- Reading the operand changes `PC`, `cycles` and devices only. -/
theorem State.readOperand_state (s : State) (i : Instr) (o : Operand) :
    ∃ d c, (s.readOperand i o).2 = { s with pc := s.pc + BitVec.ofNat 16 (modeSize o.mode), cycles := c, dev := d } := by
  obtain ⟨d, c, he⟩ := State.enter_state s o (modeSize o.mode) (columnsOf s.config i)
  unfold State.readOperand
  dsimp only
  rw [he]
  cases o <;> exact ⟨_, _, rfl⟩

/-- A store to memory: one write at the effective address, then `PC` and `cycles` advanced. -/
theorem State.writeOperand_eq {i : Instr} {op : Byte} (hi : i.opcode = some op) {s : State} {o : Operand} (v : Byte)
    (h : o ≠ .accumulator) :
    s.writeOperand i o v = ((s.resolve o).2.set (s.resolve o).1.ea v).advance (modeSize o.mode) (s.cost op o) := by
  cases o <;> first
    | exact absurd rfl h
    | (simp only [State.writeOperand, State.enter, columnsOf_eq hi, State.cost, Bool.and_comm]; rfl)

/-- A store to memory, whatever its instruction: one write at the effective address; `PC`, `cycles` and devices change. -/
theorem State.writeOperand_state (s : State) (i : Instr) {o : Operand} (v : Byte) (h : o ≠ .accumulator) :
    ∃ d c, s.writeOperand i o v =
      { ({ s with dev := d }.set (s.resolve o).1.ea v) with pc := s.pc + BitVec.ofNat 16 (modeSize o.mode), cycles := c } := by
  obtain ⟨d, hd⟩ := State.resolve_state s o
  refine ⟨d, (s.writeOperand i o v).cycles, ?_⟩
  cases o <;> first
    | exact absurd rfl h
    | simp only [State.writeOperand, State.enter, State.storeOperand, State.set, hd]

/-- A read-modify-write of memory, whatever its instruction: one write at the effective address, the flags those `f` gives for
the byte written; `PC`, `cycles` and devices change. -/
theorem State.modifyOperand_state (s : State) (i : Instr) {o : Operand} (f : Byte → Flags → AluResult)
    (h : o ≠ .accumulator) (h' : ∀ d8, o ≠ .immediate d8) :
    ∃ d c m, s.modifyOperand i o f =
      { ({ s with dev := d }.set (s.resolve o).1.ea (f m s.flags).value) with
        pc := s.pc + BitVec.ofNat 16 (modeSize o.mode), cycles := c, flags := (f m s.flags).flags } := by
  obtain ⟨d, hd⟩ := State.resolve_state s o
  refine ⟨((s.resolve o).2.get (s.resolve o).1.ea).2.dev, (s.modifyOperand i o f).cycles,
    ((s.resolve o).2.get (s.resolve o).1.ea).1, ?_⟩
  cases o <;> first
    | exact absurd rfl h
    | exact absurd rfl (h' _)
    | simp only [State.modifyOperand, State.enter, State.loadOperand, State.storeOperand, State.set, State.get,
        State.setFlags, hd]

/-- A read-modify-write of memory: one read and one write at the effective address, the flags replaced, then `PC` and
`cycles` advanced. -/
theorem State.modifyOperand_eq {i : Instr} {op : Byte} (hi : i.opcode = some op) {s : State} {o : Operand}
    (f : Byte → Flags → AluResult) (h : o ≠ .accumulator) (h' : ∀ d8, o ≠ .immediate d8) :
    s.modifyOperand i o f =
      ((((s.resolve o).2.get (s.resolve o).1.ea).2.set (s.resolve o).1.ea
          (f ((s.resolve o).2.get (s.resolve o).1.ea).1 s.flags).value).setFlags
        (f ((s.resolve o).2.get (s.resolve o).1.ea).1 s.flags).flags).advance (modeSize o.mode) (s.cost op o) := by
  obtain ⟨d, hd⟩ := State.resolve_state s o
  cases o <;> first
    | exact absurd rfl h
    | exact absurd rfl (h' _)
    | simp [State.modifyOperand, State.enter, State.loadOperand, State.storeOperand, State.get, State.set, State.setFlags,
        State.advance, hd, modeSize, Operand.mode, columnsOf_eq hi, State.cost, Bool.and_comm]

/-- A read-modify-write of A. -/
theorem State.modifyOperand_accumulator {i : Instr} {op : Byte} (hi : i.opcode = some op) (s : State)
    (f : Byte → Flags → AluResult) :
    s.modifyOperand i .accumulator f =
      ({ s with a := (f s.a s.flags).value, flags := (f s.a s.flags).flags }).advance 1 (s.cost op .accumulator) := by
  simp only [State.modifyOperand, State.enter, columnsOf_eq hi, State.cost, Bool.and_comm]
  rfl

/-- A one-byte instruction's entry advances `PC` by 1 and `cycles` by the columns of its opcode. -/
theorem State.enterImplied_eq {i : Instr} {op : Byte} (hi : i.opcode = some op) (s : State) :
    s.enterImplied i = s.advance 1 (s.cost op .implied) := by
  simp only [State.enterImplied, State.enter, columnsOf_eq hi, State.cost, Bool.and_comm]
  rfl

/-- A one-byte instruction's entry changes `PC` and `cycles` only. -/
theorem State.enterImplied_state (s : State) (i : Instr) :
    ∃ n, s.enterImplied i = { s with pc := s.pc + 1, cycles := n } := ⟨_, rfl⟩

/-- Fetching changes devices only. -/
theorem State.fetch_state (s : State) : ∃ d, s.fetch.2 = { s with dev := d } := by
  unfold State.fetch
  dsimp only
  split <;> exact ⟨_, rfl⟩

/-- Reading an undocumented opcode's operand bytes changes devices only. -/
theorem State.fetchOperand_state (s : State) (m : Mode) : ∃ d, (s.fetchOperand m).2 = { s with dev := d } := by
  cases m <;> exact ⟨_, rfl⟩

/-! ### Ticks -/

/-- One tick changes devices and the pending tag only. -/
theorem State.tick_state (s : State) : ∃ p d, s.tick = { s with pending := p, dev := d } := by
  unfold State.tick State.triggerIrq
  dsimp only
  split
  · split <;> exact ⟨_, _, rfl⟩
  · exact ⟨_, _, rfl⟩

/-- So do any number of ticks. -/
theorem State.ticks_state (n : Nat) (s : State) : ∃ p d, State.ticks n s = { s with pending := p, dev := d } := by
  induction n generalizing s with
  | zero => exact ⟨_, _, rfl⟩
  | succ n ih =>
    obtain ⟨p, d, h⟩ := State.tick_state s
    obtain ⟨p', d', h'⟩ := ih s.tick
    refine ⟨p', d', ?_⟩
    rw [State.ticks, h', h]

end Sys2Proof.Machine
end

