-- ==== Sys2Proof/Laws/Devices.lean ====
section
/-! SUPPORT. What each shared operation of the devices can change: flash operations, bus edges and setters, forwarding,
latching and refreshing. -/

namespace Sys2Proof.Machine

/-- What every round of a fold keeps, the fold keeps. -/
theorem foldl_keeps {α β : Type} {P : α → Prop} {f : α → β → α} (hf : ∀ a b, P a → P (f a b)) (l : List β) {a : α}
    (h : P a) : P (l.foldl f a) := by
  induction l generalizing a with
  | nil => exact h
  | cons b l ih => exact ih (hf _ _ h)

/-! ### The flash device -/

theorem Storage.takeOutcome_state (st : Storage) : ∃ f, st.takeOutcome.2 = { st with failures := f } := by
  unfold Storage.takeOutcome
  split <;> exact ⟨_, rfl⟩

/-- An erase replaces bytes from `base` on, whether or not it fails. -/
theorem Storage.deviceErase_state (st : Storage) (base : Nat) :
    ∃ ok f n bs, st.deviceErase base =
      (ok, { st with failures := f, freeCount := n, flash := Cells.replace erasedByte st.flash base bs }) := by
  obtain ⟨f, h⟩ := st.takeOutcome_state
  unfold Storage.deviceErase
  dsimp only
  rw [h]
  split <;> exact ⟨_, _, _, _, rfl⟩

/-- A programming replaces bytes from `base` on, whether or not it fails. -/
theorem Storage.deviceProgram_state (st : Storage) (base : Nat) (erased : Bool) :
    ∃ f n bs, st.deviceProgram base erased =
      { st with failures := f, freeCount := n, flash := Cells.replace erasedByte st.flash base bs } := by
  obtain ⟨f, h⟩ := st.takeOutcome_state
  unfold Storage.deviceProgram
  dsimp only
  rw [h]
  split <;> exact ⟨_, _, _, rfl⟩

/-- A read changes the buffer only, besides the outcomes and the free-value count. -/
theorem Storage.deviceRead_state (st : Storage) (base : Nat) :
    ∃ f n w, st.deviceRead base = { st with failures := f, freeCount := n, buf := w } := by
  obtain ⟨f, h⟩ := st.takeOutcome_state
  unfold Storage.deviceRead
  dsimp only
  rw [h]
  split <;> exact ⟨_, _, _, rfl⟩

/-- A flush leaves the window clean and replaces bytes of the device from the window's base on. -/
theorem Storage.flush_state (st : Storage) :
    ∃ f n w bs bs', st.flush =
      { st with
        failures := f, freeCount := n, buf := w, dirty := false
        flash := Cells.replace erasedByte (Cells.replace erasedByte st.flash st.base bs) st.base bs' } := by
  unfold Storage.flush
  dsimp only
  obtain ⟨ok, f, n, bs, he⟩ := st.deviceErase_state st.base
  rw [he]
  dsimp only
  generalize hu : ({ st with failures := f, freeCount := n, flash := Cells.replace erasedByte st.flash st.base bs } : Storage) = u
  obtain ⟨f', n', bs', hp⟩ := u.deviceProgram_state st.base ok
  rw [hp]
  generalize hv : ({ u with failures := f', freeCount := n', flash := Cells.replace erasedByte u.flash st.base bs' } : Storage) = v
  obtain ⟨f'', n'', w, hr⟩ := v.deviceRead_state v.base
  rw [hr]
  subst hv hu
  exact ⟨_, _, _, _, _, rfl⟩

/-- Byte `j` of a window built from a function of the byte index. -/
theorem windowOf_getD (f : Nat → Byte) {j : Nat} (d : Byte) (h : j < 1024) : (windowOf f).toList.getD j d = f j := by
  simp [windowOf, Vector.toList, h]

/-- A write through a hit changes the one byte of the buffer and makes the window dirty. -/
theorem Storage.writeByte_hit {st : Storage} {addr : Nat} (v : Byte) (h : st.hits addr = true) :
    st.writeByte addr v = { st with buf := st.buf.set (addr % 1024) v (Nat.mod_lt _ (by decide)), dirty := true } := by
  unfold Storage.writeByte Storage.makeWritable
  rw [if_pos h]

/-- A window that holds address 0 holds every address of the directory chunk. -/
theorem Storage.hits_first {st : Storage} {addr : Nat} (h : st.hits 0 = true) (ha : addr < 1024) : st.hits addr = true := by
  have e : Storage.sectorBase addr = Storage.sectorBase 0 := by simp [Storage.sectorBase, Nat.div_eq_of_lt ha]
  unfold Storage.hits at h ⊢
  rw [e]
  exact h

/-- Writes inside a resident first sector are hits: they change bytes of the buffer only, and those at the addresses
written. -/
theorem Storage.writeBytes_hit (bs : List Byte) {st : Storage} {addr : Nat} (h : st.hits 0 = true)
    (ha : addr + bs.length ≤ 1024) :
    ∃ w dirty, Storage.writeBytes bs addr st = { st with buf := w, dirty := dirty } ∧
      (∀ j d, j < bs.length → w.toList.getD (addr + j) d = bs.getD j d) ∧
      (∀ p d, p < addr ∨ addr + bs.length ≤ p → w.toList.getD p d = st.buf.toList.getD p d) := by
  induction bs generalizing st addr with
  | nil => exact ⟨st.buf, st.dirty, rfl, by simp, fun _ _ _ => rfl⟩
  | cons b bs ih =>
    simp only [List.length_cons] at ha
    have hm : addr % 1024 = addr := Nat.mod_eq_of_lt (by omega)
    have he := Storage.writeByte_hit b (Storage.hits_first h (show addr < 1024 by omega))
    obtain ⟨w, dirty, hw, hin, hout⟩ := ih (st := st.writeByte addr b) (addr := addr + 1) (by rw [he]; exact h) (by omega)
    have hset : ∀ p d, (st.writeByte addr b).buf.toList.getD p d = if p = addr then b else st.buf.toList.getD p d := by
      intro p d
      rw [he]
      simp only [hm]
      rw [Vector.toList_set]
      by_cases hp : p = addr
      · subst hp
        rw [if_pos rfl, List.getD_eq_getElem?_getD, List.getElem?_set_self (by simp; omega)]
        rfl
      · rw [if_neg hp, List.getD_eq_getElem?_getD, List.getElem?_set_ne (by omega), List.getD_eq_getElem?_getD]
    refine ⟨w, dirty, ?_, fun j d hj => ?_, fun p d hp => ?_⟩
    · show Storage.writeBytes bs (addr + 1) (st.writeByte addr b) = _
      rw [hw, he]
    · cases j with
      | zero => rw [Nat.add_zero, hout addr d (.inl (by omega)), hset, if_pos rfl]; rfl
      | succ j =>
        have := hin j d (by simpa using hj)
        rw [show addr + (j + 1) = addr + 1 + j by omega, this]
        rfl
    · simp only [List.length_cons] at hp
      rw [hout p d (by omega), hset, if_neg (by omega)]

/-- A flush on a device that does not fail: the device holds the window and erased bytes after it, the window is clean. -/
theorem Storage.flush_ok {st : Storage} (h : st.failures = []) :
    ∃ w, st.flush =
      { st with
        flash := Cells.replace erasedByte
          (Cells.replace erasedByte st.flash st.base (List.replicate 4096 erasedByte)) st.base st.buf.toList
        buf := w, dirty := false } ∧
      ∀ j d, j < 1024 → w.toList.getD j d = st.buf.toList.getD j d := by
  refine ⟨windowOf (fun i => Cells.read erasedByte (Cells.replace erasedByte (Cells.replace erasedByte st.flash st.base
    (List.replicate 4096 erasedByte)) st.base st.buf.toList) (st.base + i)), ?_, ?_⟩
  · unfold Storage.flush Storage.deviceErase Storage.deviceProgram Storage.deviceRead Storage.deviceSet Storage.takeOutcome
    simp only [h]
    rfl
  · intro j d hj
    rw [windowOf_getD _ _ hj, Cells.read_replace_inside (by simpa using hj)]
    have hl : j < st.buf.toList.length := by simpa using hj
    simp only [List.getD_eq_getElem?_getD, List.getElem?_eq_getElem hl, Option.getD_some]

/-- After the write path the window is valid. -/
theorem Storage.makeWritable_valid (st : Storage) (addr : Nat) : (st.makeWritable addr).valid = true := by
  unfold Storage.makeWritable
  split
  · rename_i h
    unfold Storage.hits at h
    revert h
    cases st.valid <;> simp
  · rfl

theorem Storage.sectorBase_aligned (addr : Nat) : Storage.sectorBase addr % 4096 = 0 := by
  unfold Storage.sectorBase
  omega

/-! ### The bus changes neither the Chipset nor the Keyboard -/

theorem Devices.dataIn_frame (cfg : Config) (byte : Byte) (d : Devices) :
    (d.dataIn cfg byte).chip = d.chip ∧ (d.dataIn cfg byte).keys = d.keys := by
  unfold Devices.dataIn
  split
  · unfold Devices.dataByte
    split <;> exact ⟨rfl, rfl⟩
  · unfold Devices.command
    split
    · unfold Devices.commandIdle
      repeat' split
      all_goals exact ⟨rfl, rfl⟩
    · unfold Devices.commandListen
      repeat' split
      all_goals exact ⟨rfl, rfl⟩
    · unfold Devices.commandCapture Devices.finalizeFilename
      dsimp only
      repeat' split
      all_goals exact ⟨rfl, rfl⟩
    · unfold Devices.commandLoad
      split <;> exact ⟨rfl, rfl⟩
    · unfold Devices.commandSave
      split <;> exact ⟨rfl, rfl⟩
    · exact ⟨rfl, rfl⟩

theorem Devices.placeByte_frame (cfg : Config) (d : Devices) :
    (d.placeByte cfg).chip = d.chip ∧ (d.placeByte cfg).keys = d.keys := by
  unfold Devices.placeByte
  dsimp only
  split <;> exact ⟨rfl, rfl⟩

theorem Devices.edge_frame (cfg : Config) (l : Line) (level : Bool) (d : Devices) :
    (d.edge cfg l level).chip = d.chip ∧ (d.edge cfg l level).keys = d.keys := by
  unfold Devices.edge
  split
  · unfold Devices.davFalling
    dsimp only
    split <;> exact d.dataIn_frame cfg _
  · unfold Devices.davRising
    split <;> exact ⟨rfl, rfl⟩
  · unfold Devices.ndacRising
    split <;> exact ⟨rfl, rfl⟩
  · unfold Devices.nrfdRising
    split <;> first | exact d.placeByte_frame cfg | exact ⟨rfl, rfl⟩
  · unfold Devices.atnRising
    split
    · split <;> first | exact d.placeByte_frame cfg | exact ⟨rfl, rfl⟩
    all_goals exact ⟨rfl, rfl⟩
  · unfold Devices.eoiRising
    split <;> exact ⟨rfl, rfl⟩
  · exact ⟨rfl, rfl⟩

theorem Devices.lineOut_frame (cfg : Config) (l : Line) (level : Bool) (d : Devices) :
    (d.lineOut cfg l level).chip = d.chip ∧ (d.lineOut cfg l level).keys = d.keys := by
  unfold Devices.lineOut
  split
  · exact ⟨rfl, rfl⟩
  all_goals
    dsimp only
    split
    · exact ⟨rfl, rfl⟩
    · rw [(Devices.edge_frame cfg _ _ _).1, (Devices.edge_frame cfg _ _ _).2]
      exact ⟨rfl, rfl⟩

/-- Forwarding a port write changes no Chipset register; the Keyboard gets the row select if the port is the row port. -/
theorem Devices.forwardPort_frame (cfg : Config) (id : PortId) (old new : Byte) (d : Devices) :
    (d.forwardPort cfg id old new).chip = d.chip ∧
      (d.forwardPort cfg id old new).keys =
        if cfg.chipset.rowPort = id then d.keys.write (new &&& cfg.chipset.rowMask) else d.keys := by
  unfold Devices.forwardPort
  dsimp only
  refine foldl_keeps
    (P := fun x : Devices => x.chip = d.chip ∧
      x.keys = if cfg.chipset.rowPort = id then d.keys.write (new &&& cfg.chipset.rowMask) else d.keys) ?_ _ ?_
  · intro x w h
    unfold Devices.forwardWire
    split
    · exact h
    · rw [(Devices.lineOut_frame _ _ _ _).1, (Devices.lineOut_frame _ _ _ _).2]
      exact h
  · split <;> split <;> exact ⟨rfl, rfl⟩

/-! ### Latching and refreshing -/

/-- An input latch write leaves output latches, direction and control registers alone. -/
theorem Chipset.setInput_frame (c : Chipset) (id : PortId) (v : Byte) (q : PiaId) :
    ((c.setInput id v).pia q).port.out = (c.pia q).port.out ∧ ((c.setInput id v).pia q).port.ddr = (c.pia q).port.ddr ∧
      ((c.setInput id v).pia q).cr = (c.pia q).cr := by
  unfold Chipset.setInput Chipset.setPort
  cases id with
  | pia p => cases p <;> cases q <;> exact ⟨rfl, rfl, rfl⟩
  | viaA => cases q <;> exact ⟨rfl, rfl, rfl⟩
  | viaB => cases q <;> exact ⟨rfl, rfl, rfl⟩

/-- So does refreshing all of them; the Keyboard, bus and Storage stay. -/
theorem Devices.refreshInputs_frame (cfg : Config) (d : Devices) (q : PiaId) :
    ((d.refreshInputs cfg).chip.pia q).port.out = (d.chip.pia q).port.out ∧
      ((d.refreshInputs cfg).chip.pia q).port.ddr = (d.chip.pia q).port.ddr ∧
      ((d.refreshInputs cfg).chip.pia q).cr = (d.chip.pia q).cr := by
  unfold Devices.refreshInputs
  rw [Devices.setChip_chip]
  refine foldl_keeps
    (P := fun c : Chipset => (c.pia q).port.out = (d.chip.pia q).port.out ∧
      (c.pia q).port.ddr = (d.chip.pia q).port.ddr ∧ (c.pia q).cr = (d.chip.pia q).cr) ?_ _ ?_
  · intro c w h
    obtain ⟨ho, hd, hc⟩ := Chipset.setInput_frame c w.port (setBit (c.port w.port).inp w.bit (d.signal w.signal != w.invert)) q
    exact ⟨ho.trans h.1, hd.trans h.2.1, hc.trans h.2.2⟩
  · obtain ⟨ho, hd, hc⟩ := Chipset.setInput_frame (d.chip.setInput cfg.chipset.columnPort (d.keys.read cfg.keyDownLevel))
      cfg.chipset.dataInPort d.bus.data q
    obtain ⟨ho', hd', hc'⟩ := Chipset.setInput_frame d.chip cfg.chipset.columnPort (d.keys.read cfg.keyDownLevel) q
    exact ⟨ho.trans ho', hd.trans hd', hc.trans hc'⟩

/-- Latching an edge writes bits 7 and 6 of the control register only. -/
theorem latchEdge_low (cr : Byte) (second level : Bool) : latchEdge cr second level &&& 0x3F = cr &&& 0x3F := by
  unfold latchEdge
  revert cr
  cases second <;> cases level <;> decide

theorem Devices.latchEdges_frame (cfg : Config) (before : Bus) (d : Devices) (q : PiaId) :
    ((d.latchEdges cfg before).chip.pia q).port = (d.chip.pia q).port ∧
      ((d.latchEdges cfg before).chip.pia q).cr &&& 0x3F = (d.chip.pia q).cr &&& 0x3F := by
  unfold Devices.latchEdges
  rw [Devices.setChip_chip]
  refine foldl_keeps
    (P := fun c : Chipset => (c.pia q).port = (d.chip.pia q).port ∧
      (c.pia q).cr &&& 0x3F = (d.chip.pia q).cr &&& 0x3F) ?_ _ ⟨rfl, rfl⟩
  intro c w h
  split
  · exact h
  · refine ⟨(Chipset.setCr_port c w.pia _ (.pia q)).trans h.1, ?_⟩
    by_cases hq : q = w.pia
    · subst hq
      rw [Chipset.setCr_cr_self, latchEdge_low]
      exact h.2
    · unfold Chipset.setCr
      rw [Chipset.setPia_pia_other _ _ hq]
      exact h.2

/-- Settling writes input latches and edge flags only. -/
theorem Devices.settle_frame (cfg : Config) (before : Bus) (d : Devices) (q : PiaId) :
    ((d.settle cfg before).chip.pia q).port.out = (d.chip.pia q).port.out ∧
      ((d.settle cfg before).chip.pia q).port.ddr = (d.chip.pia q).port.ddr ∧
      ((d.settle cfg before).chip.pia q).cr &&& 0x3F = (d.chip.pia q).cr &&& 0x3F ∧
      (d.settle cfg before).keys = d.keys ∧ (d.settle cfg before).bus = d.bus ∧
      (d.settle cfg before).store = d.store := by
  unfold Devices.settle
  obtain ⟨ho, hd, hc⟩ := Devices.refreshInputs_frame cfg (d.latchEdges cfg before) q
  obtain ⟨hp, hl⟩ := Devices.latchEdges_frame cfg before d q
  exact ⟨by rw [ho, hp], by rw [hd, hp], by rw [hc, hl], rfl, rfl, rfl⟩

/-! ### The externally driven halves -/

theorem Bus.setLine_ext (b : Bus) (l m : Line) (h : LineHalves) :
    ((b.setLine l h).line m).ext = if m = l then h.ext else (b.line m).ext := by
  cases l <;> cases m <;> rfl

/-- The device drives the other half. -/
theorem Bus.drive_ext (b : Bus) (l m : Line) (level : Bool) : ((b.drive l level).line m).ext = (b.line m).ext := by
  cases l <;> cases m <;> rfl

theorem Devices.dataIn_ext (cfg : Config) (byte : Byte) (d : Devices) (m : Line) :
    ((d.dataIn cfg byte).bus.line m).ext = (d.bus.line m).ext := by
  unfold Devices.dataIn
  split
  · unfold Devices.dataByte
    split <;> cases m <;> rfl
  · unfold Devices.command
    split
    · unfold Devices.commandIdle
      repeat' split
      all_goals cases m <;> rfl
    · unfold Devices.commandListen
      repeat' split
      all_goals cases m <;> rfl
    · unfold Devices.commandCapture Devices.finalizeFilename
      dsimp only
      repeat' split
      all_goals cases m <;> rfl
    · unfold Devices.commandLoad
      split <;> cases m <;> rfl
    · unfold Devices.commandSave
      split <;> cases m <;> rfl
    · rfl

theorem Devices.placeByte_ext (cfg : Config) (d : Devices) (m : Line) :
    ((d.placeByte cfg).bus.line m).ext = (d.bus.line m).ext := by
  unfold Devices.placeByte
  dsimp only
  split
  · split <;> cases m <;> rfl
  · rfl

/-- An edge changes no externally driven half. -/
theorem Devices.edge_ext (cfg : Config) (l : Line) (level : Bool) (d : Devices) (m : Line) :
    ((d.edge cfg l level).bus.line m).ext = (d.bus.line m).ext := by
  unfold Devices.edge
  split
  · unfold Devices.davFalling
    dsimp only
    split <;> rw [Devices.setBus_bus, Bus.drive_ext, Bus.drive_ext, Devices.dataIn_ext]
  · unfold Devices.davRising
    split <;> rw [Devices.setBus_bus, Bus.drive_ext, Bus.drive_ext]
  · unfold Devices.ndacRising
    split
    · dsimp only
      split <;> cases m <;> rfl
    all_goals rfl
  · unfold Devices.nrfdRising
    split <;> first | exact d.placeByte_ext cfg m | rfl
  · unfold Devices.atnRising
    split
    · split <;> first | exact d.placeByte_ext cfg m | rfl
    all_goals rfl
  · unfold Devices.eoiRising
    split <;> cases m <;> rfl
  · rfl

/-- A setter records the level in its own line's externally driven half, and changes no other one. -/
theorem Devices.lineOut_ext (cfg : Config) (l : Line) (level : Bool) (d : Devices) (m : Line) :
    ((d.lineOut cfg l level).bus.line m).ext = if m = l ∧ l ≠ .srq then level else (d.bus.line m).ext := by
  unfold Devices.lineOut
  split
  · rw [if_neg (fun h => h.2 rfl)]
  all_goals
    dsimp only
    split
    · rw [Devices.setBus_bus, Bus.setLine_ext]
      cases m <;> rfl
    · rw [Devices.edge_ext, Devices.setBus_bus, Bus.setLine_ext]
      cases m <;> rfl

/-- A wire that did not change leaves every externally driven half; one that did sets its own line's. -/
theorem Devices.forwardWire_ext (cfg : Config) (old new : Byte) (d : Devices) (w : OutWire) (m : Line) :
    ((d.forwardWire cfg old new w).bus.line m).ext =
      if old.getLsbD w.bit ≠ new.getLsbD w.bit ∧ m = w.line ∧ w.line ≠ .srq then new.getLsbD w.bit else (d.bus.line m).ext := by
  unfold Devices.forwardWire
  split
  · rename_i h
    rw [if_neg (fun hc => hc.1 h)]
  · rename_i h
    rw [Devices.lineOut_ext]
    by_cases hm : m = w.line ∧ w.line ≠ .srq
    · rw [if_pos hm, if_pos ⟨h, hm⟩]
    · rw [if_neg hm, if_neg (fun hc => hm hc.2)]

/-- The blanking line's level and EOI. -/
theorem Devices.setBlanking_frame (cfg : Config) (level : Bool) (d : Devices) :
    (d.setBlanking cfg level).chip = { d.chip with blankLevel := level } ∧ (d.setBlanking cfg level).keys = d.keys := by
  unfold Devices.setBlanking
  split
  · rename_i h
    subst h
    exact ⟨rfl, rfl⟩
  · rw [(Devices.lineOut_frame _ _ _ _).1, (Devices.lineOut_frame _ _ _ _).2]
    exact ⟨rfl, rfl⟩

/-- Forwarding a handshake output changes no control register and no port. -/
theorem Devices.forwardHandshake_pia (cfg : Config) (level : Bool) (d : Devices) (h : HandshakeOut) (q : PiaId) :
    ((d.forwardHandshake cfg level h).chip.pia q) = d.chip.pia q := by
  unfold Devices.forwardHandshake
  split
  · rw [(Devices.lineOut_frame _ _ _ _).1]
  · rw [(Devices.setBlanking_frame _ _ _).1]
    cases q <;> rfl

/-- Latching an edge sets flags and clears none. -/
theorem latchEdge_set (cr : Byte) (second level : Bool) {k : Nat} (h : cr.getLsbD k = true) :
    (latchEdge cr second level).getLsbD k = true := by
  unfold latchEdge
  repeat' split
  all_goals simp [h]

/-- Latched edge flags stay set, and a port none of whose watched levels changed keeps its control register. -/
theorem Devices.settle_cr (cfg : Config) (before : Bus) (d : Devices) (q : PiaId) :
    (∀ k, (d.chip.pia q).cr.getLsbD k = true → ((d.settle cfg before).chip.pia q).cr.getLsbD k = true) ∧
      ((∀ w ∈ cfg.chipset.handshakeIn, w.pia = q → before.level w.line = d.bus.level w.line) →
        ((d.settle cfg before).chip.pia q).cr = (d.chip.pia q).cr) := by
  unfold Devices.settle
  rw [(Devices.refreshInputs_frame _ _ _).2.2]
  unfold Devices.latchEdges
  rw [Devices.setChip_chip]
  have one (c : Chipset) (w : HandshakeIn) :
      ((if before.level w.line = d.bus.level w.line then c
        else c.setCr w.pia (latchEdge (c.pia w.pia).cr w.second (d.bus.level w.line))).pia q).cr =
      if before.level w.line = d.bus.level w.line ∨ w.pia ≠ q then (c.pia q).cr
      else latchEdge (c.pia q).cr w.second (d.bus.level w.line) := by
    by_cases hl : before.level w.line = d.bus.level w.line
    · rw [if_pos hl, if_pos (.inl hl)]
    · rw [if_neg hl]
      by_cases hq : q = w.pia
      · subst hq
        rw [Chipset.setCr_cr_self, if_neg (by simp [hl])]
      · rw [if_pos (.inr (Ne.symm hq)), Chipset.setCr, Chipset.setPia_pia_other _ _ hq]
  generalize d.chip = c0
  constructor
  · intro k h
    refine foldl_keeps (P := fun c : Chipset => (c.pia q).cr.getLsbD k = true) ?_ _ h
    intro c w hc
    rw [one]
    split
    · exact hc
    · exact latchEdge_set _ _ _ hc
  · intro h
    generalize cfg.chipset.handshakeIn = l at h
    induction l generalizing c0 with
    | nil => rfl
    | cons w l ih =>
      rw [List.foldl_cons, ih _ (fun w' hw' => h w' (List.mem_cons_of_mem _ hw')), one, if_pos]
      by_cases hw : w.pia = q
      · exact .inl (h w List.mem_cons_self hw)
      · exact .inr hw

/-! ### What a refresh shows and a transition latches -/

/-- A port write leaves every other port alone. -/
theorem Chipset.setPort_port_other (c : Chipset) {id q : PortId} (v : Port) (h : q ≠ id) :
    (c.setPort id v).port q = c.port q := by
  cases id with
  | pia p =>
    cases q with
    | pia q =>
      have hq : q ≠ p := fun e => h (congrArg PortId.pia e)
      simp only [Chipset.setPort, Chipset.port, Chipset.setPia_pia_other c _ hq]
    | viaA => cases p <;> rfl
    | viaB => cases p <;> rfl
  | viaA => cases q with
    | viaA => exact absurd rfl h
    | pia q => cases q <;> rfl
    | viaB => rfl
  | viaB => cases q with
    | viaB => exact absurd rfl h
    | pia q => cases q <;> rfl
    | viaA => rfl

/-- An input latch write changes the input latch of its port and nothing else of any port. -/
theorem Chipset.setInput_port (c : Chipset) (id q : PortId) (v : Byte) :
    (c.setInput id v).port q = if q = id then { c.port q with inp := v } else c.port q := by
  unfold Chipset.setInput
  split
  · rename_i h
    subst h
    rw [Chipset.setPort_port_self]
  · rename_i h
    rw [Chipset.setPort_port_other _ _ h]

/-- Setting bit `k` changes that bit and no other. -/
theorem setBit_getLsbD (b : Byte) (k j : Nat) (v : Bool) (h : j < 8) :
    (setBit b k v).getLsbD j = if j = k then v else b.getLsbD j := by
  unfold setBit
  by_cases hk : k < 8
  · revert v
    rcases (by omega : k = 0 ∨ k = 1 ∨ k = 2 ∨ k = 3 ∨ k = 4 ∨ k = 5 ∨ k = 6 ∨ k = 7) with
        rfl | rfl | rfl | rfl | rfl | rfl | rfl | rfl <;>
      rcases (by omega : j = 0 ∨ j = 1 ∨ j = 2 ∨ j = 3 ∨ j = 4 ∨ j = 5 ∨ j = 6 ∨ j = 7) with
        rfl | rfl | rfl | rfl | rfl | rfl | rfl | rfl <;>
      intro v <;> cases v <;> simp
  · have hz : (1#8 <<< k) = 0#8 := by
      apply BitVec.eq_of_getLsbD_eq
      intro i hi
      simp
      omega
    rw [if_neg (show ¬ j = k by omega), hz]
    have hj : (255#8).getLsbD j = true := by revert h; revert j; decide
    cases v <;> simp [hj, h]

/-- A refresh: the column port, the data-in port, then the wires in their order. -/
theorem Devices.refreshInputs_eq (cfg : Config) (d : Devices) :
    d.refreshInputs cfg = d.setChip (cfg.chipset.inWires.foldl
      (fun c w => c.setInput w.port (setBit (c.port w.port).inp w.bit (d.signal w.signal != w.invert)))
      ((d.chip.setInput cfg.chipset.columnPort (d.keys.read cfg.keyDownLevel)).setInput cfg.chipset.dataInPort d.bus.data)) := rfl

/-- Setting wired bits changes input latches only: a bit without a wire keeps its value, a bit with one wire shows it. -/
theorem foldl_wires (sig : InWire → Bool) (l : List InWire) (c : Chipset) (id : PortId) {k : Nat} (hk : k < 8) :
    (((l.foldl (fun c w => c.setInput w.port (setBit (c.port w.port).inp w.bit (sig w))) c).port id).out = (c.port id).out ∧
     ((l.foldl (fun c w => c.setInput w.port (setBit (c.port w.port).inp w.bit (sig w))) c).port id).ddr = (c.port id).ddr) ∧
    ((∀ w ∈ l, w.port = id → w.bit ≠ k) →
      ((l.foldl (fun c w => c.setInput w.port (setBit (c.port w.port).inp w.bit (sig w))) c).port id).inp.getLsbD k =
        (c.port id).inp.getLsbD k) ∧
    (∀ w, w.port = id → w.bit = k → (∀ w' ∈ l, w'.port = id → w'.bit = k → w' = w) →
      (w ∈ l ∨ (c.port id).inp.getLsbD k = sig w) →
      ((l.foldl (fun c w => c.setInput w.port (setBit (c.port w.port).inp w.bit (sig w))) c).port id).inp.getLsbD k = sig w) := by
  have one (c : Chipset) (w : InWire) :
      ((c.setInput w.port (setBit (c.port w.port).inp w.bit (sig w))).port id).inp.getLsbD k =
        if id = w.port ∧ k = w.bit then sig w else (c.port id).inp.getLsbD k := by
    rw [Chipset.setInput_port]
    by_cases h : id = w.port
    · subst h
      rw [if_pos rfl]
      dsimp only
      rw [setBit_getLsbD _ _ _ _ hk]
      simp
    · rw [if_neg h, if_neg (fun hh => h hh.1)]
  have frame (c : Chipset) (w : InWire) :
      ((c.setInput w.port (setBit (c.port w.port).inp w.bit (sig w))).port id).out = (c.port id).out ∧
      ((c.setInput w.port (setBit (c.port w.port).inp w.bit (sig w))).port id).ddr = (c.port id).ddr := by
    rw [Chipset.setInput_port]
    split <;> exact ⟨rfl, rfl⟩
  induction l generalizing c with
  | nil => exact ⟨⟨rfl, rfl⟩, fun _ => rfl, fun w _ _ _ h => by simpa using h⟩
  | cons a l ih =>
    obtain ⟨ih1, ih2, ih3⟩ := ih (c.setInput a.port (setBit (c.port a.port).inp a.bit (sig a)))
    rw [List.foldl_cons]
    refine ⟨⟨ih1.1.trans (frame c a).1, ih1.2.trans (frame c a).2⟩, fun h => ?_, fun w hp hb hu h => ?_⟩
    · rw [ih2 (fun w hw => h w (List.mem_cons_of_mem _ hw)), one, if_neg]
      rintro ⟨h1, h2⟩
      exact h a List.mem_cons_self h1.symm h2.symm
    · refine ih3 w hp hb (fun w' hw' => hu w' (List.mem_cons_of_mem _ hw')) ?_
      rw [one]
      by_cases hc : id = a.port ∧ k = a.bit
      · rw [if_pos hc, hu a List.mem_cons_self hc.1.symm hc.2.symm]
        exact .inr rfl
      · rw [if_neg hc]
        rcases h with h | h
        · rcases List.mem_cons.1 h with rfl | h
          · exact absurd ⟨hp.symm, hb.symm⟩ hc
          · exact .inl h
        · exact .inr h

/-- A refresh changes input latches only, and leaves the input bits alone that nothing is wired to. -/
theorem Devices.refreshInputs_port (cfg : Config) (d : Devices) (id : PortId) :
    (((d.refreshInputs cfg).chip.port id).out = (d.chip.port id).out ∧
     ((d.refreshInputs cfg).chip.port id).ddr = (d.chip.port id).ddr) ∧
    ∀ k, k < 8 → id ≠ cfg.chipset.dataInPort → id ≠ cfg.chipset.columnPort →
      (∀ w ∈ cfg.chipset.inWires, w.port = id → w.bit ≠ k) →
      ((d.refreshInputs cfg).chip.port id).inp.getLsbD k = (d.chip.port id).inp.getLsbD k := by
  rw [Devices.refreshInputs_eq, Devices.setChip_chip]
  have h := fun k hk => foldl_wires (fun w => d.signal w.signal != w.invert) cfg.chipset.inWires
    ((d.chip.setInput cfg.chipset.columnPort (d.keys.read cfg.keyDownLevel)).setInput cfg.chipset.dataInPort d.bus.data) id
    (k := k) hk
  constructor
  · have h0 := (h 0 (by decide)).1
    rw [h0.1, h0.2, Chipset.setInput_port, Chipset.setInput_port]
    split <;> split <;> exact ⟨rfl, rfl⟩
  · intro k hk h1 h2 hw
    rw [(h k hk).2.1 hw, Chipset.setInput_port, Chipset.setInput_port, if_neg h1, if_neg h2]

/-- After a refresh the input latches show what is wired to them. -/
theorem Devices.refreshInputs_shows (cfg : Config) (d : Devices) : (d.refreshInputs cfg).InputsShow cfg := by
  have hr : (d.refreshInputs cfg).chip.retrace = d.chip.retrace := by
    rw [Devices.refreshInputs_eq, Devices.setChip_chip]
    refine foldl_keeps (P := fun c : Chipset => c.retrace = d.chip.retrace) ?_ _ ?_
    · intro c w hc
      simpa [Chipset.setInput] using hc
    · simp [Chipset.setInput]
  have hs (w : InWire) : d.signal w.signal = (match w.signal with
      | .line l => (d.refreshInputs cfg).bus.level l
      | .retrace => (d.refreshInputs cfg).chip.retrace) := by
    rw [hr]
    unfold Devices.signal
    cases w.signal <;> rfl
  have h := fun id k hk => foldl_wires (fun w => d.signal w.signal != w.invert) cfg.chipset.inWires
    ((d.chip.setInput cfg.chipset.columnPort (d.keys.read cfg.keyDownLevel)).setInput cfg.chipset.dataInPort d.bus.data) id
    (k := k) hk
  refine ⟨fun w hw hk hu => ?_, fun k hk hn => ?_, fun k hk hne hn => ?_⟩
  · exact ((h w.port w.bit hk).2.2 w rfl rfl hu (.inl hw)).trans (congrArg (· != w.invert) (hs w))
  · refine ((h _ k hk).2.1 (fun w hw hp hb => hn ⟨w, hw, hp, hb⟩)).trans ?_
    rw [Chipset.setInput_port, if_pos rfl]
    rfl
  · refine ((h _ k hk).2.1 (fun w hw hp hb => hn ⟨w, hw, hp, hb⟩)).trans ?_
    rw [Chipset.setInput_port, if_neg hne, Chipset.setInput_port, if_pos rfl]
    rfl

/-- Latching leaves every port alone. -/
theorem Devices.latchEdges_port (cfg : Config) (before : Bus) (d : Devices) (id : PortId) :
    (d.latchEdges cfg before).chip.port id = d.chip.port id := by
  unfold Devices.latchEdges
  rw [Devices.setChip_chip]
  refine foldl_keeps (P := fun c : Chipset => c.port id = d.chip.port id) ?_ _ rfl
  intro c w hc
  split
  · exact hc
  · rw [Chipset.setCr_port]
    exact hc

/-- The two flags after an edge; the bits that select the edge stay. -/
theorem latchEdge_bits (cr : Byte) (second level : Bool) :
    (latchEdge cr second level).getLsbD 7 = (cr.getLsbD 7 || (!second && level == cr.getLsbD 1)) ∧
    (latchEdge cr second level).getLsbD 6 = (cr.getLsbD 6 || (second && !cr.getLsbD 5 && level == cr.getLsbD 4)) ∧
    (latchEdge cr second level).getLsbD 1 = cr.getLsbD 1 ∧ (latchEdge cr second level).getLsbD 4 = cr.getLsbD 4 ∧
    (latchEdge cr second level).getLsbD 5 = cr.getLsbD 5 := by
  unfold latchEdge
  revert cr
  cases second <;> cases level <;> decide

/-- After latching, each control register has the edges of the lines it watches. -/
theorem Devices.latchEdges_latched (cfg : Config) (before : Bus) (d : Devices) (q : PiaId) :
    (d.latchEdges cfg before).EdgesLatched cfg before q (d.chip.pia q).cr := by
  unfold Devices.EdgesLatched edgeSeen
  refine ⟨(Devices.latchEdges_frame cfg before d q).2, ?_⟩
  unfold Devices.latchEdges
  rw [Devices.setChip_chip]
  rw [Devices.setChip_bus]
  generalize d.chip = c
  generalize cfg.chipset.handshakeIn = l
  induction l generalizing c with
  | nil => simp
  | cons w l ih =>
    rw [List.foldl_cons, (ih _).1, (ih _).2, List.any_cons, List.any_cons]
    by_cases hl : before.level w.line = d.bus.level w.line
    · rw [if_pos hl]
      simp [hl]
    · rw [if_neg hl]
      by_cases hq : w.pia = q
      · subst hq
        rw [Chipset.setCr_cr_self]
        obtain ⟨h7, h6, h1, h4, h5⟩ := latchEdge_bits (c.pia w.pia).cr w.second (d.bus.level w.line)
        rw [h7, h6, h1, h4, h5]
        have hn : (before.level w.line != d.bus.level w.line) = true := bne_iff_ne.2 hl
        rw [hn, beq_self_eq_true]
        generalize l.any _ = e7
        generalize l.any _ = e6
        generalize (c.pia w.pia).cr.getLsbD 7 = b7, (c.pia w.pia).cr.getLsbD 6 = b6, (c.pia w.pia).cr.getLsbD 5 = b5,
          (c.pia w.pia).cr.getLsbD 4 = b4, (c.pia w.pia).cr.getLsbD 1 = b1, d.bus.level w.line = level, w.second = second
        clear hn hl ih
        revert e7 e6 b7 b6 b5 b4 b1 level second
        decide
      · rw [Chipset.setCr, Chipset.setPia_pia_other _ _ (Ne.symm hq), beq_eq_false_iff_ne.2 hq]
        simp

/-- What a transition leaves in the Chipset: ports but for the input latches as they were, edges latched, inputs shown. -/
theorem Devices.settle_latched (cfg : Config) (before : Bus) (d : Devices) (q : PiaId) :
    (d.settle cfg before).EdgesLatched cfg before q (d.chip.pia q).cr := by
  have h := d.latchEdges_latched cfg before q
  unfold Devices.EdgesLatched at h ⊢
  unfold Devices.settle
  rw [(Devices.refreshInputs_frame _ _ _).2.2]
  exact h

theorem Devices.settle_shows (cfg : Config) (before : Bus) (d : Devices) : (d.settle cfg before).InputsShow cfg :=
  Devices.refreshInputs_shows cfg _

theorem Devices.settle_port (cfg : Config) (before : Bus) (d : Devices) (id : PortId) :
    (((d.settle cfg before).chip.port id).out = (d.chip.port id).out ∧
     ((d.settle cfg before).chip.port id).ddr = (d.chip.port id).ddr) ∧
    ∀ k, k < 8 → id ≠ cfg.chipset.dataInPort → id ≠ cfg.chipset.columnPort →
      (∀ w ∈ cfg.chipset.inWires, w.port = id → w.bit ≠ k) →
      ((d.settle cfg before).chip.port id).inp.getLsbD k = (d.chip.port id).inp.getLsbD k := by
  have h := (d.latchEdges cfg before).refreshInputs_port cfg id
  rw [Devices.latchEdges_port] at h
  exact h

/-! ### What lies outside the ports -/

/-- An input latch write changes nothing but the input latches. -/
theorem Chipset.setInput_withoutInputs (c : Chipset) (id : PortId) (v : Byte) :
    (c.setInput id v).withoutInputs = c.withoutInputs := by
  cases id with
  | pia p => cases p <;> rfl
  | viaA => rfl
  | viaB => rfl

/-- A refresh changes nothing but the input latches. -/
theorem Devices.refreshInputs_withoutInputs (cfg : Config) (d : Devices) :
    (d.refreshInputs cfg).chip.withoutInputs = d.chip.withoutInputs := by
  rw [Devices.refreshInputs_eq, Devices.setChip_chip]
  refine foldl_keeps (P := fun c : Chipset => c.withoutInputs = d.chip.withoutInputs) ?_ _ ?_
  · exact fun c w hc => (c.setInput_withoutInputs _ _).trans hc
  · exact (Chipset.setInput_withoutInputs _ _ _).trans (Chipset.setInput_withoutInputs _ _ _)

/-- A port write changes nothing outside the ports. -/
theorem Chipset.setPort_withPorts (c e : Chipset) (id : PortId) (v : Port) :
    (c.setPort id v).withPorts e = c.withPorts e := by
  cases id with
  | pia p => cases p <;> rfl
  | viaA => rfl
  | viaB => rfl

/-- Nor does a control register write. -/
theorem Chipset.setCr_withPorts (c e : Chipset) (p : PiaId) (v : Byte) : (c.setCr p v).withPorts e = c.withPorts e := by
  cases p <;> rfl

/-- Nor does what a transition leaves in the Chipset. -/
theorem Devices.settle_withPorts (cfg : Config) (before : Bus) (d : Devices) (e : Chipset) :
    (d.settle cfg before).chip.withPorts e = d.chip.withPorts e := by
  unfold Devices.settle
  rw [Devices.refreshInputs_eq, Devices.setChip_chip]
  refine foldl_keeps (P := fun c : Chipset => c.withPorts e = d.chip.withPorts e) ?_ _ ?_
  · exact fun c w hc => (c.setPort_withPorts e _ _).trans hc
  · refine (Chipset.setPort_withPorts _ _ _ _).trans ((Chipset.setPort_withPorts _ _ _ _).trans ?_)
    unfold Devices.latchEdges
    rw [Devices.setChip_chip]
    refine foldl_keeps (P := fun c : Chipset => c.withPorts e = d.chip.withPorts e) ?_ _ rfl
    intro c w hc
    split
    · exact hc
    · exact (c.setCr_withPorts e _ _).trans hc

/-- What a control write does before the Chipset settles: the control register, the blanking level, bus and Storage. -/
theorem Devices.writeControl_eq (cfg : Config) (p : PiaId) (v : Byte) (d : Devices) :
    ∃ e : Devices, d.writeControl cfg p v = e.settle cfg d.bus ∧ e.keys = d.keys ∧
      ∃ level, e.chip =
        { d.chip.setCr p (((d.chip.pia p).cr &&& 0xC0) ||| (v &&& 0x3F)) with blankLevel := level } := by
  unfold Devices.writeControl
  refine ⟨_, rfl, ?_⟩
  split
  · rename_i level _
    refine foldl_keeps (P := fun e : Devices => e.keys = d.keys ∧ ∃ level, e.chip =
      { d.chip.setCr p (((d.chip.pia p).cr &&& 0xC0) ||| (v &&& 0x3F)) with blankLevel := level }) ?_ _ ⟨rfl, _, rfl⟩
    rintro e h ⟨hk, b, hc⟩
    unfold Devices.forwardHandshake
    split
    · rw [(Devices.lineOut_frame _ _ _ _).1, (Devices.lineOut_frame _ _ _ _).2]
      exact ⟨hk, b, hc⟩
    · rw [(Devices.setBlanking_frame _ _ _).1, (Devices.setBlanking_frame _ _ _).2, hc]
      exact ⟨hk, _, rfl⟩
  · exact ⟨rfl, _, rfl⟩

/-! ### tick() -/

theorem Chipset.tickRetrace_tickCount (cfg : Config) (c : Chipset) :
    (c.tickRetrace cfg).tickCount = (c.tickCount + 1) % 20 := by
  unfold Chipset.tickRetrace
  dsimp only
  split <;> simp [Chipset.setCr]

theorem Chipset.tickTimer1_tickCount (cfg : Config) (c : Chipset) : (c.tickTimer1 cfg).2.tickCount = c.tickCount := by
  unfold Chipset.tickTimer1
  dsimp only
  split
  · split
    · split <;> rfl
    · rfl
  · rfl

theorem Chipset.tickTimer2_tickCount (cfg : Config) (c : Chipset) : (c.tickTimer2 cfg).2.tickCount = c.tickCount := by
  unfold Chipset.tickTimer2
  split
  · split <;> rfl
  · rfl

/-- Timer 1 changes its counter, its arming and the flags only. -/
theorem Chipset.tickTimer1_state (cfg : Config) (c : Chipset) :
    ∃ k a i, (c.tickTimer1 cfg).2 = { c with counter1 := k, active1 := a, ifr := i } := by
  unfold Chipset.tickTimer1
  dsimp only
  repeat' split
  all_goals exact ⟨_, _, _, rfl⟩

/-- Timer 2 likewise. -/
theorem Chipset.tickTimer2_state (cfg : Config) (c : Chipset) :
    ∃ k a i, (c.tickTimer2 cfg).2 = { c with counter2 := k, active2 := a, ifr := i } := by
  unfold Chipset.tickTimer2
  repeat' split
  all_goals exact ⟨_, _, _, rfl⟩

/-- A tick after its retrace part: counters, arming and flags only. -/
theorem Chipset.tick_state (cfg : Config) (c : Chipset) :
    ∃ k1 a1 k2 a2 i, (c.tick cfg).2 =
      { c.tickRetrace cfg with counter1 := k1, active1 := a1, counter2 := k2, active2 := a2, ifr := i } := by
  obtain ⟨k1, a1, i1, h1⟩ := Chipset.tickTimer1_state cfg (c.tickRetrace cfg)
  obtain ⟨k2, a2, i2, h2⟩ := Chipset.tickTimer2_state cfg ((c.tickRetrace cfg).tickTimer1 cfg).2
  refine ⟨k1, a1, k2, a2, (c.tick cfg).2.ifr, ?_⟩
  have ht : (c.tick cfg).2 = (((c.tickRetrace cfg).tickTimer1 cfg).2.tickTimer2 cfg).2.aggregate := rfl
  rw [ht, h2, h1]
  rfl

end Sys2Proof.Machine
end

