-- ==== Sys2Proof/Laws/Step.lean ====
section
/-! SUPPORT. What a step can do: its two cases; which parts of the state each shared operation leaves alone; and the one
induction through every instruction, that what each memory access and each tick keeps, a step keeps. -/

namespace Sys2Proof.Machine

/-! ### The step's cases -/

/-- Before the first `reset()` or `start_at()` a step is refused. -/
theorem step_notReset {s : State} (h : s.started = false) : step s = .refused .notReset := by
  simp [step, cpuStep, h]

/-- A step that answers a next state is one stalled cycle or one instruction of a started machine, and then the loop's
accounting. -/
theorem step_cases {s t : State} (h : step s = .next t) :
    s.started = true ∧ ((0 < s.stall ∧ t = s.idleCycle.elapse 1) ∨
      (s.stall = 0 ∧ ∃ u, exec s.begin.1 s.begin.2 = .next u ∧ t = u.elapse (u.cycles - s.cycles))) := by
  cases hb : s.started with
  | false => rw [step_notReset hb] at h; cases h
  | true => ?_
  refine ⟨rfl, ?_⟩
  unfold step cpuStep at h
  rw [if_pos hb] at h
  by_cases hs : 0 < s.stall
  · rw [if_pos hs] at h
    simp only [Host.Outcome.next.injEq] at h
    refine .inl ⟨hs, ?_⟩
    rw [← h]
    congr 1
    show s.cycles + 1 - s.cycles = 1
    omega
  · rw [if_neg hs] at h
    refine .inr ⟨by omega, ?_⟩
    cases he : exec s.begin.1 s.begin.2 with
    | next u =>
      rw [he] at h
      simp only [Host.Outcome.next.injEq] at h
      exact ⟨u, rfl, h.symm⟩
    | fault r => rw [he] at h; cases h
    | refused r => rw [he] at h; cases h

/-- The loop's accounting changes the pending tag, devices and the budget only. -/
theorem State.elapse_state (s : State) (n : Nat) :
    ∃ p d b, s.elapse n = { s with pending := p, dev := d, budget := b } := by
  obtain ⟨p, d, h⟩ := State.ticks_state ((s.budget + n) / s.config.tickCycles)
    { s with budget := (s.budget + n) % s.config.tickCycles }
  exact ⟨p, d, _, h⟩

/-- Service of a pending interrupt changes memory, devices, `PC`, SP, I, the pending tag and `cycles` only. -/
theorem State.service_state (s : State) :
    ∃ m d pc sp i, s.service =
      { s with mem := m, dev := d, pc := pc, sp := sp, flags := { s.flags with i := i }, pending := .none,
               cycles := s.cycles + (if s.pending = .none then 0 else 7) } := by
  unfold State.service
  split
  · rename_i h
    refine ⟨s.mem, s.dev, s.pc, s.sp, s.flags.i, ?_⟩
    cases s
    cases h
    rfl
  · rename_i hp
    obtain ⟨m, d, pc, h⟩ := State.interrupt_state s s.config.nmiVector s.config.irqPushedB
    exact ⟨m, d, pc, _, true, by simp only [h, State.addCycles, hp]; rfl⟩
  · rename_i hp
    obtain ⟨m, d, pc, h⟩ := State.interrupt_state s s.config.irqVector s.config.irqPushedB
    exact ⟨m, d, pc, _, true, by simp only [h, State.addCycles, hp]; rfl⟩

/-- A branch changes `PC` and `cycles` only. -/
theorem State.branch_state (s : State) (i : Instr) (d8 : Byte) (taken : Bool) :
    ∃ c pc, s.branch i d8 taken = { s with cycles := c, pc := pc } := by
  unfold State.branch
  cases taken <;> exact ⟨_, _, rfl⟩

/-! ### What every access keeps, a step keeps -/

/-- `Q` of the memory and `R` of the devices are kept by every access under `cfg`. -/
structure Stable (cfg : Config) (Q : List Host.Cell → Prop) (R : Devices → Prop) : Prop where
  writeMem : ∀ mem dev a v, Q mem → Q (writeAt cfg mem dev a v).1
  writeDev : ∀ mem dev a v, R dev → R (writeAt cfg mem dev a v).2
  readDev : ∀ mem dev a, R dev → R (readAt cfg mem dev a).2

/-- The state has parameters `cfg` and the started mark `on`, its memory `Q` and its devices `R`. -/
structure Holds (cfg : Config) (on : Bool) (Q : List Host.Cell → Prop) (R : Devices → Prop) (s : State) : Prop where
  config : s.config = cfg
  started : s.started = on
  mem : Q s.mem
  dev : R s.dev

variable {cfg : Config} {on : Bool} {Q : List Host.Cell → Prop} {R : Devices → Prop}

theorem Holds.congr {s t : State} (h : Holds cfg on Q R s) (hc : t.config = s.config)
    (hs : t.started = s.started) (hm : t.mem = s.mem) (hd : t.dev = s.dev) : Holds cfg on Q R t :=
  ⟨hc.trans h.config, hs.trans h.started, hm ▸ h.mem, hd ▸ h.dev⟩

namespace Stable

theorem get (hst : Stable cfg Q R) {s : State} (h : Holds cfg on Q R s) (a : Addr) : Holds cfg on Q R (s.get a).2 := by
  obtain ⟨rfl, rfl, hm, hd⟩ := h
  exact ⟨rfl, rfl, hm, hst.readDev _ _ _ hd⟩

theorem set (hst : Stable cfg Q R) {s : State} (h : Holds cfg on Q R s) (a : Addr) (v : Byte) :
    Holds cfg on Q R (s.set a v) := by
  obtain ⟨rfl, rfl, hm, hd⟩ := h
  exact ⟨rfl, rfl, hst.writeMem _ _ _ _ hm, hst.writeDev _ _ _ _ hd⟩

theorem push (hst : Stable cfg Q R) {s : State} (h : Holds cfg on Q R s) (v : Byte) : Holds cfg on Q R (s.push v) := by
  rw [State.push_state]
  exact (hst.set h _ v).congr rfl rfl rfl rfl

theorem pull (hst : Stable cfg Q R) {s : State} (h : Holds cfg on Q R s) : Holds cfg on Q R s.pull.2 := by
  rw [State.pull_state]
  exact (hst.get h _).congr rfl rfl rfl rfl

theorem pullFlags (hst : Stable cfg Q R) {s : State} (h : Holds cfg on Q R s) : Holds cfg on Q R s.pullFlags :=
  (hst.pull h).congr rfl rfl rfl rfl

theorem push16 (hst : Stable cfg Q R) {s : State} (h : Holds cfg on Q R s) (w : Addr) : Holds cfg on Q R (s.push16 w) :=
  hst.push (hst.push h _) _

theorem pull16 (hst : Stable cfg Q R) {s : State} (h : Holds cfg on Q R s) : Holds cfg on Q R s.pull16.2 :=
  hst.pull (hst.pull h)

theorem read16 (hst : Stable cfg Q R) {s : State} (h : Holds cfg on Q R s) (a : Addr) : Holds cfg on Q R (s.read16 a).2 :=
  hst.get (hst.get h _) _

theorem read16Wrap (hst : Stable cfg Q R) {s : State} (h : Holds cfg on Q R s) (p : Addr) :
    Holds cfg on Q R (s.read16Wrap p).2 :=
  hst.get (hst.get h _) _

theorem interrupt (hst : Stable cfg Q R) {s : State} (h : Holds cfg on Q R s) (vector : Addr) (brk : Bool) :
    Holds cfg on Q R (s.interrupt vector brk) := by
  have hp := hst.push (hst.push16 h s.pc) (s.flags.pushed brk)
  have hf : Holds cfg on Q R (((s.push16 s.pc).push (s.flags.pushed brk)).setFlags { s.flags with i := true }) :=
    hp.congr rfl rfl rfl rfl
  exact (hst.read16 hf vector).congr rfl rfl rfl rfl

theorem service (hst : Stable cfg Q R) {s : State} (h : Holds cfg on Q R s) : Holds cfg on Q R s.service := by
  unfold State.service
  split
  · exact h
  · exact (hst.interrupt h s.config.nmiVector s.config.irqPushedB).congr rfl rfl rfl rfl
  · exact (hst.interrupt h s.config.irqVector s.config.irqPushedB).congr rfl rfl rfl rfl

theorem fetch (hst : Stable cfg Q R) {s : State} (h : Holds cfg on Q R s) : Holds cfg on Q R s.fetch.2 := by
  unfold State.fetch
  dsimp only
  split
  · exact hst.get h _
  · exact hst.get (hst.get h _) _
  · exact hst.get (hst.get (hst.get h _) _) _

theorem resolve (hst : Stable cfg Q R) {s : State} (h : Holds cfg on Q R s) (o : Operand) :
    Holds cfg on Q R (s.resolve o).2 := by
  cases o <;> first | exact h | exact hst.read16Wrap h _

theorem enter (hst : Stable cfg Q R) {s : State} (h : Holds cfg on Q R s) (o : Operand) (size : Nat) (c : CycleColumns) :
    Holds cfg on Q R (s.enter o size c).2 :=
  (hst.resolve h o).congr rfl rfl rfl rfl

theorem loadOperand (hst : Stable cfg Q R) {s : State} (h : Holds cfg on Q R s) (o : Operand) (ea : Addr) :
    Holds cfg on Q R (s.loadOperand o ea).2 := by
  cases o <;> first | exact h | exact hst.get h _

theorem storeOperand (hst : Stable cfg Q R) {s : State} (h : Holds cfg on Q R s) (o : Operand) (ea : Addr) (v : Byte) :
    Holds cfg on Q R (s.storeOperand o ea v) := by
  cases o <;> first | exact h.congr rfl rfl rfl rfl | exact hst.set h _ _

theorem readOperand (hst : Stable cfg Q R) {s : State} (h : Holds cfg on Q R s) (i : Instr) (o : Operand) :
    Holds cfg on Q R (s.readOperand i o).2 :=
  hst.loadOperand (hst.enter h _ _ _) _ _

theorem writeOperand (hst : Stable cfg Q R) {s : State} (h : Holds cfg on Q R s) (i : Instr) (o : Operand)
    (v : Byte) : Holds cfg on Q R (s.writeOperand i o v) :=
  hst.storeOperand (hst.enter h _ _ _) _ _ _

theorem modifyOperand (hst : Stable cfg Q R) {s : State} (h : Holds cfg on Q R s) (i : Instr) (o : Operand)
    (f : Byte → Flags → AluResult) : Holds cfg on Q R (s.modifyOperand i o f) :=
  (hst.storeOperand (hst.loadOperand (hst.enter h o (modeSize o.mode) (columnsOf s.config i)) _ _) _ _ _).congr
    rfl rfl rfl rfl

theorem fetchOperand (hst : Stable cfg Q R) {s : State} (h : Holds cfg on Q R s) (m : Mode) :
    Holds cfg on Q R (s.fetchOperand m).2 := by
  cases m <;> first | exact h | exact hst.get h _ | exact hst.get (hst.get h _) _

theorem enterImplied {s : State} (h : Holds cfg on Q R s) (i : Instr) : Holds cfg on Q R (s.enterImplied i) :=
  h.congr rfl rfl rfl rfl

/-- Every instruction keeps what every access keeps. -/
theorem exec (hst : Stable cfg Q R) {i : Instr} {s t : State} (h : Holds cfg on Q R s)
    (he : Machine.exec i s = .next t) : Holds cfg on Q R t := by
  cases i with
  | lda o | ldx o | ldy o | adc o | sbc o | cmp o | cpx o | cpy o | and o | ora o | eor o | bit o =>
    simp only [Machine.exec, execLda, execLdx, execLdy, execAdc, execSbc, execCmp, execCpx, execCpy, execAnd, execOra,
      execEor, execBit, Host.Outcome.next.injEq] at he
    subst he
    exact (hst.readOperand h _ o).congr rfl rfl rfl rfl
  | sta o | stx o | sty o =>
    simp only [Machine.exec, execSta, execStx, execSty, Host.Outcome.next.injEq] at he
    subst he
    exact hst.writeOperand h _ _ _
  | inc o | dec o | asl o | lsr o | rol o | ror o =>
    simp only [Machine.exec, execInc, execDec, execAsl, execLsr, execRol, execRor, Host.Outcome.next.injEq] at he
    subst he
    exact hst.modifyOperand h _ _ _
  | ill op =>
    simp only [Machine.exec, execIll, Host.Outcome.next.injEq] at he
    subst he
    exact (hst.enter (hst.fetchOperand h _) _ _ _).congr rfl rfl rfl rfl
  | jmp o =>
    simp only [Machine.exec, execJmp, Host.Outcome.next.injEq] at he
    subst he
    exact (hst.enter h o 3 (columnsOf s.config (.jmp o))).congr rfl rfl rfl rfl
  | bcc d8 | bcs d8 | beq d8 | bmi d8 | bne d8 | bpl d8 | bvc d8 | bvs d8 =>
    simp only [Machine.exec, execBcc, execBcs, execBeq, execBmi, execBne, execBpl, execBvc, execBvs,
      Host.Outcome.next.injEq] at he
    obtain ⟨c, p, hs⟩ := State.branch_state s _ d8 _
    rw [hs] at he
    subst he
    exact h.congr rfl rfl rfl rfl
  | brk =>
    simp only [Machine.exec, execBrk, Host.Outcome.next.injEq] at he
    subst he
    exact hst.interrupt (hst.enter h .implied _ _) _ _
  | jsr w =>
    simp only [Machine.exec, execJsr, Host.Outcome.next.injEq] at he
    subst he
    have he := hst.enter h (.absolute w) 3 (columnsOf s.config (.jsr w))
    generalize s.enter (.absolute w) 3 (columnsOf s.config (.jsr w)) = e at he
    have hp := hst.push16 he (e.2.pc - 1)
    generalize e.2.push16 (e.2.pc - 1) = u at hp
    exact hp.congr rfl rfl rfl rfl
  | pha | php =>
    simp only [Machine.exec, execPha, execPhp, Host.Outcome.next.injEq] at he
    subst he
    exact hst.push (enterImplied h _) _
  | pla | plp =>
    simp only [Machine.exec, execPla, execPlp, Host.Outcome.next.injEq] at he
    subst he
    first
      | exact hst.pullFlags (enterImplied h .plp)
      | (have hp := hst.pull (enterImplied h .pla)
         generalize (s.enterImplied .pla).pull = r at hp
         exact hp.congr rfl rfl rfl rfl)
  | rts =>
    simp only [Machine.exec, execRts, Host.Outcome.next.injEq] at he
    subst he
    have hp := hst.pull16 (enterImplied h .rts)
    generalize (s.enterImplied .rts).pull16 = r at hp
    exact hp.congr rfl rfl rfl rfl
  | rti =>
    simp only [Machine.exec, execRti, State.returnFromInterrupt, Host.Outcome.next.injEq] at he
    subst he
    have hp := hst.pull16 (hst.pullFlags (enterImplied h .rti))
    generalize (s.enterImplied .rti).pullFlags.pull16 = r at hp
    exact hp.congr rfl rfl rfl rfl
  | _ =>
    simp only [Machine.exec, execTax, execTay, execTxa, execTya, execTsx, execTxs, execInx, execIny, execDex, execDey,
      execClc, execCld, execCli, execClv, execSec, execSed, execSei, execNop, Host.Outcome.next.injEq] at he
    subst he
    exact h.congr rfl rfl rfl rfl

/-- A step keeps what every access and every tick keeps. -/
theorem step (hst : Stable cfg Q R) (htick : ∀ d, R d → R (d.tick cfg).2) {s t : State} (h : Holds cfg on Q R s)
    (he : Machine.step s = .next t) : Holds cfg on Q R t := by
  have tick : ∀ u : State, Holds cfg on Q R u → Holds cfg on Q R u.tick := by
    rintro u ⟨rfl, rfl, hm, hd⟩
    unfold State.tick State.triggerIrq
    dsimp only
    split
    · split <;> exact ⟨rfl, rfl, hm, htick _ hd⟩
    · exact ⟨rfl, rfl, hm, htick _ hd⟩
  have ticks : ∀ (n : Nat) (u : State), Holds cfg on Q R u → Holds cfg on Q R (State.ticks n u) := by
    intro n
    induction n with
    | zero => exact fun u hu => hu
    | succ n ih => exact fun u hu => ih _ (tick _ hu)
  have elapse : ∀ (n : Nat) (u : State), Holds cfg on Q R u → Holds cfg on Q R (u.elapse n) :=
    fun n u hu => ticks _ _ (hu.congr rfl rfl rfl rfl)
  rcases step_cases he with ⟨-, ⟨-, rfl⟩ | ⟨-, u, hu, rfl⟩⟩
  · exact elapse _ _ (h.congr rfl rfl rfl rfl)
  · exact elapse _ _ (hst.exec (hst.fetch (hst.service h)) hu)

end Stable

end Sys2Proof.Machine
end

