-- ==== Sys2Proof/Laws/Frames.lean ====
section
/-! SUPPORT. The addresses each instruction stores to and accesses, constructor by constructor, so that no proof unfolds the
tables of Safety.lean. -/

namespace Sys2Proof.Machine

/-! ### Stored addresses -/

@[simp] theorem State.storedAddresses_sta (s : State) (o : Operand) :
    s.storedAddresses (.sta o) = [(s.resolve o).1.ea] := rfl

@[simp] theorem State.storedAddresses_stx (s : State) (o : Operand) :
    s.storedAddresses (.stx o) = [(s.resolve o).1.ea] := rfl

@[simp] theorem State.storedAddresses_sty (s : State) (o : Operand) :
    s.storedAddresses (.sty o) = [(s.resolve o).1.ea] := rfl

@[simp] theorem State.storedAddresses_inc (s : State) (o : Operand) :
    s.storedAddresses (.inc o) = [(s.resolve o).1.ea] := rfl

@[simp] theorem State.storedAddresses_dec (s : State) (o : Operand) :
    s.storedAddresses (.dec o) = [(s.resolve o).1.ea] := rfl

@[simp] theorem State.storedAddresses_asl (s : State) (o : Operand) :
    s.storedAddresses (.asl o) = if o = .accumulator then [] else [(s.resolve o).1.ea] := rfl

@[simp] theorem State.storedAddresses_lsr (s : State) (o : Operand) :
    s.storedAddresses (.lsr o) = if o = .accumulator then [] else [(s.resolve o).1.ea] := rfl

@[simp] theorem State.storedAddresses_rol (s : State) (o : Operand) :
    s.storedAddresses (.rol o) = if o = .accumulator then [] else [(s.resolve o).1.ea] := rfl

@[simp] theorem State.storedAddresses_ror (s : State) (o : Operand) :
    s.storedAddresses (.ror o) = if o = .accumulator then [] else [(s.resolve o).1.ea] := rfl

@[simp] theorem State.storedAddresses_pha (s : State) : s.storedAddresses .pha = [stackAddr s.config s.sp] := rfl

@[simp] theorem State.storedAddresses_php (s : State) : s.storedAddresses .php = [stackAddr s.config s.sp] := rfl

@[simp] theorem State.storedAddresses_jsr (s : State) (a16 : Addr) :
    s.storedAddresses (.jsr a16) = [stackAddr s.config s.sp, stackAddr s.config (s.sp - 1)] := rfl

@[simp] theorem State.storedAddresses_brk (s : State) :
    s.storedAddresses .brk = [stackAddr s.config s.sp, stackAddr s.config (s.sp - 1), stackAddr s.config (s.sp - 2)] := rfl

/-! ### Accessed addresses -/

@[simp] theorem State.accessed_lda (s : State) (o : Operand) : s.accessed (.lda o) = s.operandBytes o := rfl

@[simp] theorem State.accessed_ldx (s : State) (o : Operand) : s.accessed (.ldx o) = s.operandBytes o := rfl

@[simp] theorem State.accessed_ldy (s : State) (o : Operand) : s.accessed (.ldy o) = s.operandBytes o := rfl

@[simp] theorem State.accessed_sta (s : State) (o : Operand) : s.accessed (.sta o) = s.operandBytes o := rfl

@[simp] theorem State.accessed_stx (s : State) (o : Operand) : s.accessed (.stx o) = s.operandBytes o := rfl

@[simp] theorem State.accessed_sty (s : State) (o : Operand) : s.accessed (.sty o) = s.operandBytes o := rfl

@[simp] theorem State.accessed_adc (s : State) (o : Operand) : s.accessed (.adc o) = s.operandBytes o := rfl

@[simp] theorem State.accessed_sbc (s : State) (o : Operand) : s.accessed (.sbc o) = s.operandBytes o := rfl

@[simp] theorem State.accessed_cmp (s : State) (o : Operand) : s.accessed (.cmp o) = s.operandBytes o := rfl

@[simp] theorem State.accessed_cpx (s : State) (o : Operand) : s.accessed (.cpx o) = s.operandBytes o := rfl

@[simp] theorem State.accessed_cpy (s : State) (o : Operand) : s.accessed (.cpy o) = s.operandBytes o := rfl

@[simp] theorem State.accessed_inc (s : State) (o : Operand) : s.accessed (.inc o) = s.operandBytes o := rfl

@[simp] theorem State.accessed_dec (s : State) (o : Operand) : s.accessed (.dec o) = s.operandBytes o := rfl

@[simp] theorem State.accessed_and (s : State) (o : Operand) : s.accessed (.and o) = s.operandBytes o := rfl

@[simp] theorem State.accessed_ora (s : State) (o : Operand) : s.accessed (.ora o) = s.operandBytes o := rfl

@[simp] theorem State.accessed_eor (s : State) (o : Operand) : s.accessed (.eor o) = s.operandBytes o := rfl

@[simp] theorem State.accessed_bit (s : State) (o : Operand) : s.accessed (.bit o) = s.operandBytes o := rfl

@[simp] theorem State.accessed_asl (s : State) (o : Operand) : s.accessed (.asl o) = s.operandBytes o := rfl

@[simp] theorem State.accessed_lsr (s : State) (o : Operand) : s.accessed (.lsr o) = s.operandBytes o := rfl

@[simp] theorem State.accessed_rol (s : State) (o : Operand) : s.accessed (.rol o) = s.operandBytes o := rfl

@[simp] theorem State.accessed_ror (s : State) (o : Operand) : s.accessed (.ror o) = s.operandBytes o := rfl

@[simp] theorem State.accessed_jmp (s : State) (o : Operand) : s.accessed (.jmp o) = s.pointerBytes o := rfl

@[simp] theorem State.accessed_pha (s : State) : s.accessed .pha = [stackAddr s.config s.sp] := rfl

@[simp] theorem State.accessed_php (s : State) : s.accessed .php = [stackAddr s.config s.sp] := rfl

@[simp] theorem State.accessed_pla (s : State) : s.accessed .pla = [stackAddr s.config (s.sp + 1)] := rfl

@[simp] theorem State.accessed_plp (s : State) : s.accessed .plp = [stackAddr s.config (s.sp + 1)] := rfl

@[simp] theorem State.accessed_jsr (s : State) (a16 : Addr) :
    s.accessed (.jsr a16) = [stackAddr s.config s.sp, stackAddr s.config (s.sp - 1)] := rfl

@[simp] theorem State.accessed_rts (s : State) :
    s.accessed .rts = [stackAddr s.config (s.sp + 1), stackAddr s.config (s.sp + 2)] := rfl

@[simp] theorem State.accessed_rti (s : State) :
    s.accessed .rti = [stackAddr s.config (s.sp + 1), stackAddr s.config (s.sp + 2), stackAddr s.config (s.sp + 3)] := rfl

@[simp] theorem State.accessed_brk (s : State) :
    s.accessed .brk = [stackAddr s.config s.sp, stackAddr s.config (s.sp - 1), stackAddr s.config (s.sp - 2), s.config.irqVector, s.config.irqVector + 1] := rfl

@[simp] theorem State.accessed_ill (s : State) (op : Byte) :
    s.accessed (.ill op) =
      [s.pc + 1, s.pc + 2] ++ s.pointerBytes (s.fetchOperand (illegalColumns s.config op).mode).1 := rfl

/-! ### Reads that touch no device -/

/-- A pointer fetch outside the window changes nothing. -/
theorem State.read16Wrap_quiet {s : State} {p : Addr} (h : Quiet s.config p) (h' : Quiet s.config (nextInPage p)) :
    (s.read16Wrap p).2 = s := by
  show ((s.get p).2.get _).2 = s
  rw [State.get_quiet h, State.get_quiet h']

/-- Operand resolution whose pointer bytes lie outside the window changes nothing. -/
theorem State.resolve_quiet {s : State} {o : Operand} (h : ∀ a ∈ s.pointerBytes o, Quiet s.config a) :
    (s.resolve o).2 = s := by
  cases o <;> first
    | rfl
    | exact State.read16Wrap_quiet (h _ (by simp [State.pointerBytes])) (h _ (by simp [State.pointerBytes]))

/-- A push outside the window changes no device. -/
theorem State.push_quiet {s : State} (v : Byte) (h : Quiet s.config (stackAddr s.config s.sp)) : (s.push v).dev = s.dev :=
  writeAt_quiet h _ _ _

/-- A pull outside the window changes SP only. -/
theorem State.pull_quiet {s : State} (h : Quiet s.config (stackAddr s.config (s.sp + 1))) :
    s.pull.2 = { s with sp := s.sp + 1 } := by
  rw [State.pull_state]
  simp only [State.get_quiet h]

end Sys2Proof.Machine
end

