-- ==== Sys2Proof/Laws/PerInstr.lean ====
section
/-! SUPPORT. What is said of every instruction as a term, one lemma for each constructor: the encoder has bytes for exactly
the well-formed terms, and the opcode alone tells how many operand bytes follow. -/

namespace Sys2Proof.Laws.Encoding

/-- The encoder accepts exactly the well-formed terms; an encoded term is its opcode followed by its operand bytes, as many
as the decoder reads after that opcode. -/
def Statement (i : Instr) : Prop :=
  (i.wf = true ↔ ∃ op, i.opcode = some op) ∧
  ∀ op, i.opcode = some op →
    encode i = op :: i.operand.bytes ∧ i.operand.bytes.length = operandCount op ∧ (encode i).length = 1 + operandCount op

/-- A well-formed term. -/
theorem statement_of_some {i : Instr} {op : Byte} (hw : i.wf = true) (ho : i.opcode = some op)
    (hn : i.operand.bytes.length = operandCount op) : Statement i := by
  refine ⟨⟨fun _ => ⟨op, ho⟩, fun _ => hw⟩, fun op' ho' => ?_⟩
  rw [ho] at ho'
  cases ho'
  have he : encode i = op :: i.operand.bytes := by
    unfold encode
    rw [ho]
  refine ⟨he, hn, ?_⟩
  rw [he, List.length_cons, hn]
  omega

/-- An ill-formed term. -/
theorem statement_of_none {i : Instr} (hw : i.wf = false) (ho : i.opcode = none) : Statement i := by
  refine ⟨⟨fun h => ?_, fun h => ?_⟩, fun op h => ?_⟩
  · rw [hw] at h
    cases h
  · rw [ho] at h
    obtain ⟨op, h⟩ := h
    cases h
  · rw [ho] at h
    cases h

/-- No operand byte is fetched with an undocumented opcode. -/
theorem operandCount_undocumented (op : Byte) : isUndocumented op = true → operandCount op = 0 := by
  revert op
  decide

theorem lda (o : Operand) : Statement (.lda o) := by
  cases o <;> first | exact statement_of_none rfl rfl | exact statement_of_some rfl rfl rfl

theorem ldx (o : Operand) : Statement (.ldx o) := by
  cases o <;> first | exact statement_of_none rfl rfl | exact statement_of_some rfl rfl rfl

theorem ldy (o : Operand) : Statement (.ldy o) := by
  cases o <;> first | exact statement_of_none rfl rfl | exact statement_of_some rfl rfl rfl

theorem sta (o : Operand) : Statement (.sta o) := by
  cases o <;> first | exact statement_of_none rfl rfl | exact statement_of_some rfl rfl rfl

theorem stx (o : Operand) : Statement (.stx o) := by
  cases o <;> first | exact statement_of_none rfl rfl | exact statement_of_some rfl rfl rfl

theorem sty (o : Operand) : Statement (.sty o) := by
  cases o <;> first | exact statement_of_none rfl rfl | exact statement_of_some rfl rfl rfl

theorem tax : Statement .tax := statement_of_some rfl rfl rfl

theorem tay : Statement .tay := statement_of_some rfl rfl rfl

theorem txa : Statement .txa := statement_of_some rfl rfl rfl

theorem tya : Statement .tya := statement_of_some rfl rfl rfl

theorem tsx : Statement .tsx := statement_of_some rfl rfl rfl

theorem txs : Statement .txs := statement_of_some rfl rfl rfl

theorem pha : Statement .pha := statement_of_some rfl rfl rfl

theorem php : Statement .php := statement_of_some rfl rfl rfl

theorem pla : Statement .pla := statement_of_some rfl rfl rfl

theorem plp : Statement .plp := statement_of_some rfl rfl rfl

theorem adc (o : Operand) : Statement (.adc o) := by
  cases o <;> first | exact statement_of_none rfl rfl | exact statement_of_some rfl rfl rfl

theorem sbc (o : Operand) : Statement (.sbc o) := by
  cases o <;> first | exact statement_of_none rfl rfl | exact statement_of_some rfl rfl rfl

theorem cmp (o : Operand) : Statement (.cmp o) := by
  cases o <;> first | exact statement_of_none rfl rfl | exact statement_of_some rfl rfl rfl

theorem cpx (o : Operand) : Statement (.cpx o) := by
  cases o <;> first | exact statement_of_none rfl rfl | exact statement_of_some rfl rfl rfl

theorem cpy (o : Operand) : Statement (.cpy o) := by
  cases o <;> first | exact statement_of_none rfl rfl | exact statement_of_some rfl rfl rfl

theorem inc (o : Operand) : Statement (.inc o) := by
  cases o <;> first | exact statement_of_none rfl rfl | exact statement_of_some rfl rfl rfl

theorem inx : Statement .inx := statement_of_some rfl rfl rfl

theorem iny : Statement .iny := statement_of_some rfl rfl rfl

theorem dec (o : Operand) : Statement (.dec o) := by
  cases o <;> first | exact statement_of_none rfl rfl | exact statement_of_some rfl rfl rfl

theorem dex : Statement .dex := statement_of_some rfl rfl rfl

theorem dey : Statement .dey := statement_of_some rfl rfl rfl

theorem and (o : Operand) : Statement (.and o) := by
  cases o <;> first | exact statement_of_none rfl rfl | exact statement_of_some rfl rfl rfl

theorem ora (o : Operand) : Statement (.ora o) := by
  cases o <;> first | exact statement_of_none rfl rfl | exact statement_of_some rfl rfl rfl

theorem eor (o : Operand) : Statement (.eor o) := by
  cases o <;> first | exact statement_of_none rfl rfl | exact statement_of_some rfl rfl rfl

theorem bit (o : Operand) : Statement (.bit o) := by
  cases o <;> first | exact statement_of_none rfl rfl | exact statement_of_some rfl rfl rfl

theorem asl (o : Operand) : Statement (.asl o) := by
  cases o <;> first | exact statement_of_none rfl rfl | exact statement_of_some rfl rfl rfl

theorem lsr (o : Operand) : Statement (.lsr o) := by
  cases o <;> first | exact statement_of_none rfl rfl | exact statement_of_some rfl rfl rfl

theorem rol (o : Operand) : Statement (.rol o) := by
  cases o <;> first | exact statement_of_none rfl rfl | exact statement_of_some rfl rfl rfl

theorem ror (o : Operand) : Statement (.ror o) := by
  cases o <;> first | exact statement_of_none rfl rfl | exact statement_of_some rfl rfl rfl

theorem jmp (o : Operand) : Statement (.jmp o) := by
  cases o <;> first | exact statement_of_none rfl rfl | exact statement_of_some rfl rfl rfl

theorem jsr (a16 : Addr) : Statement (.jsr a16) := statement_of_some rfl rfl rfl

theorem rts : Statement .rts := statement_of_some rfl rfl rfl

theorem bcc (d8 : Byte) : Statement (.bcc d8) := statement_of_some rfl rfl rfl

theorem bcs (d8 : Byte) : Statement (.bcs d8) := statement_of_some rfl rfl rfl

theorem beq (d8 : Byte) : Statement (.beq d8) := statement_of_some rfl rfl rfl

theorem bmi (d8 : Byte) : Statement (.bmi d8) := statement_of_some rfl rfl rfl

theorem bne (d8 : Byte) : Statement (.bne d8) := statement_of_some rfl rfl rfl

theorem bpl (d8 : Byte) : Statement (.bpl d8) := statement_of_some rfl rfl rfl

theorem bvc (d8 : Byte) : Statement (.bvc d8) := statement_of_some rfl rfl rfl

theorem bvs (d8 : Byte) : Statement (.bvs d8) := statement_of_some rfl rfl rfl

theorem clc : Statement .clc := statement_of_some rfl rfl rfl

theorem cld : Statement .cld := statement_of_some rfl rfl rfl

theorem cli : Statement .cli := statement_of_some rfl rfl rfl

theorem clv : Statement .clv := statement_of_some rfl rfl rfl

theorem sec : Statement .sec := statement_of_some rfl rfl rfl

theorem sed : Statement .sed := statement_of_some rfl rfl rfl

theorem sei : Statement .sei := statement_of_some rfl rfl rfl

theorem nop : Statement .nop := statement_of_some rfl rfl rfl

theorem brk : Statement .brk := statement_of_some rfl rfl rfl

theorem rti : Statement .rti := statement_of_some rfl rfl rfl

theorem ill (op : Byte) : Statement (.ill op) := by
  by_cases h : isUndocumented op = true
  · exact statement_of_some h (by simp [Instr.opcode, h]) (operandCount_undocumented op h).symm
  · have hf : isUndocumented op = false := by simpa using h
    exact statement_of_none hf (by simp [Instr.opcode, h])

end Sys2Proof.Laws.Encoding
end

