-- ==== Sys2Proof/Laws/Word.lean ====
section
/-! SUPPORT. Bytes and words as numbers, the flag image, `SetZN`, page comparison. -/

namespace Sys2Proof

theorem word_toNat (hi lo : Byte) : (word hi lo).toNat = 256 * hi.toNat + lo.toNat := by
  have h := Nat.two_pow_add_eq_or_of_lt lo.isLt hi.toNat
  simp only [word, BitVec.toNat_append, Nat.shiftLeft_eq]
  rw [Nat.mul_comm, ← h]

theorem lowByte_toNat (a : Addr) : (lowByte a).toNat = a.toNat % 256 := by
  simp [lowByte]

theorem highByte_toNat (a : Addr) : (highByte a).toNat = a.toNat / 256 := by
  have := a.isLt
  simp only [highByte, BitVec.toNat_setWidth, BitVec.toNat_ushiftRight, Nat.shiftRight_eq_div_pow]
  omega

@[simp] theorem highByte_word (hi lo : Byte) : highByte (word hi lo) = hi := by
  apply BitVec.eq_of_toNat_eq
  have := lo.isLt
  rw [highByte_toNat, word_toNat]
  omega

@[simp] theorem lowByte_word (hi lo : Byte) : lowByte (word hi lo) = lo := by
  apply BitVec.eq_of_toNat_eq
  have := lo.isLt
  rw [lowByte_toNat, word_toNat]
  omega

@[simp] theorem word_high_low (a : Addr) : word (highByte a) (lowByte a) = a := by
  apply BitVec.eq_of_toNat_eq
  rw [word_toNat, highByte_toNat, lowByte_toNat]
  omega

/-- The mode of the operand that a mode makes is that mode. -/
@[simp] theorem Mode.operand_mode (m : Mode) (b1 b2 : Byte) : (m.operand b1 b2).mode = m := by
  cases m <;> rfl

end Sys2Proof

namespace Sys2Proof.Machine

theorem nextInPage_toNat (p : Addr) : (nextInPage p).toNat = p.toNat / 256 * 256 + (p.toNat + 1) % 256 := by
  have := p.isLt
  rw [nextInPage, word_toNat, highByte_toNat, BitVec.toNat_add, lowByte_toNat]
  simp
  omega

theorem pageDiffers_eq (a b : Addr) : pageDiffers a b = decide (a.toNat / 256 ≠ b.toNat / 256) := by
  rw [Bool.eq_iff_iff, decide_eq_true_eq, pageDiffers, bne_iff_ne, ne_eq, ne_eq, ← BitVec.toNat_inj, highByte_toNat,
    highByte_toNat]

theorem carryNat_eq (c : Bool) : carryNat c = c.toNat := by
  cases c <;> rfl

end Sys2Proof.Machine
end

