-- ==== Sys2Proof/Tests/Slice0.lean ====
section
/-! SUPPORT. Tests: ill-formed terms, words written out from the spec, one step each from the vectors of
spec/95_test_vectors.md (named by their ids; the expected values are the spec's), and the witnesses of the statements'
hypotheses. -/

namespace Sys2Proof.Machine.Tests

/-! ### Helpers -/

/-- The state with bytes put in memory. -/
def load (cells : List Host.Cell) (s : State) : State :=
  cells.foldl (fun s c => s.store (BitVec.ofNat 16 c.1) c.2) s

/-- Bytes at consecutive addresses. -/
def bytesFrom : Nat → List Byte → List Host.Cell
  | _, [] => []
  | a, b :: bs => (a, b) :: bytesFrom (a + 1) bs

/-- The start state of the vectors: code at `at'`, `PC` there, other cells as given, all else as after reset. -/
def program (at' : Nat) (code : List Byte) (cells : List Host.Cell) : State :=
  load (bytesFrom at' code ++ cells) { State.reset with pc := BitVec.ofNat 16 at' }

/-- A view of the state one step later. -/
def after {α : Type} (s : State) (view : State → α) : Option α :=
  match step s with
  | .next t => some (view t)
  | .fault _ => none
  | .refused _ => none

/-- Whether an instruction answers a next state. -/
def completes (i : Instr) (s : State) : Bool :=
  match exec i s with
  | .next _ => true
  | .fault _ => false
  | .refused _ => false

/-! ### Ill-formed terms are refused -/

theorem test_illformed_reads :
    [Instr.lda .accumulator, .ldx (.zeroPageX 0), .ldy (.zeroPageY 0), .adc .implied, .sbc (.indirect 0),
     .cmp (.zeroPageY 0), .cpx (.absoluteX 0), .cpy (.absoluteY 0), .and (.relative 0), .ora .accumulator,
     .eor (.indirect 0), .bit (.immediate 0)].all (fun i => !i.wf && (encode i).isEmpty) = true := by
  decide

theorem test_illformed_writes :
    [Instr.sta (.immediate 0), .stx (.zeroPageX 0), .sty (.absoluteX 0), .inc .accumulator, .dec (.absoluteY 0),
     .asl (.immediate 0), .lsr (.zeroPageY 0), .rol (.indexedIndirect 0), .ror (.indirectIndexed 0),
     .jmp (.absoluteX 0)].all (fun i => !i.wf && (encode i).isEmpty) = true := by
  decide

theorem test_illformed_undocumented :
    [Instr.ill 0xEA, .ill 0x00, .ill 0x69].all (fun i => !i.wf && (encode i).isEmpty) = true := by
  decide

/-! ### Decoding: words written out from the Encoding lines -/

/-- R100: LDA abs,X is 0xBD = 1011 1101, then the low and the high address byte. -/
theorem test_decode_load : decode [0b10111101, 0b00000001, 0b00100000] = .instr (.lda (.absoluteX 0x2001)) [] := by decide

/-- R104: STX zp,Y is 0x96 = 1001 0110. -/
theorem test_decode_store : decode [0b10010110, 0b11110000] = .instr (.stx (.zeroPageY 0xF0)) [] := by decide

/-- R110: TSX is 0xBA = 1011 1010. -/
theorem test_decode_transfer : decode [0b10111010] = .instr .tsx [] := by decide

/-- R123: PLP is 0x28 = 0010 1000. -/
theorem test_decode_stack : decode [0b00101000] = .instr .plp [] := by decide

/-- R132: SBC (zp),Y is 0xF1 = 1111 0001. -/
theorem test_decode_arithmetic : decode [0b11110001, 0b10000000] = .instr (.sbc (.indirectIndexed 0x80)) [] := by decide

/-- R157: ROR abs is 0x6E = 0110 1110. -/
theorem test_decode_shift : decode [0b01101110, 0b00110100, 0b00010010] = .instr (.ror (.absolute 0x1234)) [] := by decide

/-- R180: BVC is 0x50 = 0101 0000. -/
theorem test_decode_branch : decode [0b01010000, 0b11111110] = .instr (.bvc 0xFE) [] := by decide

/-- R195: SED is 0xF8 = 1111 1000. -/
theorem test_decode_flag : decode [0b11111000] = .instr .sed [] := by decide

/-- R91, R210: 0xFF = 1111 1111 is undocumented. -/
theorem test_decode_undocumented : decode [0b11111111, 0x00] = .instr (.ill 0xFF) [0x00] := by decide

/-- A word of the table is laid out with its first byte lowest. -/
theorem test_decode_table_word :
    decodeTableWord 8 0x6D = some (.adc (.absolute 0x0000)) ∧ decodeTableWord 24 0x20016D = some (.adc (.absolute 0x2001)) := by
  decide

/-! ### One step each, from the vectors -/

/-- V40-8. -/
theorem test_lda_v40_8 :
    after { program 0x0400 [0xA1, 0xFE] [(0x00FF, 0x34), (0x0000, 0x12), (0x0100, 0x99), (0x1234, 0xC3)] with x := 0x01 }
      (fun t => (t.a, t.flags.toByte, t.cycles)) = some (0xC3, 0xA4, 6) := by
  decide

/-- V40-9. -/
theorem test_lda_v40_9 :
    after { program 0x0400 [0xB1, 0xFF] [(0x00FF, 0xFF), (0x0000, 0x12), (0x0100, 0x99), (0x1300, 0x44)] with y := 0x01 }
      (fun t => (t.a, t.flags.toByte, t.cycles)) = some (0x44, 0x24, 6) := by
  decide

/-- V40-11. -/
theorem test_ldx_v40_11 :
    after { program 0x0400 [0xB6, 0x10] [(0x0008, 0x80)] with y := 0xF8 }
      (fun t => (t.x, t.flags.toByte, t.cycles)) = some (0x80, 0xA4, 4) := by
  decide

/-- V40-12. -/
theorem test_ldy_v40_12 :
    after { program 0x0400 [0xBC, 0x00, 0x20] [(0x20FF, 0x00)] with x := 0xFF, y := 0x77 }
      (fun t => (t.y, t.flags.toByte, t.cycles)) = some (0x00, 0x26, 4) := by
  decide

/-- V40-14. -/
theorem test_sta_v40_14 :
    after { program 0x0400 [0x91, 0x20] [(0x0020, 0x01), (0x0021, 0x30)] with a := 0xA5, y := 0xFF }
      (fun t => (t.byteAt 0x3100, t.flags.toByte, t.cycles)) = some (0xA5, 0x24, 6) := by
  decide

/-- V40-13. -/
theorem test_sta_v40_13 :
    after { program 0x0400 [0x9D, 0xFF, 0x20] [] with a := 0x5A, x := 0x01 }
      (fun t => (t.byteAt 0x2100, t.flags.toByte, t.cycles)) = some (0x5A, 0x24, 5) := by
  decide

/-- V40-15. -/
theorem test_stx_v40_15 :
    after { program 0x0400 [0x96, 0xF0] [] with x := 0xC1, y := 0x20 }
      (fun t => (t.byteAt 0x0010, t.flags.toByte, t.cycles)) = some (0xC1, 0x24, 4) := by
  decide

/-- V40-16. -/
theorem test_sty_v40_16 :
    after { program 0x0400 [0x94, 0x10] [] with x := 0x05, y := 0x00, flags := Flags.ofByte 0xA5 }
      (fun t => (t.byteAt 0x0015, t.flags.toByte, t.cycles)) = some (0x00, 0xA5, 4) := by
  decide

/-- V40-17. -/
theorem test_tax_v40_17 :
    after { program 0x0400 [0xAA] [] with a := 0x00, x := 0x33 }
      (fun t => (t.x, t.flags.toByte, t.cycles)) = some (0x00, 0x26, 2) := by
  decide

/-- V40-18. -/
theorem test_tay_v40_18 :
    after { program 0x0400 [0xA8] [] with a := 0xF0 }
      (fun t => (t.y, t.flags.toByte, t.cycles)) = some (0xF0, 0xA4, 2) := by
  decide

/-- V40-19. -/
theorem test_txa_v40_19 :
    after { program 0x0400 [0x8A] [] with a := 0x80, x := 0x7F, flags := Flags.ofByte 0xA4 }
      (fun t => (t.a, t.flags.toByte, t.cycles)) = some (0x7F, 0x24, 2) := by
  decide

/-- V40-20. -/
theorem test_tya_v40_20 :
    after { program 0x0400 [0x98] [] with a := 0x01, y := 0x00 }
      (fun t => (t.a, t.flags.toByte, t.cycles)) = some (0x00, 0x26, 2) := by
  decide

/-- V40-21. -/
theorem test_tsx_v40_21 :
    after { program 0x0400 [0xBA] [] with sp := 0xFD }
      (fun t => (t.x, t.flags.toByte, t.cycles)) = some (0xFD, 0xA4, 2) := by
  decide

/-- V40-23. -/
theorem test_txs_v40_23 :
    after { program 0x0400 [0x9A] [] with x := 0x80 }
      (fun t => (t.sp, t.flags.toByte, t.cycles)) = some (0x80, 0x24, 2) := by
  decide

/-- V41-2. -/
theorem test_pha_v41_2 :
    after { program 0x0400 [0x48] [] with a := 0x3C, sp := 0x00 }
      (fun t => (t.sp, t.byteAt 0x0100, t.flags.toByte, t.cycles)) = some (0xFF, 0x3C, 0x24, 3) := by
  decide

/-- V41-3. -/
theorem test_php_v41_3 :
    after { program 0x0400 [0x08] [] with flags := Flags.ofByte 0x24 }
      (fun t => (t.sp, t.byteAt 0x01FD, t.flags.toByte, t.cycles)) = some (0xFC, 0x34, 0x24, 3) := by
  decide

/-- V41-6. -/
theorem test_pla_v41_6 :
    after { program 0x0400 [0x68] [(0x0100, 0x80)] with sp := 0xFF }
      (fun t => (t.a, t.sp, t.flags.toByte, t.cycles)) = some (0x80, 0x00, 0xA4, 4) := by
  decide

/-- V41-7. -/
theorem test_plp_v41_7 :
    after { program 0x0400 [0x28] [(0x01FD, 0xFF)] with sp := 0xFC }
      (fun t => (t.sp, t.flags.toByte, t.cycles)) = some (0xFD, 0xEF, 4) := by
  decide

/-- V41-9. -/
theorem test_plp_v41_9 :
    after { program 0x0400 [0x28] [(0x01FD, 0x10)] with sp := 0xFC }
      (fun t => (t.sp, t.flags.toByte, t.cycles)) = some (0xFD, 0x20, 4) := by
  decide

/-- V42-4. -/
theorem test_adc_v42_4 :
    after { program 0x0400 [0x69, 0x80] [] with a := 0x80 }
      (fun t => (t.a, t.flags.toByte, t.cycles)) = some (0x00, 0x67, 2) := by
  decide

/-- V42-9. -/
theorem test_sbc_v42_9 :
    after { program 0x0400 [0xE9, 0x01] [] with a := 0x80, flags := Flags.ofByte 0x25 }
      (fun t => (t.a, t.flags.toByte, t.cycles)) = some (0x7F, 0x65, 2) := by
  decide

/-- V42-16. -/
theorem test_cmp_v42_16 :
    after { program 0x0400 [0xC9, 0x00] [] with a := 0x80, flags := Flags.ofByte 0x65 }
      (fun t => (t.flags.toByte, t.cycles)) = some (0xE5, 2) := by
  decide

/-- V42-18. -/
theorem test_cpx_v42_18 :
    after { program 0x0400 [0xE4, 0x10] [(0x0010, 0x0F)] with x := 0x10 }
      (fun t => (t.flags.toByte, t.cycles)) = some (0x25, 3) := by
  decide

/-- V42-19. -/
theorem test_cpy_v42_19 :
    after { program 0x0400 [0xC0, 0xFF] [] with y := 0x00 }
      (fun t => (t.flags.toByte, t.cycles)) = some (0x24, 2) := by
  decide

/-- V42-21. -/
theorem test_inc_v42_21 :
    after { program 0x0400 [0xFE, 0x00, 0x20] [(0x20FF, 0x7F)] with x := 0xFF }
      (fun t => (t.byteAt 0x20FF, t.flags.toByte, t.cycles)) = some (0x80, 0xA4, 7) := by
  decide

/-- V42-24. -/
theorem test_inx_v42_24 :
    after { program 0x0400 [0xE8] [] with x := 0xFF }
      (fun t => (t.x, t.flags.toByte, t.cycles)) = some (0x00, 0x26, 2) := by
  decide

/-- V42-25. -/
theorem test_iny_v42_25 :
    after { program 0x0400 [0xC8] [] with y := 0x7F }
      (fun t => (t.y, t.flags.toByte, t.cycles)) = some (0x80, 0xA4, 2) := by
  decide

/-- V42-23. -/
theorem test_dec_v42_23 :
    after { program 0x0400 [0xD6, 0x10] [(0x0001, 0x01)] with x := 0xF1 }
      (fun t => (t.byteAt 0x0001, t.flags.toByte, t.cycles)) = some (0x00, 0x26, 6) := by
  decide

/-- V42-26. -/
theorem test_dex_v42_26 :
    after { program 0x0400 [0xCA] [] with x := 0x00 }
      (fun t => (t.x, t.flags.toByte, t.cycles)) = some (0xFF, 0xA4, 2) := by
  decide

/-- V42-27. -/
theorem test_dey_v42_27 :
    after { program 0x0400 [0x88] [] with y := 0x01 }
      (fun t => (t.y, t.flags.toByte, t.cycles)) = some (0x00, 0x26, 2) := by
  decide

/-- V43-2. -/
theorem test_and_v43_2 :
    after { program 0x0400 [0x29, 0x80] [] with a := 0xFF }
      (fun t => (t.a, t.flags.toByte, t.cycles)) = some (0x80, 0xA4, 2) := by
  decide

/-- V43-4. -/
theorem test_ora_v43_4 :
    after { program 0x0400 [0x05, 0x10] [(0x0010, 0x80)] with a := 0x01 }
      (fun t => (t.a, t.flags.toByte, t.cycles)) = some (0x81, 0xA4, 3) := by
  decide

/-- V43-6. -/
theorem test_eor_v43_6 :
    after { program 0x0400 [0x49, 0xFF] [] with a := 0x55 }
      (fun t => (t.a, t.flags.toByte, t.cycles)) = some (0xAA, 0xA4, 2) := by
  decide

/-- V43-8. -/
theorem test_bit_v43_8 :
    after { program 0x0400 [0x24, 0x10] [(0x0010, 0x01)] with a := 0x01, flags := Flags.ofByte 0xE4 }
      (fun t => (t.flags.toByte, t.cycles)) = some (0x24, 3) := by
  decide

/-- V43-9. -/
theorem test_bit_v43_9 :
    after { program 0x0400 [0x2C, 0x00, 0x20] [(0x2000, 0x40)] with a := 0xFF }
      (fun t => (t.flags.toByte, t.cycles)) = some (0x64, 4) := by
  decide

/-- V43-11. -/
theorem test_asl_v43_11 :
    after { program 0x0400 [0x0A] [] with a := 0x41, flags := Flags.ofByte 0x25 }
      (fun t => (t.a, t.flags.toByte, t.cycles)) = some (0x82, 0xA4, 2) := by
  decide

/-- V43-12. -/
theorem test_asl_v43_12 :
    after (program 0x0400 [0x06, 0x10] [(0x0010, 0xC0)])
      (fun t => (t.byteAt 0x0010, t.flags.toByte, t.cycles)) = some (0x80, 0xA5, 5) := by
  decide

/-- V43-13. -/
theorem test_lsr_v43_13 :
    after { program 0x0400 [0x4A] [] with a := 0x01 }
      (fun t => (t.a, t.flags.toByte, t.cycles)) = some (0x00, 0x27, 2) := by
  decide

/-- V43-14. -/
theorem test_lsr_v43_14 :
    after { program 0x0400 [0x46, 0x10] [(0x0010, 0xFE)] with flags := Flags.ofByte 0xA5 }
      (fun t => (t.byteAt 0x0010, t.flags.toByte, t.cycles)) = some (0x7F, 0x24, 5) := by
  decide

/-- V43-15. -/
theorem test_rol_v43_15 :
    after { program 0x0400 [0x2A] [] with a := 0x80, flags := Flags.ofByte 0x25 }
      (fun t => (t.a, t.flags.toByte, t.cycles)) = some (0x01, 0x25, 2) := by
  decide

/-- V43-20. -/
theorem test_rol_v43_20 :
    after { program 0x0400 [0x3E, 0xFF, 0x20] [(0x2100, 0xFF)] with x := 0x01 }
      (fun t => (t.byteAt 0x2100, t.flags.toByte, t.cycles)) = some (0xFE, 0xA5, 7) := by
  decide

/-- V43-17. -/
theorem test_ror_v43_17 :
    after { program 0x0400 [0x6A] [] with a := 0x01, flags := Flags.ofByte 0x25 }
      (fun t => (t.a, t.flags.toByte, t.cycles)) = some (0x80, 0xA5, 2) := by
  decide

/-- V43-19. -/
theorem test_ror_v43_19 :
    after { program 0x0400 [0x7E, 0x00, 0x20] [(0x2001, 0x02)] with x := 0x01, flags := Flags.ofByte 0x25 }
      (fun t => (t.byteAt 0x2001, t.flags.toByte, t.cycles)) = some (0x81, 0xA4, 7) := by
  decide

/-- V44-2. -/
theorem test_jmp_v44_2 :
    after (program 0x0400 [0x6C, 0xFF, 0x02] [(0x02FF, 0x34), (0x0200, 0x12), (0x0300, 0x56)])
      (fun t => (t.pc, t.cycles)) = some (0x1234, 5) := by
  decide

/-- V44-6. -/
theorem test_jsr_v44_6 :
    after { program 0x0400 [0x20, 0x00, 0x06] [] with sp := 0x00 }
      (fun t => (t.sp, t.pc, t.byteAt 0x0100, t.byteAt 0x01FF, t.cycles)) = some (0xFE, 0x0600, 0x04, 0x02, 6) := by
  decide

/-- V44-8. -/
theorem test_rts_v44_8 :
    after { program 0x0400 [0x60] [(0x01FC, 0xFF), (0x01FD, 0xFF)] with sp := 0xFB }
      (fun t => (t.sp, t.pc, t.cycles)) = some (0xFD, 0x0000, 6) := by
  decide

/-- V44-22. -/
theorem test_bcc_v44_22 :
    after (program 0xFFFD [0x90, 0x01] [])
      (fun t => (t.pc, t.cycles)) = some (0x0000, 4) := by
  decide

/-- V44-10. -/
theorem test_bcc_v44_10 :
    after { program 0x0400 [0x90, 0x02] [] with flags := Flags.ofByte 0x25 }
      (fun t => (t.pc, t.cycles)) = some (0x0402, 2) := by
  decide

/-- V44-11. -/
theorem test_bcs_v44_11 :
    after { program 0x0400 [0xB0, 0xFC] [] with flags := Flags.ofByte 0x25 }
      (fun t => (t.pc, t.cycles)) = some (0x03FE, 4) := by
  decide

/-- V44-19. -/
theorem test_beq_v44_19 :
    after { program 0x04F0 [0xF0, 0x7F] [] with flags := Flags.ofByte 0x26 }
      (fun t => (t.pc, t.cycles)) = some (0x0571, 4) := by
  decide

/-- V44-14. -/
theorem test_bmi_v44_14 :
    after (program 0x0400 [0x30, 0x10] [])
      (fun t => (t.pc, t.cycles)) = some (0x0402, 2) := by
  decide

/-- V44-15. -/
theorem test_bmi_v44_15 :
    after { program 0x0400 [0x30, 0x10] [] with flags := Flags.ofByte 0xA4 }
      (fun t => (t.pc, t.cycles)) = some (0x0412, 3) := by
  decide

/-- V44-13. -/
theorem test_bne_v44_13 :
    after (program 0x0400 [0xD0, 0xFE] [])
      (fun t => (t.pc, t.cycles)) = some (0x0400, 3) := by
  decide

/-- V44-21. -/
theorem test_bne_v44_21 :
    after (program 0x04FD [0xD0, 0x02] [])
      (fun t => (t.pc, t.cycles)) = some (0x0501, 4) := by
  decide

/-- V44-16. -/
theorem test_bpl_v44_16 :
    after (program 0x0400 [0x10, 0x80] [])
      (fun t => (t.pc, t.cycles)) = some (0x0382, 4) := by
  decide

/-- V44-17. -/
theorem test_bvc_v44_17 :
    after (program 0x0400 [0x50, 0x7F] [])
      (fun t => (t.pc, t.cycles)) = some (0x0481, 3) := by
  decide

/-- V44-18. -/
theorem test_bvs_v44_18 :
    after { program 0x0400 [0x70, 0x7F] [] with flags := Flags.ofByte 0x64 }
      (fun t => (t.pc, t.cycles)) = some (0x0481, 3) := by
  decide

/-- V45-1. -/
theorem test_clc_v45_1 :
    after { program 0x0400 [0x18] [] with flags := Flags.ofByte 0xE7 }
      (fun t => (t.flags.toByte, t.cycles)) = some (0xE6, 2) := by
  decide

/-- V45-2. -/
theorem test_sec_v45_2 :
    after (program 0x0400 [0x38] [])
      (fun t => (t.flags.toByte, t.cycles)) = some (0x25, 2) := by
  decide

/-- V45-3. -/
theorem test_cld_v45_3 :
    after { program 0x0400 [0xD8] [] with flags := Flags.ofByte 0x2C }
      (fun t => (t.flags.toByte, t.cycles)) = some (0x24, 2) := by
  decide

/-- V45-4. -/
theorem test_sed_v45_4 :
    after (program 0x0400 [0xF8] [])
      (fun t => (t.flags.toByte, t.cycles)) = some (0x2C, 2) := by
  decide

/-- V45-5. -/
theorem test_cli_v45_5 :
    after { program 0x0400 [0x58] [] with flags := Flags.ofByte 0x24 }
      (fun t => (t.flags.toByte, t.cycles)) = some (0x20, 2) := by
  decide

/-- V45-6. -/
theorem test_sei_v45_6 :
    after { program 0x0400 [0x78] [] with flags := Flags.ofByte 0x20 }
      (fun t => (t.flags.toByte, t.cycles)) = some (0x24, 2) := by
  decide

/-- V45-7. -/
theorem test_clv_v45_7 :
    after { program 0x0400 [0xB8] [] with flags := Flags.ofByte 0xE4 }
      (fun t => (t.flags.toByte, t.cycles)) = some (0xA4, 2) := by
  decide

/-- V45-8. -/
theorem test_nop_v45_8 :
    after { program 0x0400 [0xEA] [] with a := 0x12, x := 0x34, y := 0x56, flags := Flags.ofByte 0xE7 }
      (fun t => (t.flags.toByte, t.cycles)) = some (0xE7, 2) := by
  decide

/-- V45-9. -/
theorem test_brk_v45_9 :
    after { program 0x0400 [0x00, 0xEE] [(0xFFFE, 0x00), (0xFFFF, 0x06)] with flags := Flags.ofByte 0x23 }
      (fun t => (t.sp, t.pc, t.byteAt 0x01FB, t.flags.toByte, t.cycles)) = some (0xFA, 0x0600, 0x33, 0x27, 7) := by
  decide

/-- V45-10. -/
theorem test_brk_v45_10 :
    after { program 0x0400 [0x00, 0xEE] [(0xFFFE, 0x34), (0xFFFF, 0x12)] with sp := 0x01, flags := Flags.ofByte 0xEC }
      (fun t => (t.sp, t.pc, t.byteAt 0x01FF, t.flags.toByte, t.cycles)) = some (0xFE, 0x1234, 0xFC, 0xEC, 7) := by
  decide

/-- V45-11. -/
theorem test_rti_v45_11 :
    after { program 0x0400 [0x40] [(0x01FB, 0x33), (0x01FC, 0x02), (0x01FD, 0x04)] with sp := 0xFA }
      (fun t => (t.sp, t.pc, t.flags.toByte, t.cycles)) = some (0xFD, 0x0402, 0x23, 6) := by
  decide

/-- V45-12. -/
theorem test_rti_v45_12 :
    after { program 0x0400 [0x40] [(0x01FB, 0xC0), (0x01FC, 0xFF), (0x01FD, 0xFF)] with sp := 0xFA, flags := Flags.ofByte 0x24 }
      (fun t => (t.sp, t.pc, t.flags.toByte, t.cycles)) = some (0xFD, 0xFFFF, 0xE0, 6) := by
  decide

/-- V46-6. -/
theorem test_ill_v46_6 :
    after { program 0x0400 [0xBF, 0xFF, 0x20] [] with y := 0x01 }
      (fun t => (t.pc, t.cycles)) = some (0x0403, 5) := by
  decide

/-- V46-7. -/
theorem test_ill_v46_7 :
    after { program 0x0400 [0xB3, 0x20] [(0x0020, 0x01), (0x0021, 0x30)] with y := 0xFF }
      (fun t => (t.pc, t.cycles)) = some (0x0402, 6) := by
  decide
/-- V42-D3, `nmos_bcd`. -/
theorem test_adc_v42_d3 :
    after { program 0x0400 [0x69, 0x46] [] with
            a := 0x58, flags := Flags.ofByte 0x2D, config := { candidateConfig with decimalMode := .nmosBcd } }
      (fun t => (t.a, t.flags.toByte)) = some (0x05, 0xED) := by
  decide

/-- V42-D7, `nmos_bcd`. -/
theorem test_sbc_v42_d7 :
    after { program 0x0400 [0xE9, 0x01] [] with
            a := 0x00, flags := Flags.ofByte 0x2D, config := { candidateConfig with decimalMode := .nmosBcd } }
      (fun t => (t.a, t.flags.toByte)) = some (0x99, 0xAC) := by
  decide

/-! ### Interrupts, stall, reset (section 2.9) -/

/-- I1: an IRQ is taken and the handler's INX runs in the same step. -/
theorem test_irq_i1 :
    after ({ program 0x0400 [0xEA] [(0xFFFE, 0x00), (0xFFFF, 0x06), (0x0600, 0xE8)] with
             flags := Flags.ofByte 0x20 }.triggerIrq)
      (fun t => (t.x, t.sp, t.pc, t.flags.toByte, t.byteAt 0x01FB, t.cycles)) =
      some (0x01, 0xFA, 0x0601, 0x24, 0x20, 9) := by
  decide

/-- I3: an NMI is taken with I = 1, the stack wraps. -/
theorem test_nmi_i3 :
    after ({ program 0x0400 [0xEA] [(0xFFFA, 0x00), (0xFFFB, 0x07), (0x0700, 0xEA)] with
             sp := 0x01, flags := Flags.ofByte 0xEF }.triggerNmi)
      (fun t => (t.sp, t.pc, t.byteAt 0x01FF, t.cycles)) = some (0xFE, 0x0701, 0xEF, 9) := by
  decide

/-- I5, first step: a stalled cycle. -/
theorem test_stall_i5 :
    after { program 0x0400 [0xEA] [] with stall := 2, pending := .irq, flags := Flags.ofByte 0x20 }
      (fun t => (t.stall, t.cycles, t.pending, t.pc)) = some (1, 1, .irq, 0x0400) := by
  decide

/-- I8a: `reset()`. -/
theorem test_reset_i8a :
    let t := { program 0x1234 [] [(0xFFFC, 0x00), (0xFFFD, 0x04)] with a := 0x11, sp := 0x77, cycles := 99 }.hostReset
    (t.a, t.sp, t.pc, t.flags.toByte, t.cycles) = (0x11, 0xFD, 0x0400, 0x24, 99) := by
  decide

/-- R342: a step between creation and the first `reset()` or `start_at()` is refused; after either it is not. -/
theorem test_create_r342 :
    let s := State.create candidateConfig 0x0400 0xFD State.reset.flags
    step s = .refused .notReset ∧ (after s State.cycles, after (s.startAt 0x0400) State.cycles) = (none, some 7) :=
  ⟨rfl, by decide⟩

/-! ### Devices (section 2.10) -/

/-- L1: the line value. -/
theorem test_line_l1 : Port.lineValue { ddr := 0x0F, out := 0x3C, inp := 0xA5 } = 0xAC := by decide

/-- L2: the interrupt-enable register. -/
theorem test_enable_l2 :
    let w (v : Byte) (c : Chipset) := c.writeEnable v
    let c1 := w 0xC0 Chipset.reset
    let c2 := w 0x40 c1
    let c3 := w 0xA0 (w 0x20 (w 0x7F c2))
    (c1.ier, c2.ier, c3.ier) = (0xC0, 0x80, 0xA0) := by
  decide

/-- L3, L4: a port read with and without handshake enabled. -/
theorem test_port_l3_l4 :
    let read (cr : Byte) := Devices.readPia candidateConfig .p2A
      (Devices.reset.setChip { Chipset.reset with p2A := { port := { ddr := 0x0F, out := 0x3C, inp := 0xA5 }, cr := cr } })
    ((read 0xC5).1, (read 0xC5).2.chip.p2A.cr) = (0xAC, 0x05) ∧
    ((read 0xC1).1, (read 0xC1).2.chip.p2A.cr) = (0x0F, 0xC1) := by
  decide

/-- T2, T3: the timer is armed with 0x0BB8; the fourth tick, with the flag enabled, requests. -/
theorem test_timer_t3 :
    let c0 := ((Chipset.reset.writeT1Low 0xB8).writeT1High 0x0B).writeEnable 0xC0
    let ticks (n : Nat) := Chipset.ticks candidateConfig n c0
    ((ticks 3).1, (ticks 3).2.counter1, (ticks 4).1, (ticks 4).2.ifr, (ticks 4).2.active1) =
      (false, 0x0000, true, 0xC0, false) := by
  decide

/-- T5: only the 20th of 20 ticks from creation requests. -/
theorem test_retrace_t5 :
    (List.range 21).filter (fun n => (Chipset.ticks candidateConfig n Chipset.reset).1) = [20] := by
  decide

/-- K1, K2: key codes. -/
theorem test_keys_k1_k2 :
    (Keyboard.reset.keyDown 0x93).matrix[9] = 0x08 ∧ Keyboard.reset.keyDown 0xA0 = Keyboard.reset ∧
    Keyboard.reset.keyDown 0x28 = Keyboard.reset := by
  decide

/-- R271: a key of the selected row shows in the input latch of the column port. -/
theorem test_columns_r271 :
    (({ Devices.reset with keys := { Keyboard.reset with row := 9 } } : Devices).keyDown candidateConfig 0x93).chip.p1B.port.inp =
      0xF7 := by
  decide

/-- R252, R256, R257, 93 G6: the write of port B that pulls ATN low latches the falling edge in port 2A's control register. -/
theorem test_edge_g6 :
    let d := Devices.reset.setChip { Chipset.reset with vB := { ddr := 0x04, out := 0x04, inp := 0xDF } }
    let d := d.write candidateConfig 0x40 0x00
    (d.bus.atn.ext, d.chip.p2A.cr, d.chip.p2B.cr) = (false, 0x80, 0x00) := by
  decide

/-- B1, B1b: LISTEN under attention, `literal`. -/
theorem test_bus_b1 :
    let cfg := { candidateConfig with acceptor := .literal }
    let d1 := ((Devices.reset.lineOut cfg .atn false).setBus
      { (Devices.reset.lineOut cfg .atn false).bus with data := 0xD7 }).lineOut cfg .dav false
    let d2 := d1.lineOut cfg .dav true
    (d1.bus.tag, d1.bus.ndac.loc, d1.bus.nrfd.loc, d2.bus.ndac.loc, d2.bus.nrfd.loc) =
      (.listen, false, true, true, false) := by
  decide

/-- S1: physical offsets. -/
theorem test_physical_s1 :
    [0, 1023, 1024, 1025, 2047, 2048, 9216, 369664, 377855].map Storage.physical =
      [0, 1023, 4096, 4097, 5119, 8192, 36864, 1478656, 1508351] := by
  decide

/-- S2: data windows and address fields. -/
theorem test_windows_s2 :
    [0, 1, 7, 45].map (fun k => Storage.dataAddr k 0) = [1024, 9216, 58368, 369664] ∧
    addressBytes 45 = [0x00, 0x05, 0xA4, 0x00] := by
  decide

/-- The slot of vector S5. -/
def hello : DirSlot where
  name := ⟨#[0x48, 0x45, 0x4C, 0x4C, 0x4F, 0, 0, 0, 0, 0, 0, 0, 0, 0, 0, 0], by decide⟩
  addr := 0x400
  len := 3

/-- S5: the listing of one file. -/
theorem test_listing_s5 :
    (List.range 16).map (listingByte 0x0401 [hello]) =
      [0x01, 0x04, 0x00, 0x00, 0x03, 0x00, 0x20, 0x20, 0x22, 0x48, 0x45, 0x4C, 0x4C, 0x4F, 0x22, 0x00] := by
  decide

/-- S8: free and occupied slots. -/
theorem test_free_s8 :
    ({ hello with addr := 0xFFFFFFFF }.free, { hello with addr := 0 }.free, hello.free) = (true, true, false) := by
  decide

/-! ### Witnesses: a state and operands that meet each statement's hypotheses -/

/-- A state about to run `LDA #$80`. -/
def loading : State := program 0x0400 [0xA9, 0x80] []

/-- A state about to run `STA $0200`. -/
def storing : State := program 0x0400 [0x8D, 0x00, 0x02] []

theorem test_witness_DecodeEncode : (Instr.lda (.absoluteX 0xFFFF)).wf = true ∧ (Instr.ill 0xFF).wf = true := by decide

theorem test_witness_LoadResult :
    ⟨0xBD, .absoluteX, 3, 4, true⟩ ∈ ldaRows ∧ ⟨0xB6, .zeroPageY, 2, 4, false⟩ ∈ ldxRows ∧
    ⟨0xBC, .absoluteX, 3, 4, true⟩ ∈ ldyRows := by
  decide

theorem test_witness_StoreResult :
    ⟨0x91, .indirectIndexed, 2, 6, false⟩ ∈ staRows ∧ ⟨0x96, .zeroPageY, 2, 4, false⟩ ∈ stxRows ∧
    ⟨0x8C, .absolute, 3, 4, false⟩ ∈ styRows := by
  decide

/-- Both clauses of ADC's and SBC's statements. -/
theorem test_witness_AdcResult :
    ⟨0x69, .immediate, 2, 2, false⟩ ∈ adcRows ∧ loading.flags.d = false ∧
    (let s := { loading with flags := { loading.flags with d := true },
                             config := { candidateConfig with decimalMode := .nmosBcd } }
     s.flags.d = true ∧ s.config.decimalMode = .nmosBcd) ∧
    (let s := { loading with flags := { loading.flags with d := true },
                             config := { candidateConfig with decimalMode := .binary } }
     s.flags.d = true ∧ s.config.decimalMode = .binary) := by
  decide

theorem test_witness_SbcResult :
    ⟨0xF1, .indirectIndexed, 2, 5, true⟩ ∈ sbcRows ∧ loading.flags.d = false ∧
    (let s := { loading with flags := { loading.flags with d := true },
                             config := { candidateConfig with decimalMode := .nmosBcd } }
     s.flags.d = true ∧ s.config.decimalMode = .nmosBcd) := by
  decide

theorem test_witness_CompareResult :
    ⟨0xC9, .immediate, 2, 2, false⟩ ∈ cmpRows ∧ ⟨0xEC, .absolute, 3, 4, false⟩ ∈ cpxRows ∧
    ⟨0xC4, .zeroPage, 2, 3, false⟩ ∈ cpyRows := by
  decide

theorem test_witness_MemoryStepResult :
    ⟨0xFE, .absoluteX, 3, 7, false⟩ ∈ incRows ∧ ⟨0xC6, .zeroPage, 2, 5, false⟩ ∈ decRows := by
  decide

theorem test_witness_LogicResult :
    ⟨0x29, .immediate, 2, 2, false⟩ ∈ andRows ∧ ⟨0x01, .indexedIndirect, 2, 6, false⟩ ∈ oraRows ∧
    ⟨0x5D, .absoluteX, 3, 4, true⟩ ∈ eorRows := by
  decide

theorem test_witness_BitResult : ⟨0x2C, .absolute, 3, 4, false⟩ ∈ bitRows := by decide

theorem test_witness_ShiftResult :
    ⟨0x06, .zeroPage, 2, 5, false⟩ ∈ aslRows ∧ ⟨0x56, .zeroPageX, 2, 6, false⟩ ∈ lsrRows ∧
    ⟨0x3E, .absoluteX, 3, 7, false⟩ ∈ rolRows ∧ ⟨0x6E, .absolute, 3, 6, false⟩ ∈ rorRows := by
  decide

theorem test_witness_UndocumentedResult : isUndocumented 0x02 = true ∧ isUndocumented 0xFF = true := by decide

theorem test_witness_BcdArithmetic :
    0 < 100 ∧ 99 < 100 ∧ ({ State.reset.flags with d := true } : Flags).d = true := by
  decide

/-- RAM under the stack, at the top of the page and where SP wraps. -/
theorem test_witness_StackRoundTrips :
    [0xFD, 0xFC, 0xFB, 0x00, 0xFF, 0xFE].all (fun sp : Byte => decide (IsRam candidateConfig (stackAddr candidateConfig sp))) = true ∧
    State.reset.config = candidateConfig :=
  ⟨by decide, rfl⟩

theorem test_witness_FrameRegisters :
    (Instr.sta (.absolute 0x0200)).wf = true ∧ completes (.sta (.absolute 0x0200)) storing = true ∧
    (Instr.sta (.absolute 0x0200)).writesA = false ∧ (Instr.sta (.absolute 0x0200)).writesX = false ∧
    (Instr.sta (.absolute 0x0200)).writesY = false ∧ (Instr.sta (.absolute 0x0200)).writesSp = false := by
  decide

theorem test_witness_FrameFlags :
    (Instr.sta (.absolute 0x0200)).wf = true ∧ completes (.sta (.absolute 0x0200)) storing = true ∧
    (Instr.sta (.absolute 0x0200)).writesC = false ∧ (Instr.sta (.absolute 0x0200)).writesZN = false ∧
    (Instr.sta (.absolute 0x0200)).writesI = false ∧ (Instr.sta (.absolute 0x0200)).writesD = false ∧
    (Instr.sta (.absolute 0x0200)).writesV = false ∧ (Instr.sta (.absolute 0x0200)).pullsFlags = false := by
  decide

theorem test_witness_FrameMemory :
    (Instr.sta (.absolute 0x0200)).wf = true ∧ completes (.sta (.absolute 0x0200)) storing = true ∧
    (0x0201 : Addr) ∉ storing.storedAddresses (.sta (.absolute 0x0200)) ∧
    (0x0200 : Addr) ∈ storing.storedAddresses (.sta (.absolute 0x0200)) := by
  rw [State.storedAddresses_sta]
  decide

theorem test_witness_FrameRest :
    (Instr.sta (.absolute 0xE7FF)).wf = true ∧ completes (.sta (.absolute 0xE7FF)) storing = true ∧
    (∀ a ∈ storing.accessed (.sta (.absolute 0xE7FF)), Quiet storing.config a) := by
  have h : storing.accessed (.sta (.absolute 0xE7FF)) = [0xE7FF] := by
    rw [State.accessed_sta]
    rfl
  rw [h]
  refine ⟨by decide, by decide, fun a ha => ?_⟩
  obtain rfl := List.mem_singleton.1 ha
  decide

theorem test_witness_SequentialPc :
    (Instr.nop).wf = true ∧ (Instr.nop).transfersControl = false ∧ (Instr.nop).isIll = false ∧
    completes .nop { loading with pc := 0xFFFF } = true := by
  decide

/-- A word across the end of memory, a pointer across a page, zero-page pointers. -/
theorem test_witness_PointerFetch :
    (0x0000 : Addr).toNat = ((0xFFFF : Addr).toNat + 1) % 65536 ∧
    (0x3000 : Addr).toNat = (0x30FF : Addr).toNat / 256 * 256 + ((0x30FF : Addr).toNat + 1) % 256 ∧
    (0x0001 : Addr).toNat = ((0xFE : Byte).toNat + { loading with x := 0x03 }.x.toNat) % 256 ∧
    (0x00FF : Addr).toNat = (0xFF : Byte).toNat := by
  decide

/-- Every place of the map, at its edges: the window is 0xE800 to 0xE84F. -/
theorem test_witness_MemoryRegions :
    Quiet candidateConfig 0xE7FF ∧ Quiet candidateConfig 0xE850 ∧ locate candidateConfig 0x0000 = .region .ram ∧
    locate candidateConfig 0x7FFF = .region .ram ∧ locate candidateConfig 0x8000 = .region .video ∧
    locate candidateConfig 0xFFFF = .region .rom ∧ locate candidateConfig 0xE800 = .window 0 ∧
    locate candidateConfig 0xE84F = .window 0x4F ∧ locate candidateConfig 0xE850 = .unmapped ∧
    locate { candidateConfig with regions := [⟨0x9000, 0x100, .storage⟩] } 0x90FF = .region .storage := by
  decide

/-- The second region of the map as the first that holds its own first address; an address that no region holds. -/
theorem test_witness_MemoryRegions_map :
    candidateConfig.regions = [⟨0x0000, 0x8000, .ram⟩] ++ ⟨0x8000, 0x1000, .video⟩ ::
      [⟨0x9000, 0x5800, .rom⟩, ⟨0xF000, 0x1000, .rom⟩] ∧
    (∀ q ∈ [(⟨0x0000, 0x8000, .ram⟩ : Region)], ¬ (q.base ≤ (0x8000 : Addr).toNat ∧ (0x8000 : Addr).toNat < q.base + q.size)) ∧
    (0x8000 : Addr).toNat < 0x8000 + 0x1000 ∧
    (∀ r ∈ candidateConfig.regions, ¬ (r.base ≤ (0xEFFF : Addr).toNat ∧ (0xEFFF : Addr).toNat < r.base + r.size)) := by
  decide

theorem test_witness_ReadAfterWrite :
    locate State.reset.config 0x0000 = .region .ram ∧ locate State.reset.config 0x8FFF = .region .video := by
  decide

theorem test_witness_StepRunsDecoded :
    loading.started = true ∧ loading.stall = 0 ∧ loading.pending = .none ∧ Quiet loading.config loading.pc ∧
    Quiet loading.config (loading.pc + 1) ∧ Quiet loading.config (loading.pc + 2) ∧
    decode [loading.peek loading.pc, loading.peek (loading.pc + 1), loading.peek (loading.pc + 2)] =
      .instr (.lda (.immediate 0x80)) [0x00] ∧
    (Instr.lda (.immediate 0x80)).wf = true := by
  decide

theorem test_witness_StepOrder :
    loading.started = true ∧ ({ loading with stall := 1 } : State).started = true ∧
    0 < ({ loading with stall := 1 } : State).stall ∧ loading.stall = 0 ∧ loading.pending = .none ∧
    loading.triggerNmi.pending = .nmi ∧ ({ loading with pending := .irq } : State).pending = .irq ∧
    after { loading with stall := 1 } State.cycles = some 1 ∧ encode loading.fetch.1 = [0xA9, 0x80] := by
  decide

theorem test_witness_StepNeverStops :
    State.reset.started = true ∧ (State.create candidateConfig 0 0 State.reset.flags).started = false := by
  decide

theorem test_witness_InterruptLatches :
    loading.flags.i = true ∧ loading.triggerNmi.pending = .nmi ∧
    (let s := { loading with flags := { loading.flags with i := false } }
     s.flags.i = false ∧ s.pending ≠ .nmi) := by
  decide

/-- Just below a tick, just at one, just below two, at two and at three; no ticks at all; a tick that requests and one that
does not. -/
theorem test_witness_EmulationLoop :
    loading.budget + 999 < loading.config.tickCycles ∧ loading.config.tickCycles ≤ loading.budget + 1000 ∧
    loading.budget + 1999 < 2 * loading.config.tickCycles ∧ 2 * loading.config.tickCycles ≤ loading.budget + 2000 ∧
    loading.budget + 2999 < (2 + 1) * loading.config.tickCycles ∧
    ({ loading with config := { candidateConfig with tickCycles := 0 } } : State).config.tickCycles = 0 ∧
    ((Devices.reset.setChip { Chipset.reset with tickCount := 19 }).tick candidateConfig).1 = true ∧
    (Devices.reset.tick candidateConfig).1 = false ∧ 0 < loading.config.tickCycles := by
  decide

/-- An unstalled step, a stalled one and one that services an interrupt. -/
theorem test_witness_StepCost :
    (after loading State.cycles, after { loading with stall := 1 } State.cycles,
      after { loading with pending := .nmi } State.cycles) = (some 2, some 1, some 14) ∧
    loading.begin.1.isIll = false ∧ ({ loading with pending := .nmi } : State).begin.1.isIll = false ∧
    loading.config.official = State.reset.config.official :=
  ⟨by decide, by decide, by decide, rfl⟩

theorem test_witness_StatusInvariant : State.StatusInv loading ∧ after loading (fun t => t.flags.u) = some true := by
  constructor
  · exact ⟨by decide, by decide⟩
  · decide

theorem test_witness_CellsInvariant :
    Memory.wf storing.mem ∧ Cells.wf erasedByte storing.dev.store.flash ∧
    after storing (fun t => t.mem.length) = some 2 := by
  decide

theorem test_witness_DeviceInvariant :
    loading.dev.chip.tickCount < 20 ∧ loading.dev.bus.srq = LineHalves.released ∧ loading.dev.store.base % 4096 = 0 ∧
    (loading.dev.store.dirty = true → loading.dev.store.valid = true) ∧ loading.dev.store.pendingName.length ≤ 16 ∧
    after loading (fun t => t.dev.chip.tickCount) = some 0 := by
  decide

theorem test_witness_RomNeverChanges :
    after storing (fun t => t.pc) = some 0x0403 ∧ locate storing.config 0x9000 ≠ .region .ram ∧
    locate storing.config 0x9000 ≠ .region .video ∧ locate storing.config 0xE850 = .unmapped := by
  decide

/-- Handshake enabled and not, the row port and another, an offset without a register; bits 7 and 6 set; a control write
after which the one line that port 2A watches is as before. -/
theorem test_witness_PortAccess :
    7 < 8 ∧ ({ PiaPort.reset with cr := 0x04 } : PiaPort).cr.getLsbD 2 = true ∧ PiaPort.reset.cr.getLsbD 2 = false ∧
    registerAt candidateChipset 0x00 = none ∧ candidateChipset.rowPort = .pia .p1A ∧
    (0xC0 : Byte).getLsbD 6 = true ∧ (0xC0 : Byte).getLsbD 7 = true ∧
    (∀ w ∈ candidateChipset.handshakeIn, w.pia = .p2A →
      (Devices.reset.writeControl candidateConfig .p2A 0x34).bus.level w.line = Devices.reset.bus.level w.line) := by
  decide

/-- A port's and a control register's offset; an input bit without a wire on a port that is neither the column port nor the
data-in port; the retrace wire, alone on its bit; unwired bits of the data-in and the column port. -/
theorem test_witness_PortAccess_inputs :
    registerAt candidateChipset 0x10 = some (.piaPort .p1A) ∧ registerAt candidateChipset 0x11 = some (.piaControl .p1A) ∧
    (PortId.pia .p1A ≠ candidateChipset.dataInPort ∧ PortId.pia .p1A ≠ candidateChipset.columnPort) ∧
    (∀ w ∈ candidateChipset.inWires, w.port = .pia .p1A → w.bit ≠ 7) ∧
    (⟨.viaB, 5, .retrace, false⟩ : InWire) ∈ candidateChipset.inWires ∧
    (∀ w ∈ candidateChipset.inWires, w.port = .viaB → w.bit = 5 → w = ⟨.viaB, 5, .retrace, false⟩) ∧
    (∀ w ∈ candidateChipset.inWires, w.port ≠ candidateChipset.dataInPort ∧ w.port ≠ candidateChipset.columnPort) ∧
    candidateChipset.columnPort ≠ candidateChipset.dataInPort ∧ PortId.viaA ≠ .viaB ∧ PortId.pia .p1A ≠ .pia .p1B := by
  decide

theorem test_witness_VersatileRegisters :
    registerAt candidateChipset 0x4E = some .intEnable ∧ registerAt candidateChipset 0x4D = some .intFlag ∧
    registerAt candidateChipset 0x44 = some .t1CounterLow ∧ registerAt candidateChipset 0x45 = some .t1CounterHigh ∧
    registerAt candidateChipset 0x46 = some .t1LatchLow ∧
    registerAt candidateChipset 0x47 = some .t1LatchHigh ∧ registerAt candidateChipset 0x48 = some .t2Low ∧
    registerAt candidateChipset 0x49 = some .t2High ∧ registerAt candidateChipset 0x4F = some .viaPortA ∧
    registerAt candidateChipset 0x40 = some .viaPortB ∧ registerAt candidateChipset 0x43 = some .viaDdrA ∧
    registerAt candidateChipset 0x42 = some .viaDdrB ∧ registerAt candidateChipset 0x4A = some .shift ∧
    registerAt candidateChipset 0x4B = some .auxControl ∧ registerAt candidateChipset 0x4C = some .periphControl ∧
    ({ Chipset.reset with ier := 0xC0 } : Chipset).ier.getLsbD 7 = true ∧ 6 < 7 := by
  decide

/-- A tick count at which the retrace comes; the control register that it marks, and another port's. -/
theorem test_witness_TickRules :
    (Chipset.reset.tickCount + 19 + 1) % 20 = 0 ∧ 4 < 5 ∧
    (({ Chipset.reset with tickCount := 19 } : Chipset).tick candidateConfig).2.p1B.cr = 0x80 ∧
    (({ Chipset.reset with tickCount := 19 } : Chipset).tick candidateConfig).2.p1A.cr = 0x00 := by
  decide

theorem test_witness_TimerExpires :
    0 < candidateConfig.timerDec ∧ (Chipset.reset.writeT1High 0x0B).latch1.toNat / candidateConfig.timerDec = 2 ∧
    ({ Chipset.reset with ier := 0xC0 } : Chipset).ier.getLsbD 7 = true ∧
    ({ Chipset.reset with ier := 0xC0 } : Chipset).ier.getLsbD 6 = true := by
  decide

theorem test_witness_KeyboardRules :
    7 < 8 ∧ (0x97 : Byte).toNat = 16 * 9 + 7 ∧ 9 < (0xA0 : Byte).toNat / 16 ∧ 7 < (0x28 : Byte).toNat % 16 ∧
    ({ Keyboard.reset with row := 9 } : Keyboard).row.toNat = (9 : Fin 10).val ∧ 9 < Keyboard.reset.row.toNat := by
  decide

/-- A setter of a line other than SRQ and a level it already has; a port value whose only changed wired bit is ATN's, and one
without a changed wired bit; the blanking level the line has and the other; a control value that puts out a level on the
port that drives the blanking line, and one that does not; a port that drives no handshake output. -/
theorem test_witness_BusLines :
    Line.dav ≠ .srq ∧ (Bus.reset.line .dav).ext = true ∧ (Bus.reset.line .dav).ext ≠ false ∧
    candidateChipset.handshakeOut.filter (fun h => h.pia = .p2A) = [⟨.p2A, .line .ndac⟩] ∧ Line.ndac ≠ .srq ∧
    (⟨.viaB, 2, .atn⟩ : OutWire) ∈ candidateChipset.outWires ∧ Line.atn ≠ .srq ∧
    (0x00 : Byte).getLsbD 2 ≠ (0x04 : Byte).getLsbD 2 ∧
    (∀ w ∈ candidateChipset.outWires, w.line = .atn → w = ⟨.viaB, 2, .atn⟩) ∧
    (∀ w ∈ candidateChipset.outWires, w.line = .nrfd → (0x00 : Byte).getLsbD w.bit = (0x04 : Byte).getLsbD w.bit) ∧
    (∀ w ∈ candidateChipset.outWires, (0x00 : Byte).getLsbD w.bit = (0x80 : Byte).getLsbD w.bit) ∧
    Devices.reset.chip.blankLevel = true ∧ Devices.reset.chip.blankLevel ≠ false ∧
    (0x30 : Byte).getLsbD 5 = true ∧ (0x30 : Byte).getLsbD 4 = true ∧ (0x0F : Byte).getLsbD 5 = false ∧
    (0x2F : Byte).getLsbD 4 = false ∧ (∃ h ∈ candidateChipset.handshakeOut, h.pia = .p1A) ∧
    (∀ h ∈ candidateChipset.handshakeOut, h.pia = .p1A → h.target = .blanking) ∧
    (∀ h ∈ candidateChipset.handshakeOut, h.pia ≠ .p1B) ∧
    candidateChipset.outWires.filter
        (fun w => decide (w.port = .viaB ∧ (0x00 : Byte).getLsbD w.bit ≠ (0x04 : Byte).getLsbD w.bit)) =
      [⟨.viaB, 2, .atn⟩] := by
  decide

/-- The candidate bytes with legacy triggers told apart from them. -/
def busConfig : Config :=
  { candidateConfig with bus := { candidateBus with legacyLoadTrigger := 0x11, legacySaveTrigger := 0x12 } }

/-- Attention asserted and not; the bytes of every clause, at the range's ends, are told apart. -/
theorem test_witness_BusBytes :
    ({ Bus.reset with atn := ⟨false, true⟩ } : Bus).level .atn = false ∧ Bus.reset.level .atn = true ∧
    Bus.reset.tag = .idle ∧ busConfig.bus.listenBase + busConfig.bus.deviceAddress = 0x28 ∧
    busConfig.bus.talkBase + busConfig.bus.deviceAddress = 0x48 ∧
    busConfig.bus.legacyLoadTrigger = 0x11 ∧ busConfig.bus.legacySaveTrigger = 0x12 ∧
    (0x60 : Byte) = busConfig.bus.openDataFirst ∧ (0x6F : Byte) = busConfig.bus.openDataLast ∧
    busConfig.bus.openLoad ≠ busConfig.bus.openSave ∧ (0x5F : Byte) < busConfig.bus.openDataFirst ∧
    busConfig.bus.openDataLast < (0x70 : Byte) ∧ busConfig.bus.unlisten = 0x3F ∧
    (List.replicate 15 (0x41 : Byte)).length < 16 ∧ 16 ≤ (List.replicate 16 (0x41 : Byte)).length := by
  decide

/-- Both responses; Load with bytes left and with none; NRFD released and not. -/
theorem test_witness_BusHandshake :
    ({ candidateConfig with acceptor := .literal } : Config).acceptor = .literal ∧
    ({ candidateConfig with acceptor := .ieee488 } : Config).acceptor = .ieee488 ∧
    ({ Bus.reset with tag := .load } : Bus).tag = .load ∧ ({ Bus.reset with tag := .load } : Bus).tag ≠ .saveLegacy ∧
    Storage.reset.loadDataLen.1 ≤ Bus.reset.offset ∧
    Bus.reset.offset < ({ Storage.reset with listing := true, dirValid := true } : Storage).loadDataLen.1 ∧
    Bus.reset.level .nrfd = true ∧ ({ Bus.reset with nrfd := ⟨false, true⟩ } : Bus).level .nrfd = false := by
  decide

theorem test_witness_LegacyTransfers :
    Bus.reset.tag = .idle ∧ busConfig.bus.legacyLoadTrigger ≠ busConfig.bus.listenBase + busConfig.bus.deviceAddress ∧
    busConfig.bus.legacyLoadTrigger ≠ busConfig.bus.talkBase + busConfig.bus.deviceAddress ∧
    busConfig.bus.legacySaveTrigger ≠ busConfig.bus.legacyLoadTrigger ∧ Storage.reset.hasDataToLoad = false ∧
    ({ Storage.reset with listing := true } : Storage).hasDataToLoad = true ∧
    ({ Bus.reset with tag := .saveLegacy } : Bus).tag = .saveLegacy ∧ Storage.reset.writeOpen = false ∧
    (∀ k, ({ Storage.reset with writeOpen := true, current := .noSlot } : Storage).current ≠ .slot k) ∧
    ({ Storage.reset with writeOpen := true, current := .slot 45 } : Storage).writeOpen = true ∧
    ({ Storage.reset with writeOpen := true, current := .slot 45 } : Storage).current = .slot 45 := by
  decide

/-- A Storage whose last slot is the current file, of length 3, open for writing, a dirty window on the second chunk. -/
def slotStorage : Storage :=
  { Storage.reset with
    current := .slot 45, writeOpen := true, dirValid := true, base := 4096, valid := true, dirty := true
    dir := Vector.replicate 46 { name := Vector.replicate 16 0x41, addr := 0x400, len := 3 } }

/-- A window that holds the address and one that does not, clean and dirty; the last slot as the current file and an index below its length;
no slot. -/
theorem test_witness_CacheWindow :
    ({ Storage.reset with valid := true } : Storage).hits 1023 = true ∧
    ({ Storage.reset with valid := true } : Storage).hits 1024 = false ∧ Storage.reset.hits 0 = false ∧
    Storage.reset.dirty = false ∧ Storage.reset.failures = [] ∧ 1023 < 1024 ∧ 1023 ≠ 1024 % 1024 ∧
    slotStorage.current = .slot 45 ∧ slotStorage.listing = false ∧
    2 < slotStorage.fetchDirectory.dir[(45 : Fin 46)].len.toNat ∧ (∀ k, Storage.reset.current ≠ .slot k) ∧
    (∀ k, ({ Storage.reset with current := .noSlot } : Storage).current ≠ .slot k) ∧
    slotStorage.dirty = true ∧ slotStorage.hits 2047 = true ∧ slotStorage.hits 2048 = false := by
  decide

/-- A device that does not fail; a clean window, and pending data outside the directory chunk; no slot; a failing erase; a ROM address. -/
theorem test_witness_FlushPersists :
    Storage.reset.failures = [] ∧ Storage.reset.dirty = false ∧ 1023 / 1024 ≠ 1024 / 1024 ∧ 1023 < 1024 ∧ 4095 < 4096 ∧
    slotStorage.current = .slot 45 ∧ slotStorage.failures = [] ∧ slotStorage.base % 4096 = 0 ∧
    slotStorage.dirty = true ∧ slotStorage.base ≠ 0 ∧ (0 : Fin 46) ≠ 45 ∧
    (∀ k, Storage.reset.current ≠ .slot k) ∧
    ({ slotStorage with failures := [true] } : Storage).failures.head? = some true ∧
    locate State.reset.config 0xFFFF = .region .rom := by
  decide

/-- A directory with every slot in use by another name. -/
def fullStorage : Storage :=
  { Storage.reset with
    valid := true, dirValid := true
    dir := Vector.replicate 46 { name := Vector.replicate 16 0x41, addr := 0x400, len := 0 } }

/-- A full directory, and one whose first usable slot is the last; a directory copy that is valid and one that is not. -/
theorem test_witness_AddFile :
    (∀ k : Fin 46, ¬ (fullStorage.dir[k].addr = 0 ∨ fullStorage.dir[k].addr = 0xFFFFFFFF ∨
      fullStorage.dir[k].name = Vector.replicate 16 0x42)) ∧
    fullStorage.hits 0 = true ∧ fullStorage.dirValid = true ∧ Storage.reset.dirValid = false ∧ 15 < 16 ∧
    (let dir := fullStorage.dir.set 45 { name := Vector.replicate 16 0x42, addr := 0x400, len := 7 }
     dir[(45 : Fin 46)].name = Vector.replicate 16 0x42 ∧
     ∀ k : Fin 46, k < 45 → dir[k].name ≠ Vector.replicate 16 0x42 ∧ dir[k].addr ≠ 0 ∧ dir[k].addr ≠ 0xFFFFFFFF) := by
  decide

/-- `$`; a name that every slot has, all in use, so that slot 0 is the first; a name that none has. -/
theorem test_witness_AddFile_fnameDone :
    ({ fullStorage with pendingName := [0x24] } : Storage).filename.toList.getD 0 0 = 0x24 ∧
    (let st := { fullStorage with pendingName := List.replicate 16 0x41 }
     st.filename.toList.getD 0 0 ≠ 0x24 ∧ st.fetchDirectory.dir[(0 : Fin 46)].name = st.filename ∧
     st.fetchDirectory.dir[(45 : Fin 46)].name = st.filename ∧ st.fetchDirectory.dir[(0 : Fin 46)].addr ≠ 0 ∧
     st.fetchDirectory.dir[(0 : Fin 46)].addr ≠ 0xFFFFFFFF ∧ ∀ j : Fin 46, ¬ j < 0) ∧
    (let st := { fullStorage with pendingName := [0x42] }
     st.filename.toList.getD 0 0 ≠ 0x24 ∧ ∀ k : Fin 46, st.fetchDirectory.dir[k].name ≠ st.filename) := by
  decide

/-- Names that end at index 4, fill all 16 places, and are empty. -/
theorem test_witness_ListingStream :
    0 < [hello].length ∧ 15 < 16 ∧ hello.name.toList.getD 4 0 ≠ 0 ∧
    (∀ j, j < 16 → 4 < j → hello.name.toList.getD j 0 = 0) ∧
    (Vector.replicate 16 (0x41 : Byte)).toList.getD 15 0 ≠ 0 ∧
    (∀ j, j < 16 → (Vector.replicate 16 (0x00 : Byte)).toList.getD j 0 = 0) ∧
    ({ Storage.reset with listing := true } : Storage).listing = true ∧ 1 < 2 + 24 * (populatedSlots Storage.reset.dir).length := by
  decide

end Sys2Proof.Machine.Tests
end

section
/-! PROOFS. O32 (words, pointers and the indirect modes), O39 (`reset()`, `start_at()` and creation), and the facts about
reads, zero extension and the reset vector they rest on. -/

namespace Sys2Proof.Machine

/-! ### Word and pointer reads, byte by byte (R43, R84) -/

/-- Low byte first, the second byte from the next address modulo 65536 (R43, D15). -/
theorem State.read16_eq_word {a b : Addr} (h : b.toNat = (a.toNat + 1) % 65536) (s : State) :
    s.read16 a = (word ((s.get a).2.get b).1 (s.get a).1, ((s.get a).2.get b).2) := by
  have hb : a + 1 = b := BitVec.eq_of_toNat_eq (by rw [BitVec.toNat_add, h]; rfl)
  rw [← hb]
  rfl

/-- Low byte first, the second byte from the same page (R84). -/
theorem State.read16Wrap_eq_word {a b : Addr} (h : b.toNat = a.toNat / 256 * 256 + (a.toNat + 1) % 256) (s : State) :
    s.read16Wrap a = (word ((s.get a).2.get b).1 (s.get a).1, ((s.get a).2.get b).2) := by
  have hb : nextInPage a = b := BitVec.eq_of_toNat_eq (by rw [nextInPage_toNat, h])
  rw [← hb]
  rfl

/-! ### Zero extension and indexed addresses as numbers (R7, R87) -/

theorem zext_toNat (b : Byte) : (zext b).toNat = b.toNat :=
  BitVec.toNat_setWidth_of_le (by decide)

theorem eq_zext_of_toNat_eq {p : Addr} {b : Byte} (h : p.toNat = b.toNat) : p = zext b :=
  BitVec.eq_of_toNat_eq (by rw [h, zext_toNat])

theorem Resolved.indexed_ea_toNat (base : Addr) (index : Byte) :
    (Resolved.indexed base index).ea.toNat = (base.toNat + index.toNat) % 65536 := by
  rw [Resolved.indexed, BitVec.toNat_add, zext_toNat]

theorem Resolved.indexed_eq (base : Addr) (index : Byte) :
    Resolved.indexed base index =
      ⟨(Resolved.indexed base index).ea, decide (base.toNat / 256 ≠ (Resolved.indexed base index).ea.toNat / 256)⟩ := by
  simp only [Resolved.indexed, pageDiffers_eq]

/-! ### The indirect modes -/

theorem State.resolve_indexedIndirect {s : State} {d8 : Byte} {p : Addr} (h : p.toNat = (d8.toNat + s.x.toNat) % 256) :
    s.resolve (.indexedIndirect d8) = (⟨(s.read16Wrap p).1, false⟩, (s.read16Wrap p).2) := by
  have hp : p = zext (d8 + s.x) := eq_zext_of_toNat_eq (by rw [h, BitVec.toNat_add])
  rw [hp]
  rfl

theorem State.resolve_indirectIndexed {d8 : Byte} {p : Addr} (h : p.toNat = d8.toNat) (s : State) :
    s.resolve (.indirectIndexed d8) = (.indexed (s.read16Wrap p).1 s.y, (s.read16Wrap p).2) := by
  rw [eq_zext_of_toNat_eq h]
  rfl

/-- Settles O32: the two reads as pairs of `get`, and each indirect mode as its pointer read. -/
theorem pointerFetch : Obligations.PointerFetch := by
  unfold Obligations.PointerFetch
  refine ⟨fun s a b h => ?_, fun s a b h => ?_, fun _ _ => rfl, fun _ _ _ h => State.resolve_indexedIndirect h,
    fun s d8 p h => ?_⟩
  · rw [State.read16_eq_word h, word_toNat]
    exact ⟨Nat.add_comm _ _, rfl⟩
  · rw [State.read16Wrap_eq_word h, word_toNat]
    exact ⟨Nat.add_comm _ _, rfl⟩
  · refine ⟨(Resolved.indexed (s.read16Wrap p).1 s.y).ea, ?_, Resolved.indexed_ea_toNat _ _⟩
    rw [State.resolve_indirectIndexed h, ← Resolved.indexed_eq]

/-! ### Reads of stored bytes, and `reset()` from a blank memory (R47, R340) -/

/-- A read in RAM, ROM or video memory answers the byte held and changes nothing. -/
theorem State.get_of_region {s : State} {a : Addr} {k : RegionKind} (h : locate s.config a = .region k)
    (hk : k ≠ .storage) : s.get a = (s.byteAt a, s) := by
  have hread : readAt s.config s.mem s.dev a = (s.byteAt a, s.dev) := by
    rw [readAt, h]
    cases k with
    | storage => exact absurd rfl hk
    | ram | rom | video => rfl
  rw [State.get, hread]

theorem State.byteAt_of_mem_nil {s : State} (h : s.mem = []) (a : Addr) : s.byteAt a = blankByte := by
  rw [State.byteAt, h]
  rfl

/-- The high byte of the reset vector stands at 0xFFFD (R340). -/
theorem resetVector_next : (0xFFFD : Addr).toNat = (resetVector.toNat + 1) % 65536 := by decide

theorem word_blankByte : word blankByte blankByte = 0x0000 := by decide

/-- Both bytes of the reset vector lie in the ROM of the candidate map, where a blank memory holds 0x00 (log 1). -/
theorem State.read16_resetVector_blank {s : State} (hc : s.config = candidateConfig) (hm : s.mem = []) :
    s.read16 resetVector = (0x0000, s) := by
  have hlo : locate s.config 0xFFFC = .region .rom := by rw [hc]; decide
  have hhi : locate s.config 0xFFFD = .region .rom := by rw [hc]; decide
  rw [State.read16_eq_word resetVector_next, resetVector, State.get_of_region hlo (by decide),
    State.get_of_region hhi (by decide), State.byteAt_of_mem_nil hm, State.byteAt_of_mem_nil hm, word_blankByte]

/-- `reset()` as its two reads (R340). -/
theorem State.hostReset_eq (s : State) :
    s.hostReset =
      { ((s.get 0xFFFC).2.get 0xFFFD).2 with
        pc := word ((s.get 0xFFFC).2.get 0xFFFD).1 (s.get 0xFFFC).1, sp := s.config.resetSp
        flags := Flags.ofByte s.config.resetP, started := true } := by
  rw [State.hostReset, State.read16_eq_word resetVector_next, resetVector]

/-- `reset()` of any state with the reset parameters and a blank memory sets the four fields as in the reset state. -/
theorem State.hostReset_blank {s : State} (hc : s.config = candidateConfig) (hm : s.mem = []) :
    s.hostReset =
      { s with pc := State.reset.pc, sp := State.reset.sp, flags := State.reset.flags, started := true } := by
  rw [State.hostReset, State.read16_resetVector_blank hc hm, hc]
  rfl

theorem State.create_hostReset (pc : Addr) (sp : Byte) (flags : Flags) :
    (State.create State.reset.config pc sp flags).hostReset = State.reset :=
  State.hostReset_blank rfl rfl

theorem State.reset_hostReset : State.reset.hostReset = State.reset := State.hostReset_blank rfl rfl

/-- Between creation and the first `reset()` or `start_at()` a step is refused (R342, log 54). -/
theorem step_create (cfg : Config) (pc : Addr) (sp : Byte) (flags : Flags) :
    step (State.create cfg pc sp flags) = .refused .notReset :=
  step_notReset rfl

/-- `NO_SLOT` and `NOT_FOUND` of the reset state name no directory slot (R304, R306). -/
theorem State.reset_sentinels : 45 < State.reset.config.noSlot ∧ 45 < State.reset.config.notFound :=
  ⟨Nat.le_add_right 46 _, Nat.le_add_right 46 _⟩

/-- All six lines of the bus are released at creation (R281). -/
theorem Bus.reset_line (l : Line) : Bus.reset.line l = LineHalves.released := by
  cases l <;> rfl

/-- Settles O39: `reset()` of a blank memory is the reset state; the other clauses are the operations' own fields. -/
theorem resetAndStart : Obligations.ResetAndStart := by
  unfold Obligations.ResetAndStart
  refine ⟨State.hostReset_eq, fun p => rfl, fun s a => rfl, fun cfg pc sp flags => ?_, State.create_hostReset,
    State.reset_hostReset, rfl, rfl, rfl, rfl, rfl, State.reset_sentinels.1, State.reset_sentinels.2, rfl, by decide,
    rfl, rfl, rfl, rfl, Bus.reset_line, rfl, rfl, rfl, rfl, rfl⟩
  exact ⟨rfl, rfl, rfl, rfl, rfl, rfl, rfl, rfl, step_create cfg pc sp flags⟩

end Sys2Proof.Machine
end

section
/-! PROOFS. Facts about decoding and fetching that the statements on the step rest on: every opcode byte decodes to an
instruction that has it, and the step fetches exactly that instruction's bytes. -/

namespace Sys2Proof.Laws.Encoding

/-- The encoder's statement, for every instruction. -/
theorem statement : ∀ i, Statement i
  | .lda o => lda o | .ldx o => ldx o | .ldy o => ldy o | .sta o => sta o | .stx o => stx o | .sty o => sty o
  | .tax => tax | .tay => tay | .txa => txa | .tya => tya | .tsx => tsx | .txs => txs
  | .pha => pha | .php => php | .pla => pla | .plp => plp
  | .adc o => adc o | .sbc o => sbc o | .cmp o => cmp o | .cpx o => cpx o | .cpy o => cpy o
  | .inc o => inc o | .inx => inx | .iny => iny | .dec o => dec o | .dex => dex | .dey => dey
  | .and o => and o | .ora o => ora o | .eor o => eor o | .bit o => bit o
  | .asl o => asl o | .lsr o => lsr o | .rol o => rol o | .ror o => ror o
  | .jmp o => jmp o | .jsr a16 => jsr a16 | .rts => rts
  | .bcc d8 => bcc d8 | .bcs d8 => bcs d8 | .beq d8 => beq d8 | .bmi d8 => bmi d8
  | .bne d8 => bne d8 | .bpl d8 => bpl d8 | .bvc d8 => bvc d8 | .bvs d8 => bvs d8
  | .clc => clc | .cld => cld | .cli => cli | .clv => clv | .sec => sec | .sed => sed | .sei => sei
  | .nop => nop | .brk => brk | .rti => rti | .ill op => ill op

end Sys2Proof.Laws.Encoding

namespace Sys2Proof

/-! ### Opcodes, operands and encodings -/

theorem Instr.wf_iff_opcode (i : Instr) : i.wf = true ↔ ∃ op, i.opcode = some op := (Laws.Encoding.statement i).1

theorem encode_of_opcode {i : Instr} {op : Byte} (h : i.opcode = some op) : encode i = op :: i.operand.bytes :=
  ((Laws.Encoding.statement i).2 op h).1

theorem Operand.length_bytes (o : Operand) : o.bytes.length = o.mode.operandBytes := by
  cases o <;> rfl

/-- The length of an instruction is the size its mode gives (R73). -/
theorem length_encode {i : Instr} (hw : i.wf = true) : (encode i).length = 1 + i.operand.mode.operandBytes := by
  obtain ⟨op, ho⟩ := i.wf_iff_opcode.1 hw
  rw [encode_of_opcode ho, List.length_cons, Operand.length_bytes, Nat.add_comm]

/-- A mode's operand carries the bytes it was made of, as many as the mode has (R71). -/
theorem Mode.bytes_operand (m : Mode) (b1 b2 : Byte) : (m.operand b1 b2).bytes = [b1, b2].take m.operandBytes := by
  cases m <;> simp [Mode.operand, Operand.bytes, Mode.operandBytes]

theorem Mode.operandBytes_le (m : Mode) : m.operandBytes ≤ 2 := by
  cases m <;> decide

/-- Each byte is a row and a column of the opcode matrix (R90). -/
theorem Byte.exists_row_column (op : Byte) : ∃ r c : Fin 16, op = BitVec.ofNat 8 (16 * r.val + c.val) := by
  have := op.isLt
  refine ⟨⟨op.toNat / 16, by omega⟩, ⟨op.toNat % 16, by omega⟩, BitVec.eq_of_toNat_eq ?_⟩
  rw [BitVec.toNat_ofNat]
  dsimp only
  omega

/-- Every opcode byte decodes to an instruction with that opcode, whose operand is made of the bytes after it in the mode
that the opcode alone fixes (R90): the 256 entries of the matrix, one by one. -/
theorem decodeOp_opcode_operand (op b1 b2 : Byte) :
    (decodeOp op b1 b2).opcode = some op ∧
      (decodeOp op b1 b2).operand = (decodeOp op 0 0).operand.mode.operand b1 b2 := by
  obtain ⟨r, c, rfl⟩ := Byte.exists_row_column op
  fin_cases r <;> fin_cases c <;> exact ⟨rfl, rfl⟩

theorem decodeOp_opcode (op b1 b2 : Byte) : (decodeOp op b1 b2).opcode = some op :=
  (decodeOp_opcode_operand op b1 b2).1

theorem decodeOp_wf (op b1 b2 : Byte) : (decodeOp op b1 b2).wf = true :=
  (Instr.wf_iff_opcode _).2 ⟨op, decodeOp_opcode op b1 b2⟩

/-- What is decoded from an opcode and two bytes has as encoding the opcode and as many of these bytes as it takes. -/
theorem encode_decodeOp (op b1 b2 : Byte) : encode (decodeOp op b1 b2) = op :: [b1, b2].take (operandCount op) := by
  rw [encode_of_opcode (decodeOp_opcode op b1 b2), (decodeOp_opcode_operand op b1 b2).2, Mode.bytes_operand]
  rfl

theorem operandCount_le (op : Byte) : operandCount op ≤ 2 := Mode.operandBytes_le _

end Sys2Proof

namespace Sys2Proof.Machine

/-! ### Fetching (R74, R220) -/

/-- The fetched instruction has the opcode at `PC`, and its encoding is the one, two or three bytes read in order from `PC`
on. -/
theorem State.fetch_spec (s : State) :
    let op := s.get s.pc
    let b1 := op.2.get (s.pc + 1)
    let b2 := b1.2.get (s.pc + 2)
    s.fetch.1.opcode = some op.1 ∧
      ((encode s.fetch.1 = [op.1] ∧ s.fetch.2 = op.2) ∨
       (encode s.fetch.1 = [op.1, b1.1] ∧ s.fetch.2 = b1.2) ∨
       (encode s.fetch.1 = [op.1, b1.1, b2.1] ∧ s.fetch.2 = b2.2)) := by
  intro op b1 b2
  unfold State.fetch
  dsimp only
  split
  · rename_i hn
    exact ⟨decodeOp_opcode _ _ _, .inl ⟨by rw [encode_decodeOp, hn]; rfl, rfl⟩⟩
  · rename_i hn
    exact ⟨decodeOp_opcode _ _ _, .inr (.inl ⟨by rw [encode_decodeOp, hn]; rfl, rfl⟩)⟩
  · rename_i h0 h1
    have hn : operandCount (s.get s.pc).1 = 2 := by
      have h2 := operandCount_le (s.get s.pc).1
      have h1' := Nat.lt_of_le_of_ne (Nat.pos_of_ne_zero h0) (Ne.symm h1)
      exact Nat.le_antisymm h2 h1'
    exact ⟨decodeOp_opcode _ _ _, .inr (.inr ⟨by rw [encode_decodeOp, hn]; rfl, rfl⟩)⟩

theorem State.fetch_opcode (s : State) : s.fetch.1.opcode = some (s.peek s.pc) := (State.fetch_spec s).1

theorem State.fetch_wf (s : State) : s.fetch.1.wf = true := (Instr.wf_iff_opcode _).2 ⟨_, s.fetch_opcode⟩

end Sys2Proof.Machine
end

section
/-! PROOFS. The frame of an instruction: which registers, flags and other fields it may write, and how `PC` advances (O26,
O27, O30); the status invariant that follows (O43), and that the three invariants hold at reset (O46). -/

namespace Sys2Proof.Machine

/-! ### What the stack operations change (R13, R199) -/

theorem State.push_frame (s : State) (v : Byte) :
    ∃ m d, s.push v = { s with mem := m, dev := d, sp := s.sp - 1 } := ⟨_, _, rfl⟩

theorem State.push16_frame (s : State) (w : Addr) :
    ∃ m d, s.push16 w = { s with mem := m, dev := d, sp := s.sp - 1 - 1 } := ⟨_, _, rfl⟩

theorem State.pull_frame (s : State) : ∃ d, s.pull.2 = { s with dev := d, sp := s.sp + 1 } := ⟨_, rfl⟩

theorem State.pull16_frame (s : State) : ∃ d, s.pull16.2 = { s with dev := d, sp := s.sp + 1 + 1 } := ⟨_, rfl⟩

theorem State.pullFlags_frame (s : State) :
    ∃ d p, s.pullFlags = { s with dev := d, sp := s.sp + 1, flags := Flags.pulled p } := ⟨_, _, rfl⟩

theorem State.returnFromInterrupt_frame (s : State) :
    ∃ d p pc, s.returnFromInterrupt =
      { s with dev := d, sp := s.sp + 1 + 1 + 1, flags := Flags.pulled p, pc := pc } := by
  obtain ⟨_, p, hf⟩ := s.pullFlags_frame
  obtain ⟨d, hp⟩ := s.pullFlags.pull16_frame
  exact ⟨d, p, s.pullFlags.pull16.1, by rw [State.returnFromInterrupt, hp, hf]; rfl⟩

/-! ### What an instruction leaves as it was (R10, R13, R15, R16, R17) -/

/-- `t` with everything put back to what it is in `s` that `i` does not write by the tables of R10, R13 and R15, or that
no instruction writes, and with the `PC` of an official instruction that does not transfer control advanced by its size. -/
def State.confined (i : Instr) (s t : State) : State :=
  { t with
    a := bif i.writesA then t.a else s.a
    x := bif i.writesX then t.x else s.x
    y := bif i.writesY then t.y else s.y
    sp := bif i.writesSp then t.sp else s.sp
    flags :=
      { c := bif i.writesC then t.flags.c else s.flags.c
        z := bif i.writesZN then t.flags.z else s.flags.z
        i := bif i.writesI then t.flags.i else s.flags.i
        d := bif i.writesD then t.flags.d else s.flags.d
        b := bif i.pullsFlags then t.flags.b else s.flags.b
        u := bif i.pullsFlags then t.flags.u else s.flags.u
        v := bif i.writesV then t.flags.v else s.flags.v
        n := bif i.writesZN then t.flags.n else s.flags.n }
    pc := bif i.transfersControl || i.isIll then t.pc else s.pc + BitVec.ofNat 16 (modeSize i.operand.mode)
    pending := s.pending, stall := s.stall, started := s.started, budget := s.budget, config := s.config }

/-- ADC writes C, Z, V and N of the flags, in every decimal mode (R130, R131). -/
theorem adcResult_flags (mode : DecimalMode) (a m : Byte) (f : Flags) :
    ∃ c z v n, (adcResult mode a m f).flags = { f with c := c, z := z, v := v, n := n } := by
  unfold adcResult
  split <;> exact ⟨_, _, _, _, rfl⟩

/-- So does SBC (R132, R133). -/
theorem sbcResult_flags (mode : DecimalMode) (a m : Byte) (f : Flags) :
    ∃ c z v n, (sbcResult mode a m f).flags = { f with c := c, z := z, v := v, n := n } := by
  unfold sbcResult
  split <;> exact ⟨_, _, _, _, rfl⟩

/-- An undocumented opcode changes devices, `PC` and `cycles` only, and never lowers `cycles` (R210). -/
theorem execIll_state (op : Byte) (s : State) :
    ∃ d pc n, s.cycles ≤ n ∧ execIll op s = .next { s with dev := d, pc := pc, cycles := n } := by
  obtain ⟨d, hd⟩ := s.fetchOperand_state (illegalColumns s.config op).mode
  obtain ⟨d', hr⟩ := State.resolve_state { s with dev := d } (s.fetchOperand (illegalColumns s.config op).mode).1
  unfold execIll State.enter
  dsimp only
  rw [hd, hr]
  exact ⟨_, _, _, Nat.le_add_right _ _, rfl⟩

/-- A shift or rotate of memory does not write A. -/
theorem Instr.writesA_shift {o : Operand} (ha : o ≠ .accumulator) {i : Instr}
    (hi : i = .asl o ∨ i = .lsr o ∨ i = .rol o ∨ i = .ror o) : i.writesA = false := by
  rcases hi with rfl | rfl | rfl | rfl <;> cases o <;> first | rfl | exact absurd rfl ha

/-- An instruction changes nothing but what its tables list, memory, devices, `cycles` and `PC`, and `PC` in sequence
unless it transfers control: by the shared operation that each instruction is. -/
theorem exec_confined {i : Instr} {s t : State} (hw : i.wf = true) (he : exec i s = .next t) :
    t = State.confined i s t := by
  -- In each case what the shared operation changes, written out as `s` with fields replaced, is `confined` by definition.
  cases i with
  | lda o | ldx o | ldy o | cmp o | cpx o | cpy o | and o | ora o | eor o | bit o =>
    simp only [exec, execLda, execLdx, execLdy, execCmp, execCpx, execCpy, execAnd, execOra, execEor, execBit,
      Host.Outcome.next.injEq] at he
    obtain ⟨d, c, hr⟩ := State.readOperand_state s _ o
    rw [hr] at he
    subst he
    rfl
  | adc o =>
    simp only [exec, execAdc, Host.Outcome.next.injEq] at he
    obtain ⟨d, c, hr⟩ := State.readOperand_state s (.adc o) o
    rw [hr] at he
    obtain ⟨_, _, _, _, hf⟩ := adcResult_flags s.config.decimalMode s.a (s.readOperand (.adc o) o).1 s.flags
    rw [hf] at he
    subst he
    rfl
  | sbc o =>
    simp only [exec, execSbc, Host.Outcome.next.injEq] at he
    obtain ⟨d, c, hr⟩ := State.readOperand_state s (.sbc o) o
    rw [hr] at he
    obtain ⟨_, _, _, _, hf⟩ := sbcResult_flags s.config.decimalMode s.a (s.readOperand (.sbc o) o).1 s.flags
    rw [hf] at he
    subst he
    rfl
  | sta o | stx o | sty o =>
    simp only [exec, execSta, execStx, execSty, Host.Outcome.next.injEq] at he
    have ha : o ≠ .accumulator := by rintro rfl; cases hw
    obtain ⟨d, c, hr⟩ := State.writeOperand_state s _ _ ha
    rw [hr] at he
    subst he
    rfl
  | inc o | dec o =>
    simp only [exec, execInc, execDec, Host.Outcome.next.injEq] at he
    have ha : o ≠ .accumulator := by rintro rfl; cases hw
    have hi : ∀ d8, o ≠ .immediate d8 := by rintro d8 rfl; cases hw
    obtain ⟨d, c, m, hr⟩ := State.modifyOperand_state s _ _ ha hi
    rw [hr] at he
    subst he
    rfl
  | asl o | lsr o | rol o | ror o =>
    simp only [exec, execAsl, execLsr, execRol, execRor, Host.Outcome.next.injEq] at he
    subst he
    have hi : ∀ d8, o ≠ .immediate d8 := by rintro d8 rfl; cases hw
    by_cases ha : o = .accumulator
    · subst ha
      rfl
    · obtain ⟨d, c, m, hr⟩ := State.modifyOperand_state s _ _ ha hi
      rw [hr, State.confined, Instr.writesA_shift ha (by simp)]
      rfl
  | bcc d8 | bcs d8 | beq d8 | bmi d8 | bne d8 | bpl d8 | bvc d8 | bvs d8 =>
    simp only [exec, execBcc, execBcs, execBeq, execBmi, execBne, execBpl, execBvc, execBvs,
      Host.Outcome.next.injEq] at he
    obtain ⟨c, p, hr⟩ := State.branch_state s _ d8 _
    rw [hr] at he
    subst he
    rfl
  | jmp o =>
    simp only [exec, execJmp, Host.Outcome.next.injEq] at he
    obtain ⟨d, n, hr⟩ := State.enter_state s o 3 (columnsOf s.config (.jmp o))
    rw [hr] at he
    subst he
    rfl
  | brk =>
    simp only [exec, execBrk, Host.Outcome.next.injEq] at he
    obtain ⟨m, d, pc, hr⟩ := (s.enter .implied 2 (columnsOf s.config .brk)).2.interrupt_state s.config.irqVector true
    rw [hr] at he
    subst he
    rfl
  | ill op =>
    obtain ⟨d, pc, n, -, hr⟩ := execIll_state op s
    simp only [exec, hr, Host.Outcome.next.injEq] at he
    subst he
    rfl
  | pha | php =>
    simp only [exec, execPha, execPhp, Host.Outcome.next.injEq] at he
    obtain ⟨m, d, hp⟩ := State.push_frame (s.enterImplied _) _
    rw [hp] at he
    subst he
    rfl
  | jsr a16 =>
    simp only [exec, execJsr, Host.Outcome.next.injEq] at he
    obtain ⟨m, d, hp⟩ := State.push16_frame (s.enter (.absolute a16) 3 (columnsOf s.config (.jsr a16))).2
      ((s.enter (.absolute a16) 3 (columnsOf s.config (.jsr a16))).2.pc - 1)
    rw [hp] at he
    subst he
    rfl
  | pla =>
    simp only [exec, execPla, Host.Outcome.next.injEq] at he
    obtain ⟨d, hp⟩ := (s.enterImplied .pla).pull_frame
    rw [hp] at he
    subst he
    rfl
  | plp =>
    simp only [exec, execPlp, Host.Outcome.next.injEq] at he
    obtain ⟨d, p, hp⟩ := (s.enterImplied .plp).pullFlags_frame
    rw [hp] at he
    subst he
    rfl
  | rts =>
    simp only [exec, execRts, Host.Outcome.next.injEq] at he
    obtain ⟨d, hp⟩ := (s.enterImplied .rts).pull16_frame
    rw [hp] at he
    subst he
    rfl
  | rti =>
    simp only [exec, execRti, Host.Outcome.next.injEq] at he
    obtain ⟨d, p, pc, hp⟩ := (s.enterImplied .rti).returnFromInterrupt_frame
    rw [hp] at he
    subst he
    rfl
  | _ =>
    simp only [exec, execTax, execTay, execTxa, execTya, execTsx, execTxs, execInx, execIny, execDex, execDey, execClc,
      execCld, execCli, execClv, execSec, execSed, execSei, execNop, Host.Outcome.next.injEq] at he
    subst he
    rfl

/-! ### The frames of the statements -/

/-- Settles O26: the instructions by `exec_confined`, trap entry and `reset()` by what they change. -/
theorem frameRegisters : Obligations.FrameRegisters := by
  unfold Obligations.FrameRegisters
  refine ⟨fun i s t hw he => ?_, fun s vector brk => ?_, fun s => ⟨rfl, rfl, rfl⟩⟩
  · rw [exec_confined hw he]
    refine ⟨fun h => ?_, fun h => ?_, fun h => ?_, fun h => ?_⟩ <;> simp only [State.confined, h, cond_false]
  · obtain ⟨m, d, pc, h⟩ := State.interrupt_state s vector brk
    rw [h]
    exact ⟨rfl, rfl, rfl, by dsimp only; rw [sub_sub, sub_sub]; rfl⟩

/-- Settles O27: the instructions by `exec_confined`, trap entry by what it changes. -/
theorem frameFlags : Obligations.FrameFlags := by
  unfold Obligations.FrameFlags
  refine ⟨fun i s t hw he => ?_, fun s vector brk => ?_⟩
  · rw [exec_confined hw he]
    refine ⟨fun h => ?_, fun h => ⟨?_, ?_⟩, fun h => ?_, fun h => ?_, fun h => ?_, fun h => ⟨?_, ?_⟩⟩ <;>
      simp only [State.confined, h, cond_false]
  · obtain ⟨m, d, pc, h⟩ := State.interrupt_state s vector brk
    rw [h]

/-- Settles O30: `PC` advances by the size that the operand's mode gives, which is the length of the encoding. -/
theorem sequentialPc : Obligations.SequentialPc := by
  unfold Obligations.SequentialPc
  intro i s t hw hc hl he
  have hpc : t.pc = s.pc + BitVec.ofNat 16 (encode i).length := by
    rw [exec_confined hw he, length_encode hw]
    simp only [State.confined, hc, hl, Bool.or_self, cond_false, modeSize]
  rw [hpc, BitVec.toNat_add, BitVec.toNat_ofNat, Nat.add_mod_mod]

/-! ### The status invariant (R15, R123, R199) -/

/-- Pulled flags have B clear and U set, whatever byte was pulled (D7). -/
theorem Flags.pulled_b_u (p : Byte) : (Flags.pulled p).b = false ∧ (Flags.pulled p).u = true := by
  simp [Flags.pulled, Flags.ofByte]

/-- PLP and RTI take all flags from the pulled byte. -/
theorem exec_pulledFlags {i : Instr} {s t : State} (hp : i.pullsFlags = true) (he : exec i s = .next t) :
    ∃ p, t.flags = Flags.pulled p := by
  cases i with
  | plp =>
    simp only [exec, execPlp, Host.Outcome.next.injEq] at he
    obtain ⟨d, p, h⟩ := (s.enterImplied .plp).pullFlags_frame
    exact ⟨p, by rw [← he, h]⟩
  | rti =>
    simp only [exec, execRti, Host.Outcome.next.injEq] at he
    obtain ⟨d, p, pc, h⟩ := (s.enterImplied .rti).returnFromInterrupt_frame
    exact ⟨p, by rw [← he, h]⟩
  | _ => cases hp

/-- Every instruction keeps the stored B clear and the stored U set. -/
theorem exec_statusInv {i : Instr} {s t : State} (hw : i.wf = true) (he : exec i s = .next t) (h : s.StatusInv) :
    t.StatusInv := by
  unfold State.StatusInv at h ⊢
  cases hp : i.pullsFlags with
  | true =>
    obtain ⟨p, hf⟩ := exec_pulledFlags hp he
    rw [hf]
    exact Flags.pulled_b_u p
  | false =>
    rw [exec_confined hw he]
    simpa only [State.confined, hp, cond_false] using h

/-- Service and fetch write of the flags I only. -/
theorem State.begin_statusInv {s : State} (h : s.StatusInv) : s.begin.2.StatusInv := by
  unfold State.begin State.StatusInv
  obtain ⟨d, hf⟩ := s.service.fetch_state
  obtain ⟨m, d', pc, sp, i, hs⟩ := s.service_state
  rw [hf, hs]
  exact h

/-- Settles O43: the stalled cycle and the loop's accounting leave the flags alone, service writes I, and the instruction
keeps B and U. -/
theorem statusInvariant : Obligations.StatusInvariant := by
  unfold Obligations.StatusInvariant
  have elapse (u : State) (n : Nat) (h : u.StatusInv) : (u.elapse n).StatusInv := by
    obtain ⟨p, d, b, he⟩ := u.elapse_state n
    rw [he]
    exact h
  intro s t h he
  rcases step_cases he with ⟨-, ⟨-, rfl⟩ | ⟨-, u, hu, rfl⟩⟩
  · exact elapse _ _ h
  · exact elapse _ _ (exec_statusInv (State.fetch_wf _) hu (State.begin_statusInv h))

/-- Settles O46: nothing is stored in the reset state's memory and flash, and its fields are the values of creation. -/
theorem invariantsAtReset : Obligations.InvariantsAtReset := by
  unfold Obligations.InvariantsAtReset
  have hmem : Memory.wf State.reset.mem := ⟨Cells.wf_nil _, fun _ h => absurd h List.not_mem_nil⟩
  exact ⟨⟨rfl, rfl⟩, ⟨hmem, Cells.wf_nil _⟩, by decide, rfl, rfl, fun h => absurd h (by decide), by decide⟩

end Sys2Proof.Machine
end

section
/-! PROOFS. The order of a step (O36) and what it adds to `cycles` (O42). -/

namespace Sys2Proof.Machine

/-! ### The step's parts (R220, R223) -/

/-- Every instruction answers a next state (R226). -/
theorem exec_next (i : Instr) (s : State) : ∃ t, exec i s = .next t := by
  cases i <;> exact ⟨_, rfl⟩

theorem cpuStep_stalled {s : State} (h : s.started = true) (hs : 0 < s.stall) : cpuStep s = .next s.idleCycle := by
  rw [cpuStep, if_pos h, if_pos hs]

theorem cpuStep_unstalled {s : State} (h : s.started = true) (hs : s.stall = 0) :
    cpuStep s = exec s.begin.1 s.begin.2 := by
  rw [cpuStep, if_pos h, if_neg (by omega)]

theorem step_of_cpuStep {s t : State} (h : cpuStep s = .next t) : step s = .next (t.elapse (t.cycles - s.cycles)) := by
  rw [step, h]

theorem State.service_none {s : State} (h : s.pending = .none) : s.service = s := by
  rw [State.service, h]

/-- Trap entry counts no cycle: the 7 are those of the service (R223) or of BRK's columns (R198). -/
theorem State.interrupt_cycles (s : State) (vector : Addr) (brk : Bool) : (s.interrupt vector brk).cycles = s.cycles := by
  obtain ⟨m, d, pc, h⟩ := s.interrupt_state vector brk
  rw [h]

theorem State.service_nmi {s : State} (h : s.pending = .nmi) :
    s.service = { s.interrupt s.config.nmiVector s.config.irqPushedB with pending := .none, cycles := s.cycles + 7 } := by
  rw [State.service, h]
  dsimp only
  rw [State.addCycles, State.interrupt_cycles]

theorem State.service_irq {s : State} (h : s.pending = .irq) :
    s.service = { s.interrupt s.config.irqVector s.config.irqPushedB with pending := .none, cycles := s.cycles + 7 } := by
  rw [State.service, h]
  dsimp only
  rw [State.addCycles, State.interrupt_cycles]

/-- Service and fetch: nothing is pending, the parameters are as they were, and an interrupt has cost 7 cycles. -/
theorem State.begin_state (s : State) :
    s.begin.2.pending = .none ∧ s.begin.2.config = s.config ∧
      s.begin.2.cycles = s.cycles + (if s.pending = .none then 0 else 7) := by
  unfold State.begin
  obtain ⟨d, hf⟩ := s.service.fetch_state
  obtain ⟨m, d', pc, sp, i, hs⟩ := s.service_state
  rw [hf, hs]
  exact ⟨rfl, rfl, rfl⟩

/-- Settles O36: the two cases of the step, the service by tag, the fetched bytes, and that no instruction sets the tag. -/
theorem stepOrder : Obligations.StepOrder := by
  unfold Obligations.StepOrder
  refine ⟨fun s h hs => cpuStep_stalled h hs, fun s h hs => ?_, fun _ => State.service_none, fun _ => State.service_nmi,
    fun _ => State.service_irq, fun s => ⟨s.fetch_opcode, s.fetch_state⟩,
    fun s => ⟨s.fetch_wf, (State.fetch_spec s).2⟩, fun _ _ => step_of_cpuStep, fun _ _ => rfl⟩
  obtain ⟨t, ht⟩ := exec_next s.begin.1 s.begin.2
  refine ⟨t, ht, (cpuStep_unstalled h hs).trans ht, ?_⟩
  rw [exec_confined s.service.fetch_wf ht]
  exact s.begin_state.1

/-! ### What an instruction adds to `cycles` (R18, R72, R89, R173) -/

/-- Entry costs what the columns of the instruction's opcode say. -/
theorem State.enter_cycles {i : Instr} {op : Byte} (hi : i.opcode = some op) (s : State) (o : Operand) (size : Nat) :
    (s.enter o size (columnsOf s.config i)).2.cycles = s.cycles + s.cost op o := by
  obtain ⟨d, hd⟩ := s.resolve_state o
  simp only [State.enter, hd, columnsOf_eq hi, State.cost, Bool.and_comm]

/-- A taken branch costs one or two cycles more (R173). -/
theorem State.branch_cycles {i : Instr} {op : Byte} (hi : i.opcode = some op) (s : State) (d8 : Byte) (taken : Bool) :
    ∃ extra, (s.branch i d8 taken).cycles = s.cycles + s.cost op (.relative d8) + extra ∧ extra ≤ 2 := by
  unfold State.branch
  dsimp only
  have he := State.enter_cycles hi s (.relative d8) 2
  split
  · rw [State.setPc_cycles, State.addCycles_cycles, he]
    exact ⟨_, rfl, by split <;> decide⟩
  · exact ⟨0, he, by decide⟩

theorem State.readOperand_cycles {i : Instr} {op : Byte} (hi : i.opcode = some op) (s : State) (o : Operand) :
    (s.readOperand i o).2.cycles = s.cycles + s.cost op o := by
  obtain ⟨d, hd⟩ := s.source_state o
  rw [State.readOperand_eq hi, State.advance_cycles, hd]

theorem State.writeOperand_cycles {i : Instr} {op : Byte} (hi : i.opcode = some op) (s : State) (o : Operand) (v : Byte) :
    (s.writeOperand i o v).cycles = s.cycles + s.cost op o := by
  unfold State.writeOperand
  have he := State.enter_cycles hi s o (modeSize o.mode)
  cases o <;> exact he

theorem State.modifyOperand_cycles {i : Instr} {op : Byte} (hi : i.opcode = some op) (s : State) (o : Operand)
    (f : Byte → Flags → AluResult) : (s.modifyOperand i o f).cycles = s.cycles + s.cost op o := by
  unfold State.modifyOperand
  have he := State.enter_cycles hi s o (modeSize o.mode)
  cases o <;> exact he

/-- An official instruction costs the cycles of its opcode's columns and operand; only a branch, whose base cost is 2 as
reset, may cost up to two more. -/
theorem exec_cycles {i : Instr} {op : Byte} {s t : State} (hi : i.opcode = some op) (hl : i.isIll = false)
    (he : exec i s = .next t) :
    ∃ extra, t.cycles = s.cycles + s.cost op i.operand + extra ∧
      (extra = 0 ∨ extra ≤ 2 ∧ TakesCycles op 2 false) := by
  cases i with
  | lda o | ldx o | ldy o | adc o | sbc o | cmp o | cpx o | cpy o | and o | ora o | eor o | bit o =>
    simp only [exec, execLda, execLdx, execLdy, execAdc, execSbc, execCmp, execCpx, execCpy, execAnd, execOra, execEor,
      execBit, Host.Outcome.next.injEq] at he
    subst he
    exact ⟨0, State.readOperand_cycles hi s o, .inl rfl⟩
  | sta o | stx o | sty o =>
    simp only [exec, execSta, execStx, execSty, Host.Outcome.next.injEq] at he
    subst he
    exact ⟨0, State.writeOperand_cycles hi s o _, .inl rfl⟩
  | inc o | dec o | asl o | lsr o | rol o | ror o =>
    simp only [exec, execInc, execDec, execAsl, execLsr, execRol, execRor, Host.Outcome.next.injEq] at he
    subst he
    exact ⟨0, State.modifyOperand_cycles hi s o _, .inl rfl⟩
  | bcc d8 | bcs d8 | beq d8 | bmi d8 | bne d8 | bpl d8 | bvc d8 | bvs d8 =>
    simp only [exec, execBcc, execBcs, execBeq, execBmi, execBne, execBpl, execBvc, execBvs,
      Host.Outcome.next.injEq] at he
    obtain ⟨extra, hc, hle⟩ := State.branch_cycles hi s d8 _
    cases hi
    exact ⟨extra, he ▸ hc, .inr ⟨hle, rfl⟩⟩
  | jmp o =>
    simp only [exec, execJmp, Host.Outcome.next.injEq] at he
    subst he
    exact ⟨0, State.enter_cycles hi s o 3, .inl rfl⟩
  | jsr a16 =>
    simp only [exec, execJsr, Host.Outcome.next.injEq] at he
    subst he
    exact ⟨0, State.enter_cycles hi s (.absolute a16) 3, .inl rfl⟩
  | brk =>
    simp only [exec, execBrk, Host.Outcome.next.injEq] at he
    subst he
    exact ⟨0, (State.interrupt_cycles _ _ _).trans (State.enter_cycles hi s .implied 2), .inl rfl⟩
  | ill op => cases hl
  | _ =>
    simp only [exec, execTax, execTay, execTxa, execTya, execTsx, execTxs, execPha, execPhp, execPla, execPlp, execInx,
      execIny, execDex, execDey, execRts, execClc, execCld, execCli, execClv, execSec, execSed, execSei, execNop, execRti,
      Host.Outcome.next.injEq] at he
    subst he
    exact ⟨0, State.enter_cycles hi s .implied 1, .inl rfl⟩

/-- No instruction lowers `cycles`. -/
theorem exec_cycles_le {i : Instr} {s t : State} (hw : i.wf = true) (he : exec i s = .next t) :
    s.cycles ≤ t.cycles := by
  obtain ⟨op, hi⟩ := i.wf_iff_opcode.1 hw
  cases hl : i.isIll with
  | false =>
    obtain ⟨extra, hc, -⟩ := exec_cycles hi hl he
    omega
  | true =>
    cases i with
    | ill op =>
      obtain ⟨d, pc, n, hle, hr⟩ := execIll_state op s
      simp only [exec, hr, Host.Outcome.next.injEq] at he
      rwa [← he]
    | _ => cases hl

/-! ### Bounds (R352) -/

/-- The columns depend on the parameter table only. -/
theorem officialColumns_congr {cfg cfg' : Config} (h : cfg.official = cfg'.official) (op : Byte) :
    officialColumns cfg op = officialColumns cfg' op := by
  rw [officialColumns, officialColumns, h]

/-- Every row of the reset table has at least 2 cycles and, the page cycle counted, at most 7 (D16). -/
theorem candidateOfficial_bounds :
    ∀ row ∈ candidateOfficial, 2 ≤ row.columns.cycles ∧ row.columns.cycles + row.columns.pageCycle.toNat ≤ 7 := by
  decide

theorem officialColumns_bounds (op : Byte) :
    2 ≤ (officialColumns State.reset.config op).cycles ∧
      (officialColumns State.reset.config op).cycles + (officialColumns State.reset.config op).pageCycle.toNat ≤ 7 := by
  unfold officialColumns
  split
  · rename_i row hrow
    exact candidateOfficial_bounds row (List.mem_of_find?_eq_some hrow)
  · decide

/-- With the reset table an official opcode costs 2 to 7 cycles; with base cost 2 and no page cycle, 2. -/
theorem State.cost_bounds {s : State} (h : s.config.official = State.reset.config.official) (op : Byte) (o : Operand) :
    2 ≤ s.cost op o ∧ s.cost op o ≤ 7 ∧ (TakesCycles op 2 false → s.cost op o = 2) := by
  unfold State.cost TakesCycles
  rw [officialColumns_congr h]
  obtain ⟨hlo, hhi⟩ := officialColumns_bounds op
  refine ⟨by omega, ?_, fun hc => by rw [hc]; rfl⟩
  cases hp : (officialColumns State.reset.config op).pageCycle with
  | false => simp only [hp, Bool.toNat_false] at hhi; simpa using hhi
  | true =>
    simp only [hp, Bool.toNat_true] at hhi
    split <;> omega

/-- With the reset table an official instruction costs 2 to 7 cycles. -/
theorem exec_cycles_bounds {i : Instr} {s t : State} (h : s.config.official = State.reset.config.official)
    (hw : i.wf = true) (hl : i.isIll = false) (he : exec i s = .next t) :
    s.cycles + 2 ≤ t.cycles ∧ t.cycles ≤ s.cycles + 7 := by
  obtain ⟨op, hi⟩ := i.wf_iff_opcode.1 hw
  obtain ⟨extra, hc, hx⟩ := exec_cycles hi hl he
  obtain ⟨hlo, hhi, hbranch⟩ := State.cost_bounds h op i.operand
  rcases hx with rfl | ⟨hle, htakes⟩
  · omega
  · have := hbranch htakes
    omega

theorem State.elapse_cycles (s : State) (n : Nat) : (s.elapse n).cycles = s.cycles := by
  obtain ⟨p, d, b, h⟩ := s.elapse_state n
  rw [h]

/-- Settles O42: the loop's accounting adds nothing to `cycles`, service 7 or nothing, the instruction its cost. -/
theorem stepCost : Obligations.StepCost := by
  unfold Obligations.StepCost
  intro s t h
  rcases step_cases h with ⟨-, ⟨hs, rfl⟩ | ⟨hs, u, hu, rfl⟩⟩
  · rw [State.elapse_cycles]
    exact ⟨Nat.le_succ _, fun _ => rfl, fun _ h0 => absurd h0 (by omega)⟩
  · rw [State.elapse_cycles]
    have hw : s.begin.1.wf = true := s.service.fetch_wf
    obtain ⟨-, hcfg, hcyc⟩ := s.begin_state
    have hle := exec_cycles_le hw hu
    refine ⟨by omega, fun h0 => absurd h0 (by omega), fun hoff _ hl => ?_⟩
    obtain ⟨hlo, hhi⟩ := exec_cycles_bounds (hcfg ▸ hoff) hw hl hu
    refine ⟨fun hp => ?_, fun hp => ?_⟩
    · rw [hcyc, if_pos hp] at hlo hhi
      exact ⟨hlo, hhi⟩
    · rw [hcyc, if_neg hp] at hlo hhi
      omega

end Sys2Proof.Machine
end

section
/-! PROOFS. O29: no instruction touches what the host and the loop keep, and one whose accesses lie outside the chipset
window touches no device. -/

namespace Sys2Proof.Machine

/-! ### Operations that touch no device outside the window (R48) -/

/-- An operand that is neither A nor in the instruction is accessed at its effective address and its pointer bytes. -/
theorem State.operandBytes_eq (s : State) {o : Operand} (ha : o ≠ .accumulator) (hi : ∀ d8, o ≠ .immediate d8) :
    s.operandBytes o = (s.resolve o).1.ea :: s.pointerBytes o := by
  cases o <;> first | rfl | exact absurd rfl ha | exact absurd rfl (hi _)

/-- Resolving an operand all of whose accessed bytes are quiet changes nothing, and its effective address is quiet. -/
theorem State.resolve_quiet_of_operandBytes {s : State} {o : Operand} (ha : o ≠ .accumulator)
    (hi : ∀ d8, o ≠ .immediate d8) (h : ∀ a ∈ s.operandBytes o, Quiet s.config a) :
    (s.resolve o).2 = s ∧ Quiet s.config (s.resolve o).1.ea := by
  rw [State.operandBytes_eq s ha hi, List.forall_mem_cons] at h
  exact ⟨State.resolve_quiet h.2, h.1⟩

theorem State.set_quiet {s : State} {a : Addr} (v : Byte) (h : Quiet s.config a) : (s.set a v).dev = s.dev :=
  writeAt_quiet h _ _ _

theorem State.source_quiet {s : State} {o : Operand} (h : ∀ a ∈ s.operandBytes o, Quiet s.config a) :
    (s.source o).2 = s := by
  by_cases ha : o = .accumulator
  · subst ha
    rfl
  by_cases hi : ∀ d8, o ≠ .immediate d8
  · obtain ⟨hr, hq⟩ := State.resolve_quiet_of_operandBytes ha hi h
    have hs : (s.source o).2 = ((s.resolve o).2.get (s.resolve o).1.ea).2 := by
      cases o <;> first | rfl | exact absurd rfl ha | exact absurd rfl (hi _)
    rw [hs, hr, State.get_quiet hq]
  · obtain ⟨d8, rfl⟩ : ∃ d8, o = .immediate d8 := by simpa using hi
    rfl

theorem State.readOperand_quiet {s : State} {i : Instr} {o : Operand} (hw : i.wf = true)
    (h : ∀ a ∈ s.operandBytes o, Quiet s.config a) : (s.readOperand i o).2.dev = s.dev := by
  obtain ⟨op, hi⟩ := i.wf_iff_opcode.1 hw
  rw [State.readOperand_eq hi, State.advance_dev, State.source_quiet h]

theorem State.writeOperand_quiet {s : State} {i : Instr} {o : Operand} (hw : i.wf = true) (v : Byte)
    (ha : o ≠ .accumulator) (hi : ∀ d8, o ≠ .immediate d8) (h : ∀ a ∈ s.operandBytes o, Quiet s.config a) :
    (s.writeOperand i o v).dev = s.dev := by
  obtain ⟨op, hop⟩ := i.wf_iff_opcode.1 hw
  obtain ⟨hr, hq⟩ := State.resolve_quiet_of_operandBytes ha hi h
  rw [State.writeOperand_eq hop v ha, State.advance_dev, hr, State.set_quiet v hq]

theorem State.modifyOperand_quiet {s : State} {i : Instr} {o : Operand} (hw : i.wf = true)
    (f : Byte → Flags → AluResult) (hi : ∀ d8, o ≠ .immediate d8)
    (h : ∀ a ∈ s.operandBytes o, Quiet s.config a) : (s.modifyOperand i o f).dev = s.dev := by
  obtain ⟨op, hop⟩ := i.wf_iff_opcode.1 hw
  by_cases ha : o = .accumulator
  · subst ha
    rfl
  · obtain ⟨hr, hq⟩ := State.resolve_quiet_of_operandBytes ha hi h
    rw [State.modifyOperand_eq hop f ha hi, State.advance_dev, State.setFlags_dev, hr, State.get_quiet hq,
      State.set_quiet _ hq]

theorem State.enter_quiet {s : State} {o : Operand} (size : Nat) (c : CycleColumns)
    (h : ∀ a ∈ s.pointerBytes o, Quiet s.config a) : (s.enter o size c).2.dev = s.dev := by
  rw [State.enter, State.resolve_quiet h]

theorem State.fetchOperand_quiet {s : State} (m : Mode) (h1 : Quiet s.config (s.pc + 1))
    (h2 : Quiet s.config (s.pc + 2)) : (s.fetchOperand m).2 = s := by
  have hb := State.get_quiet h1
  cases m with
  | implied | accumulator | immediate => rfl
  | zeroPage | zeroPageX | zeroPageY | indexedIndirect | indirectIndexed | relative => exact hb
  | absolute | absoluteX | absoluteY | indirect =>
    rw [State.fetchOperand]
    dsimp only
    rw [hb, State.get_quiet h2]

theorem State.read16_quiet {s : State} {a : Addr} (h : Quiet s.config a) (h' : Quiet s.config (a + 1)) :
    (s.read16 a).2 = s := by
  rw [State.read16, State.get_quiet h, State.get_quiet h']

/-! ### The stack and interrupts outside the window (R13, R199, R224) -/

theorem Byte.sub_one_sub_one (b : Byte) : b - 1 - 1 = b - 2 := sub_sub b 1 1

theorem Byte.add_one_add_one (b : Byte) : b + 1 + 1 = b + 2 := add_assoc b 1 1

theorem Byte.add_one_add_two (b : Byte) : b + 1 + 2 = b + 3 := add_assoc b 1 2

theorem State.push16_config (s : State) (w : Addr) : (s.push16 w).config = s.config := by
  rw [State.push16, State.push_config, State.push_config]

theorem State.push16_quiet {s : State} (w : Addr) (h0 : Quiet s.config (stackAddr s.config s.sp))
    (h1 : Quiet s.config (stackAddr s.config (s.sp - 1))) : (s.push16 w).dev = s.dev := by
  rw [State.push16, State.push_quiet _ (by rwa [State.push_config, State.push_sp]), State.push_quiet _ h0]

/-- Pulling a word whose bytes lie outside the window changes SP only. -/
theorem State.pull16_quiet {s : State} (h1 : Quiet s.config (stackAddr s.config (s.sp + 1)))
    (h2 : Quiet s.config (stackAddr s.config (s.sp + 2))) : s.pull16.2 = { s with sp := s.sp + 2 } := by
  rw [← Byte.add_one_add_one] at h2 ⊢
  rw [State.pull16, State.pull_quiet h1, State.pull_quiet h2]

/-- Pulling the flags from outside the window changes SP and the flags only. -/
theorem State.pullFlags_quiet {s : State} (h : Quiet s.config (stackAddr s.config (s.sp + 1))) :
    s.pullFlags = { s with sp := s.sp + 1, flags := Flags.pulled s.pull.1 } := by
  rw [State.pullFlags, State.pull_quiet h, State.setFlags]

theorem State.returnFromInterrupt_quiet {s : State} (h1 : Quiet s.config (stackAddr s.config (s.sp + 1)))
    (h2 : Quiet s.config (stackAddr s.config (s.sp + 2))) (h3 : Quiet s.config (stackAddr s.config (s.sp + 3))) :
    s.returnFromInterrupt.dev = s.dev := by
  rw [← Byte.add_one_add_one] at h2
  rw [← Byte.add_one_add_two] at h3
  rw [State.returnFromInterrupt, State.setPc_dev, State.pullFlags_quiet h1, State.pull16_quiet h2 h3]

theorem State.interrupt_quiet {s : State} (vector : Addr) (brk : Bool) (h0 : Quiet s.config (stackAddr s.config s.sp))
    (h1 : Quiet s.config (stackAddr s.config (s.sp - 1))) (h2 : Quiet s.config (stackAddr s.config (s.sp - 2)))
    (hlo : Quiet s.config vector) (hhi : Quiet s.config (vector + 1)) : (s.interrupt vector brk).dev = s.dev := by
  rw [← Byte.sub_one_sub_one] at h2
  have hc := State.push16_config s s.pc
  have hpush (v : Byte) : ((s.push16 s.pc).push v).dev = s.dev := by
    rw [State.push_quiet _ (by rwa [hc, State.push16_sp]), State.push16_quiet _ h0 h1]
  rw [State.interrupt, State.setPc_dev, State.read16_quiet, State.setFlags_dev, hpush]
  · rwa [State.setFlags_config, State.push_config, hc]
  · rwa [State.setFlags_config, State.push_config, hc]

/-- An instruction whose accesses all lie outside the chipset window changes no device. -/
theorem exec_quiet {i : Instr} {s t : State} (hw : i.wf = true) (he : exec i s = .next t)
    (h : ∀ a ∈ s.accessed i, Quiet s.config a) : t.dev = s.dev := by
  cases i with
  | lda o | ldx o | ldy o | adc o | sbc o | cmp o | cpx o | cpy o | and o | ora o | eor o | bit o =>
    simp only [exec, execLda, execLdx, execLdy, execAdc, execSbc, execCmp, execCpx, execCpy, execAnd, execOra, execEor,
      execBit, Host.Outcome.next.injEq] at he
    subst he
    exact State.readOperand_quiet hw h
  | sta o | stx o | sty o =>
    simp only [exec, execSta, execStx, execSty, Host.Outcome.next.injEq] at he
    subst he
    have ha : o ≠ .accumulator := by rintro rfl; cases hw
    have hi : ∀ d8, o ≠ .immediate d8 := by rintro d8 rfl; cases hw
    exact State.writeOperand_quiet hw _ ha hi h
  | inc o | dec o | asl o | lsr o | rol o | ror o =>
    simp only [exec, execInc, execDec, execAsl, execLsr, execRol, execRor, Host.Outcome.next.injEq] at he
    subst he
    have hi : ∀ d8, o ≠ .immediate d8 := by rintro d8 rfl; cases hw
    exact State.modifyOperand_quiet hw _ hi h
  | bcc d8 | bcs d8 | beq d8 | bmi d8 | bne d8 | bpl d8 | bvc d8 | bvs d8 =>
    simp only [exec, execBcc, execBcs, execBeq, execBmi, execBne, execBpl, execBvc, execBvs,
      Host.Outcome.next.injEq] at he
    obtain ⟨c, p, hr⟩ := State.branch_state s _ d8 _
    rw [← he, hr]
  | jmp o =>
    simp only [exec, execJmp, Host.Outcome.next.injEq] at he
    subst he
    exact State.enter_quiet 3 (columnsOf s.config (.jmp o)) h
  | ill op =>
    simp only [exec, execIll, Host.Outcome.next.injEq] at he
    simp only [State.accessed_ill, List.cons_append, List.nil_append, List.forall_mem_cons] at h
    obtain ⟨h1, h2, hp⟩ := h
    rw [State.fetchOperand_quiet _ h1 h2] at he
    subst he
    exact State.enter_quiet _ _ hp
  | jsr a16 =>
    simp only [exec, execJsr, Host.Outcome.next.injEq] at he
    simp only [State.accessed_jsr, List.forall_mem_cons] at h
    obtain ⟨h0, h1, -⟩ := h
    have hd : (s.enter (.absolute a16) 3 (columnsOf s.config (.jsr a16))).2.dev = s.dev := rfl
    obtain ⟨d, n, hr⟩ := s.enter_state (.absolute a16) 3 (columnsOf s.config (.jsr a16))
    rw [← he, State.setPc_dev, State.push16_quiet _ (by rwa [hr]) (by rwa [hr]), hd]
  | brk =>
    simp only [exec, execBrk, Host.Outcome.next.injEq] at he
    simp only [State.accessed_brk, List.forall_mem_cons] at h
    obtain ⟨h0, h1, h2, hlo, hhi, -⟩ := h
    have hd : (s.enter .implied 2 (columnsOf s.config .brk)).2.dev = s.dev := rfl
    obtain ⟨d, n, hr⟩ := s.enter_state .implied 2 (columnsOf s.config .brk)
    rw [← he, State.interrupt_quiet _ _ (by rwa [hr]) (by rwa [hr]) (by rwa [hr]) (by rwa [hr]) (by rwa [hr]), hd]
  | pha | php =>
    simp only [exec, execPha, execPhp, Host.Outcome.next.injEq] at he
    simp only [State.accessed_pha, State.accessed_php, List.forall_mem_cons] at h
    subst he
    exact State.push_quiet _ h.1
  | pla =>
    simp only [exec, execPla, Host.Outcome.next.injEq] at he
    simp only [State.accessed_pla, List.forall_mem_cons] at h
    obtain ⟨n, hn⟩ := s.enterImplied_state .pla
    rw [← he, State.setZN_dev, hn, State.pull_quiet (by exact h.1)]
  | plp =>
    simp only [exec, execPlp, Host.Outcome.next.injEq] at he
    simp only [State.accessed_plp, List.forall_mem_cons] at h
    obtain ⟨n, hn⟩ := s.enterImplied_state .plp
    rw [← he, hn, State.pullFlags_quiet (by exact h.1)]
  | rts =>
    simp only [exec, execRts, Host.Outcome.next.injEq] at he
    simp only [State.accessed_rts, List.forall_mem_cons] at h
    obtain ⟨n, hn⟩ := s.enterImplied_state .rts
    rw [← he, State.setPc_dev, hn, State.pull16_quiet (by exact h.1) (by exact h.2.1)]
  | rti =>
    simp only [exec, execRti, Host.Outcome.next.injEq] at he
    simp only [State.accessed_rti, List.forall_mem_cons] at h
    obtain ⟨h1, h2, h3, -⟩ := h
    obtain ⟨n, hn⟩ := s.enterImplied_state .rti
    rw [← he, hn, State.returnFromInterrupt_quiet (by exact h1) (by exact h2) (by exact h3)]
  | _ =>
    simp only [exec, execTax, execTay, execTxa, execTya, execTsx, execTxs, execInx, execIny, execDex, execDey, execClc,
      execCld, execCli, execClv, execSec, execSed, execSei, execNop, Host.Outcome.next.injEq] at he
    subst he
    rfl

/-- Settles O29: the host's and the loop's fields by `exec_confined`, the devices by `exec_quiet`. -/
theorem frameRest : Obligations.FrameRest := by
  unfold Obligations.FrameRest
  intro i s t hw he
  refine ⟨?_, ?_, ?_, ?_, ?_, exec_quiet hw he⟩ <;> rw [exec_confined hw he] <;> rfl

end Sys2Proof.Machine
end

section
/-! PROOFS. O59: the directory copy, `add_file`, `start_save` and `fname_done`. -/

namespace Sys2Proof.Machine

/-! ### The resident directory chunk (R24, R313, R316) -/

theorem Storage.makeResident_of_hits {st : Storage} {addr : Nat} (h : st.hits addr = true) :
    st.makeResident addr = st := by
  rw [Storage.makeResident, if_pos h]

/-- After the read path the window holds the address. -/
theorem Storage.hits_makeResident (st : Storage) (addr : Nat) : (st.makeResident addr).hits addr = true := by
  unfold Storage.makeResident
  split
  · assumption
  · dsimp only
    obtain ⟨f, n, w, hr⟩ := Storage.deviceRead_state { st.flushIfDirty with base := Storage.sectorBase addr }
      (Storage.sectorBase addr)
    rw [hr]
    simp [Storage.hits]

theorem Storage.fetchDirectory_of_valid {st : Storage} (h : st.dirValid = true) : st.fetchDirectory = st := by
  rw [Storage.fetchDirectory, if_pos h]

/-- A copy that is not valid is read through the cache window (log 35). -/
theorem Storage.fetchDirectory_of_invalid {st : Storage} (h : st.dirValid = false) :
    st.fetchDirectory =
      { st.makeResident 0 with dir := parseDirectory (st.makeResident 0).buf, dirValid := true } := by
  rw [Storage.fetchDirectory, h]
  rfl

/-- While the directory chunk is resident, fetching the copy changes the copy only. -/
theorem Storage.fetchDirectory_of_hits {st : Storage} (h : st.hits 0 = true) :
    ∃ dir, st.fetchDirectory = { st with dir := dir, dirValid := true } := by
  cases hv : st.dirValid with
  | true =>
    rw [Storage.fetchDirectory_of_valid hv]
    exact ⟨st.dir, by rw [← hv]⟩
  | false =>
    rw [Storage.fetchDirectory_of_invalid hv, Storage.makeResident_of_hits h]
    exact ⟨_, rfl⟩

theorem parseDirectory_getElem (w : Vector Byte 1024) (k : Fin 46) : (parseDirectory w)[k] = DirSlot.parse w k := by
  simp [parseDirectory]

/-! ### A slot's bytes (R301) -/

theorem DirSlot.parse_name_getD (w : Vector Byte 1024) (k : Nat) {j : Nat} (h : j < 16) :
    (DirSlot.parse w k).name.toList.getD j 0 = w.toList.getD (22 * k + j) 0 := by
  simp [DirSlot.parse, Storage.slotAddr, h]

/-- A slot is its 22 bytes. -/
theorem DirSlot.parse_congr {w w' : Vector Byte 1024} {k : Nat}
    (h : ∀ j, j < 22 → w.toList.getD (Storage.slotAddr k + j) 0 = w'.toList.getD (Storage.slotAddr k + j) 0) :
    DirSlot.parse w k = DirSlot.parse w' k := by
  have hname : (List.range 16).map (fun j => w.toList.getD (Storage.slotAddr k + j) 0) =
      (List.range 16).map (fun j => w'.toList.getD (Storage.slotAddr k + j) 0) :=
    List.map_congr_left fun j hj => h j (by have := List.mem_range.1 hj; omega)
  simp only [DirSlot.parse, hname, h 16 (by decide), h 17 (by decide), h 18 (by decide), h 19 (by decide),
    h 20 (by decide), h 21 (by decide)]

/-- The four address bytes spell the address of the slot's window (R302). -/
theorem addressBytes_word : ∀ i : Fin 46,
    (addressBytes i).getD 0 0 ++ (addressBytes i).getD 1 0 ++ (addressBytes i).getD 2 0 ++ (addressBytes i).getD 3 0 =
      BitVec.ofNat 32 (i.val * 8192 + 1024) := by
  decide

theorem lengthBytes_zero_word : (lengthBytes 0).getD 0 0 ++ (lengthBytes 0).getD 1 0 = (0 : BitVec 16) := by
  decide

/-- The 22 bytes `add_file` writes (R304). -/
def entryBytes (name : Vector Byte 16) (i : Nat) : List Byte := name.toList ++ addressBytes i ++ lengthBytes 0

theorem length_entryBytes (name : Vector Byte 16) (i : Nat) : (entryBytes name i).length = 22 := by
  simp [entryBytes, addressBytes, lengthBytes]

theorem entryBytes_getD_name (name : Vector Byte 16) (i : Nat) {j : Nat} (h : j < 16) :
    (entryBytes name i).getD j 0 = name[j] := by
  have hj : j < name.toList.length := by simpa using h
  rw [entryBytes, List.append_assoc, List.getD_append _ _ _ _ hj, List.getD_eq_getElem _ _ hj]
  rfl

theorem entryBytes_getD_fields (name : Vector Byte 16) (i j : Nat) :
    (entryBytes name i).getD (16 + j) 0 = (addressBytes i ++ lengthBytes 0).getD j 0 := by
  rw [entryBytes, List.append_assoc, List.getD_append_right _ _ _ _ (by simp)]
  simp

/-- A slot whose bytes are those of an entry is that entry. -/
theorem DirSlot.parse_entry {w : Vector Byte 1024} {name : Vector Byte 16} {i : Fin 46}
    (h : ∀ j, j < 22 → w.toList.getD (Storage.slotAddr i + j) 0 = (entryBytes name i).getD j 0) :
    DirSlot.parse w i = { name := name, addr := BitVec.ofNat 32 (i.val * 8192 + 1024), len := 0 } := by
  have hname : (DirSlot.parse w i).name = name := by
    ext1 j hj
    simp only [DirSlot.parse, Vector.getElem_mk, List.getElem_toArray, List.getElem_map, List.getElem_range]
    rw [h j (by omega), entryBytes_getD_name name i hj]
  have hfield (j : Nat) (hj : j < 6) :
      w.toList.getD (Storage.slotAddr i + (16 + j)) 0 = (addressBytes i ++ lengthBytes 0).getD j 0 := by
    rw [h _ (by omega), entryBytes_getD_fields]
  have haddr : (DirSlot.parse w i).addr = BitVec.ofNat 32 (i.val * 8192 + 1024) := by
    rw [← addressBytes_word i]
    simp only [DirSlot.parse]
    rw [hfield 0 (by decide), hfield 1 (by decide), hfield 2 (by decide), hfield 3 (by decide)]
    rfl
  have hlen : (DirSlot.parse w i).len = 0 := by
    simp only [DirSlot.parse]
    rw [hfield 4 (by decide), hfield 5 (by decide)]
    exact lengthBytes_zero_word
  rw [← hname, ← haddr, ← hlen]

/-! ### The first slot that passes (R304, R306) -/

theorem DirSlot.usable_iff (s : DirSlot) (name : Vector Byte 16) :
    (s.free || s.name == name) = true ↔ s.addr = 0 ∨ s.addr = 0xFFFFFFFF ∨ s.name = name := by
  simp [DirSlot.free, or_assoc]

theorem DirSlot.matches_iff (s : DirSlot) (name : Vector Byte 16) :
    (!s.free && s.name == name) = true ↔ s.addr ≠ 0 ∧ s.addr ≠ 0xFFFFFFFF ∧ s.name = name := by
  simp [DirSlot.free, and_assoc]

theorem Storage.findSlot_eq_some_iff {dir : Vector DirSlot 46} {name : Vector Byte 16} {i : Fin 46} :
    Storage.findSlot dir name = some i ↔
      (dir[i].addr = 0 ∨ dir[i].addr = 0xFFFFFFFF ∨ dir[i].name = name) ∧
        ∀ k, k < i → ¬ (dir[k].addr = 0 ∨ dir[k].addr = 0xFFFFFFFF ∨ dir[k].name = name) := by
  simp only [Storage.findSlot, ← Fin.find?_eq_find?_finRange, Fin.find?_eq_some_iff, ← DirSlot.usable_iff,
    Bool.not_eq_true]

theorem Storage.findSlot_eq_none_iff {dir : Vector DirSlot 46} {name : Vector Byte 16} :
    Storage.findSlot dir name = none ↔
      ∀ k : Fin 46, ¬ (dir[k].addr = 0 ∨ dir[k].addr = 0xFFFFFFFF ∨ dir[k].name = name) := by
  simp only [Storage.findSlot, ← Fin.find?_eq_find?_finRange, Fin.find?_eq_none_iff, ← DirSlot.usable_iff,
    Bool.not_eq_true]

theorem Storage.findFile_eq_some_iff {dir : Vector DirSlot 46} {name : Vector Byte 16} {i : Fin 46} :
    Storage.findFile dir name = some i ↔
      (dir[i].addr ≠ 0 ∧ dir[i].addr ≠ 0xFFFFFFFF ∧ dir[i].name = name) ∧
        ∀ k, k < i → ¬ (dir[k].addr ≠ 0 ∧ dir[k].addr ≠ 0xFFFFFFFF ∧ dir[k].name = name) := by
  simp only [Storage.findFile, ← Fin.find?_eq_find?_finRange, Fin.find?_eq_some_iff, ← DirSlot.matches_iff,
    Bool.not_eq_true]

theorem Storage.findFile_eq_none_iff {dir : Vector DirSlot 46} {name : Vector Byte 16} :
    Storage.findFile dir name = none ↔
      ∀ k : Fin 46, ¬ (dir[k].addr ≠ 0 ∧ dir[k].addr ≠ 0xFFFFFFFF ∧ dir[k].name = name) := by
  simp only [Storage.findFile, ← Fin.find?_eq_find?_finRange, Fin.find?_eq_none_iff, ← DirSlot.matches_iff,
    Bool.not_eq_true]

/-! ### `add_file` (R304, R316) -/

theorem Storage.addFile_of_none {st : Storage} {name : Vector Byte 16}
    (h : Storage.findSlot ((st.makeResident 0).fetchDirectory).dir name = none) : (st.addFile name).1 = .noSlot := by
  rw [Storage.addFile]
  dsimp only
  rw [h]

theorem Storage.addFile_of_some {st : Storage} {name : Vector Byte 16} {i : Fin 46}
    (h : Storage.findSlot ((st.makeResident 0).fetchDirectory).dir name = some i) :
    st.addFile name =
      (.slot i, { Storage.writeBytes (entryBytes name i) (Storage.slotAddr i) (st.makeResident 0).fetchDirectory with
        dirValid := false }) := by
  rw [Storage.addFile]
  dsimp only
  rw [h]
  rfl

/-- The slot taken holds the entry, the other slots of the window are as they were. -/
theorem Storage.addFile_buf {st : Storage} {name : Vector Byte 16} {i : Fin 46}
    (h : Storage.findSlot ((st.makeResident 0).fetchDirectory).dir name = some i) :
    DirSlot.parse (st.addFile name).2.buf i =
        { name := name, addr := BitVec.ofNat 32 (i.val * 8192 + 1024), len := 0 } ∧
      ∀ k : Fin 46, k ≠ i → DirSlot.parse (st.addFile name).2.buf k = DirSlot.parse (st.makeResident 0).buf k := by
  have hhit := st.hits_makeResident 0
  obtain ⟨dir, hdir⟩ := Storage.fetchDirectory_of_hits hhit
  have hroom : Storage.slotAddr i + (entryBytes name i).length ≤ 1024 := by
    rw [length_entryBytes, Storage.slotAddr]
    omega
  obtain ⟨w, dirty, hw, hin, hout⟩ := Storage.writeBytes_hit (st := (st.makeResident 0).fetchDirectory)
    (entryBytes name i) (by rw [hdir]; exact hhit) hroom
  have hbuf : (st.addFile name).2.buf = w := by rw [Storage.addFile_of_some h, hw]
  rw [length_entryBytes] at hin hout
  rw [hbuf]
  refine ⟨DirSlot.parse_entry fun j hj => hin j 0 hj, fun k hk => DirSlot.parse_congr fun j hj => ?_⟩
  have hne : k.val ≠ i.val := fun e => hk (Fin.ext e)
  rw [hout _ 0 (by simp only [Storage.slotAddr]; omega), hdir]

/-! ### The pending filename and `fname_done` (R305, R306) -/

theorem Storage.filename_getD (st : Storage) {j : Nat} (h : j < 16) (d : Byte) :
    st.filename.toList.getD j d = st.pendingName.getD j 0x00 := by
  simp [Storage.filename, h]

theorem Storage.fnameDone_listing {st : Storage} (h : st.filename.toList.getD 0 0 = 0x24) :
    st.fnameDone = { st with listing := true } := by
  rw [Storage.fnameDone]
  exact if_pos h

/-- The file that a search makes current: the slot found, or the not-found sentinel (R306). -/
def FileRef.ofSearch : Option (Fin 46) → FileRef
  | some i => .slot i
  | none => .notFound

theorem Storage.fnameDone_search {st : Storage} (h : st.filename.toList.getD 0 0 ≠ 0x24) :
    st.fnameDone = { st.fetchDirectory with
      listing := false, writeOpen := false
      current := FileRef.ofSearch (Storage.findFile st.fetchDirectory.dir st.filename) } := by
  rw [Storage.fnameDone]
  refine (if_neg h).trans ?_
  dsimp only
  cases Storage.findFile st.fetchDirectory.dir st.filename <;> rfl

/-- Settles O59: `add_file` and `fname_done` by the search that each makes, the entry by the 22 bytes written. -/
theorem addFile : Obligations.AddFile := by
  unfold Obligations.AddFile
  refine ⟨fun st => ⟨Storage.fetchDirectory_of_valid, fun h => ?_⟩, fun _ _ => rfl,
    fun w k => ⟨fun j hj => DirSlot.parse_name_getD w k hj, rfl, rfl⟩,
    fun st name => ⟨fun h => ?_, fun i hi hfirst => ?_⟩,
    fun st j hj => st.filename_getD hj _, fun _ => rfl, fun _ => Storage.fnameDone_listing, fun st h => ?_⟩
  · rw [Storage.fetchDirectory_of_invalid h]
    exact ⟨rfl, fun k => parseDirectory_getElem _ k⟩
  · have hnone := Storage.addFile_of_none (Storage.findSlot_eq_none_iff.2 h)
    exact ⟨hnone, fun cfg => by rw [hnone]; rfl⟩
  · have hsome := Storage.findSlot_eq_some_iff.2 ⟨hi, hfirst⟩
    have hadd := Storage.addFile_of_some hsome
    exact ⟨by rw [hadd], fun cfg => by rw [hadd]; rfl, by rw [hadd], Storage.addFile_buf hsome⟩
  · have hdone := Storage.fnameDone_search h
    have hcur : st.fnameDone.current = FileRef.ofSearch (Storage.findFile st.fetchDirectory.dir st.filename) := by
      rw [hdone]
    refine ⟨by rw [hcur, hdone], fun ⟨k, hk⟩ => ?_, fun k hk hfirst => ?_, fun hno => ?_⟩
    · cases hf : Storage.findFile st.fetchDirectory.dir st.filename with
      | none => exact absurd hk (Storage.findFile_eq_none_iff.1 hf k)
      | some i => exact ⟨i, (Storage.findFile_eq_some_iff.1 hf).1, by rw [hcur, hf]; rfl⟩
    · rw [hcur, Storage.findFile_eq_some_iff.2 ⟨hk, hfirst⟩]
      rfl
    · rw [hcur, Storage.findFile_eq_none_iff.2 hno]
      rfl

end Sys2Proof.Machine
end

section
/-! PROOFS. O44 (the canonical form of memory and flash) and O47 (no step changes ROM or the address map): what every access
and every tick keeps, a step keeps; and that what each Storage operation keeps, every chipset access keeps. -/

namespace Sys2Proof.Machine

/-! ### The flash device's canonical form under each Storage operation (R303, R312 to R317) -/

/-- The flash device is in canonical form. -/
def Storage.FlashWf (st : Storage) : Prop := Cells.wf erasedByte st.flash

namespace Storage.FlashWf

variable {st : Storage}

theorem congr {st' : Storage} (h : st.FlashWf) (hf : st'.flash = st.flash) : st'.FlashWf := by
  rw [FlashWf, hf]
  exact h

theorem deviceRead (h : st.FlashWf) (base : Nat) : (st.deviceRead base).FlashWf := by
  obtain ⟨f, n, w, hr⟩ := st.deviceRead_state base
  exact h.congr (by rw [hr])

/-- A flush replaces bytes of the device, whatever operations fail. -/
theorem flush (h : st.FlashWf) : st.flush.FlashWf := by
  obtain ⟨f, n, w, bs, bs', hf⟩ := st.flush_state
  rw [hf]
  exact Cells.wf_replace (Cells.wf_replace h _ _) _ _

theorem flushIfDirty (h : st.FlashWf) : st.flushIfDirty.FlashWf := by
  unfold Storage.flushIfDirty
  split
  · exact h.flush
  · exact h

theorem makeResident (h : st.FlashWf) (addr : Nat) : (st.makeResident addr).FlashWf := by
  unfold Storage.makeResident
  split
  · exact h
  · have hbase : { st.flushIfDirty with base := Storage.sectorBase addr }.FlashWf := h.flushIfDirty
    exact hbase.deviceRead (Storage.sectorBase addr)

theorem makeWritable (h : st.FlashWf) (addr : Nat) : (st.makeWritable addr).FlashWf := by
  unfold Storage.makeWritable
  split
  · exact h
  · exact h.flushIfDirty

theorem writeByte (h : st.FlashWf) (addr : Nat) (v : Byte) : (st.writeByte addr v).FlashWf := h.makeWritable addr

theorem writeBytes (bs : List Byte) {st : Storage} (h : st.FlashWf) (addr : Nat) :
    (Storage.writeBytes bs addr st).FlashWf := by
  induction bs generalizing st addr with
  | nil => exact h
  | cons b bs ih => exact ih (h.writeByte addr b) (addr + 1)

theorem fetchDirectory (h : st.FlashWf) : st.fetchDirectory.FlashWf := by
  unfold Storage.fetchDirectory
  split
  · exact h
  · exact h.makeResident 0

theorem addFile (h : st.FlashWf) (name : Vector Byte 16) : (st.addFile name).2.FlashWf := by
  unfold Storage.addFile
  dsimp only
  have hdir := (h.makeResident 0).fetchDirectory
  split
  · exact hdir
  · exact writeBytes _ hdir _

theorem setFilesize (h : st.FlashWf) (i : Fin 46) (n : Nat) : (st.setFilesize i n).FlashWf :=
  (writeBytes (lengthBytes n) (h.makeResident 0) (Storage.slotAddr i + 20)).flush

end Storage.FlashWf

/-! ### What the contract keeps, every chipset access keeps (R251, R290 to R310) -/

theorem Devices.settle_store (cfg : Config) (before : Bus) (d : Devices) : (d.settle cfg before).store = d.store := rfl

/-- `P` is kept by every operation the InstrumentBus calls of the Storage. -/
structure Storage.KeptByContract (P : Storage → Prop) : Prop where
  startFilename : ∀ st, P st → P st.startFilename
  nextFilenameByte : ∀ b st, P st → P (st.nextFilenameByte b)
  padFilename : ∀ st, P st → P st.padFilename
  fnameDone : ∀ st, P st → P st.fnameDone
  startSave : ∀ st, P st → P st.startSave
  saveDataByte : ∀ i v st, P st → P (st.saveDataByte i v)
  endSave : ∀ n st, P st → P (st.endSave n)
  loadDataLen : ∀ st, P st → P st.loadDataLen.2
  loadDataByte : ∀ cfg i st, P st → P (st.loadDataByte cfg i).2
  openLegacySave : ∀ st, P st → P st.openLegacySave

namespace Storage.KeptByContract

variable {P : Storage → Prop} {d : Devices}

theorem finalizeFilename (hP : KeptByContract P) (h : P d.store) : P d.finalizeFilename.store := by
  have hpad := hP.padFilename _ h
  unfold Devices.finalizeFilename
  dsimp only
  split
  · exact hP.fnameDone _ hpad
  · exact hP.startSave _ hpad

theorem commandIdle (hP : KeptByContract P) (cfg : Config) (byte : Byte) (h : P d.store) :
    P (d.commandIdle cfg byte).store := by
  unfold Devices.commandIdle
  split
  · exact h
  split
  · exact h
  split
  · split
    · exact hP.loadDataByte _ _ _ h
    · exact h
  split
  · exact hP.openLegacySave _ h
  · exact h

theorem commandListen (hP : KeptByContract P) (cfg : Config) (byte : Byte) (h : P d.store) :
    P (d.commandListen cfg byte).store := by
  unfold Devices.commandListen
  split
  · exact hP.startFilename _ h
  split
  · exact hP.startFilename _ h
  split
  · exact h
  split <;> exact h

theorem command (hP : KeptByContract P) (cfg : Config) (byte : Byte) (h : P d.store) :
    P (d.command cfg byte).store := by
  unfold Devices.command
  split
  · exact hP.commandIdle cfg byte h
  · exact hP.commandListen cfg byte h
  · unfold Devices.commandCapture
    split
    · exact hP.finalizeFilename h
    · exact h
  · unfold Devices.commandLoad
    split <;> exact h
  · unfold Devices.commandSave
    split
    · exact hP.endSave _ _ h
    · exact h
  · exact h

theorem dataByte (hP : KeptByContract P) (byte : Byte) (h : P d.store) : P (d.dataByte byte).store := by
  unfold Devices.dataByte
  split
  · exact hP.nextFilenameByte _ _ h
  · exact hP.saveDataByte _ _ _ h
  · exact hP.saveDataByte _ _ _ h
  all_goals exact h

theorem dataIn (hP : KeptByContract P) (cfg : Config) (byte : Byte) (h : P d.store) :
    P (d.dataIn cfg byte).store := by
  unfold Devices.dataIn
  split
  · exact hP.dataByte byte h
  · exact hP.command cfg byte h

theorem placeByte (hP : KeptByContract P) (cfg : Config) (h : P d.store) : P (d.placeByte cfg).store := by
  have hlen := hP.loadDataLen _ h
  unfold Devices.placeByte
  dsimp only
  split
  · exact hP.loadDataByte _ _ _ hlen
  · exact hlen

/-- An edge of a bus line calls the contract only. -/
theorem edge (hP : KeptByContract P) (cfg : Config) (l : Line) (level : Bool) (h : P d.store) :
    P (d.edge cfg l level).store := by
  unfold Devices.edge
  split
  · unfold Devices.davFalling
    dsimp only
    split <;> exact hP.dataIn cfg _ h
  · unfold Devices.davRising
    split <;> exact h
  · unfold Devices.ndacRising
    split
    · exact hP.loadDataLen _ h
    all_goals exact h
  · unfold Devices.nrfdRising
    split
    · exact hP.placeByte cfg h
    all_goals exact h
  · unfold Devices.atnRising
    split
    · split
      · exact hP.placeByte cfg h
      · exact h
    all_goals exact h
  · unfold Devices.eoiRising
    split
    · exact hP.endSave _ _ h
    all_goals exact h
  · exact h

theorem lineOut (hP : KeptByContract P) (cfg : Config) (l : Line) (level : Bool) (h : P d.store) :
    P (d.lineOut cfg l level).store := by
  unfold Devices.lineOut
  split
  · exact h
  all_goals
    dsimp only
    split
    · exact h
    · exact hP.edge (d := d.setBus _) cfg _ level h

theorem forwardPort (hP : KeptByContract P) (cfg : Config) (id : PortId) (old new : Byte) (h : P d.store) :
    P (d.forwardPort cfg id old new).store := by
  unfold Devices.forwardPort
  dsimp only
  refine foldl_keeps (P := fun x : Devices => P x.store) (fun x w hx => ?_) _ (by split <;> split <;> exact h)
  unfold Devices.forwardWire
  split
  · exact hx
  · exact hP.lineOut cfg _ _ hx

theorem forwardHandshake (hP : KeptByContract P) (cfg : Config) (level : Bool) (out : HandshakeOut) (h : P d.store) :
    P (d.forwardHandshake cfg level out).store := by
  unfold Devices.forwardHandshake
  split
  · exact hP.lineOut cfg _ level h
  · unfold Devices.setBlanking
    split
    · exact h
    · exact hP.lineOut (d := d.setChip _) cfg _ level h

theorem writePort (hP : KeptByContract P) (cfg : Config) (id : PortId) (put : Port → Port) (h : P d.store) :
    P (d.writePort cfg id put).store :=
  hP.forwardPort (d := d.setChip _) cfg id _ _ h

theorem writeControl (hP : KeptByContract P) (cfg : Config) (p : PiaId) (v : Byte) (h : P d.store) :
    P (d.writeControl cfg p v).store := by
  unfold Devices.writeControl
  dsimp only
  rw [Devices.settle_store]
  split
  · exact foldl_keeps (P := fun x : Devices => P x.store) (fun x out hx => hP.forwardHandshake cfg _ out hx) _ h
  · exact h

/-- A write of a chipset register. -/
theorem write (hP : KeptByContract P) (cfg : Config) (offset : Nat) (v : Byte) (h : P d.store) :
    P (d.write cfg offset v).store := by
  unfold Devices.write
  cases registerAt cfg.chipset offset with
  | none => exact h
  | some reg =>
    cases reg with
    | piaPort p =>
      unfold Devices.writePia
      dsimp only
      split <;> exact hP.writePort cfg _ _ h
    | piaControl p => exact hP.writeControl cfg p v h
    | viaPortA | viaPortB | viaDdrA | viaDdrB => exact hP.writePort cfg _ _ h
    | _ => exact h

end Storage.KeptByContract

/-- A read of a chipset register leaves the Storage alone. -/
theorem Devices.read_store (cfg : Config) (offset : Nat) (d : Devices) : (d.read cfg offset).2.store = d.store := by
  unfold Devices.read
  cases registerAt cfg.chipset offset with
  | none => rfl
  | some reg =>
    cases reg with
    | piaPort p =>
      unfold Devices.readPia
      dsimp only
      split
      · rfl
      · split <;> rfl
    | _ => rfl

theorem Devices.tick_store (cfg : Config) (d : Devices) : (d.tick cfg).2.store = d.store := rfl

/-! ### Accesses by place (R47, R48) -/

/-- A write reaches a device through the chipset window only. -/
theorem writeAt_dev (cfg : Config) (mem : List Host.Cell) (dev : Devices) (a : Addr) (v : Byte) :
    (writeAt cfg mem dev a v).2 = dev ∨ ∃ offset, (writeAt cfg mem dev a v).2 = dev.write cfg offset v := by
  unfold writeAt
  split
  · exact .inr ⟨_, rfl⟩
  all_goals exact .inl rfl

/-- So does a read. -/
theorem readAt_dev (cfg : Config) (mem : List Host.Cell) (dev : Devices) (a : Addr) :
    (readAt cfg mem dev a).2 = dev ∨ ∃ offset, (readAt cfg mem dev a).2 = (dev.read cfg offset).2 := by
  unfold readAt
  split
  · exact .inr ⟨_, rfl⟩
  all_goals exact .inl rfl

/-- A state with the given memory, devices and parameters: its `set` is `writeAt` of them, so that what is known of `set`
is known of `writeAt`. -/
def State.holding (cfg : Config) (mem : List Host.Cell) (dev : Devices) : State :=
  { State.reset with mem := mem, dev := dev, config := cfg }

theorem State.set_holding_mem (cfg : Config) (mem : List Host.Cell) (dev : Devices) (a : Addr) (v : Byte) :
    ((State.holding cfg mem dev).set a v).mem = (writeAt cfg mem dev a v).1 := rfl

/-! ### O44 -/

/-- No operation of the contract breaks the canonical form of the flash device. -/
theorem Storage.flashWf_keptByContract : Storage.KeptByContract Storage.FlashWf where
  startFilename _ h := h
  nextFilenameByte b st h := by
    unfold Storage.nextFilenameByte
    split <;> exact h
  padFilename _ h := h
  fnameDone st h := by
    unfold Storage.fnameDone
    dsimp only
    split
    · exact h
    · exact h.fetchDirectory
  startSave st h := h.addFile st.filename
  saveDataByte i v st h := by
    unfold Storage.saveDataByte
    split
    · exact h.writeByte _ v
    all_goals exact h
  endSave n st h := by
    unfold Storage.endSave
    split
    · exact h.flushIfDirty.setFilesize _ n
    all_goals exact h
  loadDataLen st h := by
    unfold Storage.loadDataLen
    split
    · exact h.fetchDirectory
    · split
      · exact h.fetchDirectory
      all_goals exact h
  loadDataByte cfg i st h := by
    unfold Storage.loadDataByte
    split
    · dsimp only
      split <;> exact h.fetchDirectory
    · split
      · dsimp only
        split <;> exact h.makeResident _
      all_goals exact h
  openLegacySave st h := by
    unfold Storage.openLegacySave
    split <;> exact h

/-- Every access keeps the canonical forms of memory and flash. -/
theorem stable_cells (cfg : Config) : Stable cfg Memory.wf (fun d => d.store.FlashWf) where
  writeMem mem dev a v h := by
    rw [← State.set_holding_mem]
    exact State.set_memory_wf h a v
  writeDev mem dev a v h := by
    rcases writeAt_dev cfg mem dev a v with he | ⟨offset, he⟩
    · rw [he]
      exact h
    · rw [he]
      exact Storage.flashWf_keptByContract.write cfg offset v h
  readDev mem dev a h := by
    rcases readAt_dev cfg mem dev a with he | ⟨offset, he⟩
    · rw [he]
      exact h
    · rw [he]
      exact h.congr (by rw [Devices.read_store])

/-- Settles O44: accesses keep both canonical forms, and a tick leaves memory and Storage alone. -/
theorem cellsInvariant : Obligations.CellsInvariant := by
  unfold Obligations.CellsInvariant
  intro s t ⟨hmem, hflash⟩ he
  have ht := (stable_cells s.config).step (fun d h => h.congr (by rw [Devices.tick_store]))
    ⟨rfl, rfl, hmem, hflash⟩ he
  exact ⟨ht.mem, ht.dev⟩

/-! ### O47 -/

/-- `mem` holds what `mem₀` holds at every address that the map of `cfg` puts outside RAM and video memory. -/
def ProtectedAs (cfg : Config) (mem₀ mem : List Host.Cell) : Prop :=
  ∀ a, locate cfg a ≠ .region .ram → locate cfg a ≠ .region .video →
    Cells.read blankByte mem a.toNat = Cells.read blankByte mem₀ a.toNat

theorem stable_protected (cfg : Config) (mem₀ : List Host.Cell) :
    Stable cfg (ProtectedAs cfg mem₀) (fun _ => True) where
  writeMem mem dev a v h b hram hvideo := by
    have hset : ((State.holding cfg mem dev).set a v).byteAt b = (State.holding cfg mem dev).byteAt b :=
      State.byteAt_set_protected v b hram hvideo
    exact hset.trans (h b hram hvideo)
  writeDev _ _ _ _ h := h
  readDev _ _ _ h := h

/-- Settles O47: no access stores at a protected address or touches the parameters, and a tick reaches devices only. -/
theorem romNeverChanges : Obligations.RomNeverChanges := by
  unfold Obligations.RomNeverChanges
  intro s t he
  have ht := (stable_protected s.config s.mem).step (fun _ h => h) ⟨rfl, rfl, fun _ _ _ => rfl, trivial⟩ he
  exact ⟨ht.config, ht.mem⟩

end Sys2Proof.Machine
end

section
/-! PROOFS. O28: an instruction changes memory at the addresses it stores to only. -/

namespace Sys2Proof.Machine

/-- A store changes at most the byte at its effective address. -/
theorem State.byteAt_writeOperand_other {s : State} {o : Operand} {a : Addr} (i : Instr) (v : Byte)
    (ha : o ≠ .accumulator) (h : a ≠ (s.resolve o).1.ea) : (s.writeOperand i o v).byteAt a = s.byteAt a := by
  obtain ⟨d, c, hr⟩ := s.writeOperand_state i v ha
  rw [hr]
  exact State.byteAt_set_other v h

/-- A read-modify-write of memory changes at most the byte at its effective address. -/
theorem State.byteAt_modifyOperand_other {s : State} {o : Operand} {a : Addr} (i : Instr)
    (f : Byte → Flags → AluResult) (ha : o ≠ .accumulator) (hi : ∀ d8, o ≠ .immediate d8)
    (h : a ≠ (s.resolve o).1.ea) : (s.modifyOperand i o f).byteAt a = s.byteAt a := by
  obtain ⟨d, c, m, hr⟩ := s.modifyOperand_state i f ha hi
  rw [hr]
  exact State.byteAt_set_other _ h

/-- A shift or rotate of A changes no byte, one of memory at most the byte at its effective address. -/
theorem State.byteAt_shift_other {s : State} {o : Operand} {a : Addr} (i : Instr) (f : Byte → Flags → AluResult)
    (hi : ∀ d8, o ≠ .immediate d8) (h : a ∉ if o = .accumulator then [] else [(s.resolve o).1.ea]) :
    (s.modifyOperand i o f).byteAt a = s.byteAt a := by
  by_cases ha : o = .accumulator
  · subst ha
    rfl
  · rw [if_neg ha, List.mem_singleton] at h
    exact State.byteAt_modifyOperand_other i f ha hi h

/-- An instruction changes no byte but at its stored addresses: by the shared operation that each instruction is. -/
theorem exec_byteAt_other {i : Instr} {s t : State} {a : Addr} (hw : i.wf = true) (he : exec i s = .next t)
    (h : a ∉ s.storedAddresses i) : t.byteAt a = s.byteAt a := by
  cases i with
  | sta o | stx o | sty o =>
    simp only [exec, execSta, execStx, execSty, Host.Outcome.next.injEq] at he
    subst he
    have ha : o ≠ .accumulator := by rintro rfl; cases hw
    exact State.byteAt_writeOperand_other _ _ ha (List.ne_of_not_mem_cons h)
  | inc o | dec o =>
    simp only [exec, execInc, execDec, Host.Outcome.next.injEq] at he
    subst he
    have ha : o ≠ .accumulator := by rintro rfl; cases hw
    have hi : ∀ d8, o ≠ .immediate d8 := by rintro d8 rfl; cases hw
    exact State.byteAt_modifyOperand_other _ _ ha hi (List.ne_of_not_mem_cons h)
  | asl o | lsr o | rol o | ror o =>
    simp only [exec, execAsl, execLsr, execRol, execRor, Host.Outcome.next.injEq] at he
    subst he
    have hi : ∀ d8, o ≠ .immediate d8 := by rintro d8 rfl; cases hw
    exact State.byteAt_shift_other _ _ hi h
  | pha | php =>
    simp only [exec, execPha, execPhp, Host.Outcome.next.injEq] at he
    subst he
    exact State.byteAt_push_other (s := s.enterImplied _) _ (List.ne_of_not_mem_cons h)
  | jsr a16 =>
    simp only [exec, execJsr, Host.Outcome.next.injEq] at he
    simp only [State.storedAddresses_jsr, List.mem_cons, not_or] at h
    obtain ⟨h0, h1, -⟩ := h
    obtain ⟨d, n, hr⟩ := s.enter_state (.absolute a16) 3 (columnsOf s.config (.jsr a16))
    rw [hr] at he
    rw [← he, State.byteAt_congr (State.setPc_mem _ _)]
    exact State.byteAt_push16_other _ h0 h1
  | brk =>
    simp only [exec, execBrk, Host.Outcome.next.injEq] at he
    simp only [State.storedAddresses_brk, List.mem_cons, not_or, ← Byte.sub_one_sub_one] at h
    obtain ⟨h0, h1, h2, -⟩ := h
    obtain ⟨d, n, hr⟩ := s.enter_state .implied 2 (columnsOf s.config .brk)
    rw [hr] at he
    subst he
    exact State.byteAt_interrupt_other _ _ h0 h1 h2
  | lda o | ldx o | ldy o | adc o | sbc o | cmp o | cpx o | cpy o | and o | ora o | eor o | bit o =>
    simp only [exec, execLda, execLdx, execLdy, execAdc, execSbc, execCmp, execCpx, execCpy, execAnd, execOra, execEor,
      execBit, Host.Outcome.next.injEq] at he
    obtain ⟨d, c, hr⟩ := State.readOperand_state s _ o
    rw [hr] at he
    subst he
    rfl
  | bcc d8 | bcs d8 | beq d8 | bmi d8 | bne d8 | bpl d8 | bvc d8 | bvs d8 =>
    simp only [exec, execBcc, execBcs, execBeq, execBmi, execBne, execBpl, execBvc, execBvs,
      Host.Outcome.next.injEq] at he
    obtain ⟨c, p, hr⟩ := State.branch_state s _ d8 _
    rw [hr] at he
    subst he
    rfl
  | jmp o =>
    simp only [exec, execJmp, Host.Outcome.next.injEq] at he
    obtain ⟨d, n, hr⟩ := State.enter_state s o 3 (columnsOf s.config (.jmp o))
    rw [hr] at he
    subst he
    rfl
  | ill op =>
    obtain ⟨d, pc, n, -, hr⟩ := execIll_state op s
    simp only [exec, hr, Host.Outcome.next.injEq] at he
    subst he
    rfl
  | _ =>
    simp only [exec, execTax, execTay, execTxa, execTya, execTsx, execTxs, execPla, execPlp, execInx, execIny, execDex,
      execDey, execRts, execClc, execCld, execCli, execClv, execSec, execSed, execSei, execNop, execRti,
      Host.Outcome.next.injEq] at he
    subst he
    rfl

/-- Settles O28: by `exec_byteAt_other`. -/
theorem frameMemory : Obligations.FrameMemory := by
  unfold Obligations.FrameMemory
  intro i s t a hw he h
  exact exec_byteAt_other hw he h

end Sys2Proof.Machine
end

section
/-! PROOFS. O33 (where an address lies and what `get` and `set` do there) and O34 (a read after a write). -/

namespace Sys2Proof.Machine

/-! ### Places (R46, R251) -/

/-- The region holds the address. -/
def RegionHolds (r : Region) (a : Addr) : Prop := r.base ≤ a.toNat ∧ a.toNat < r.base + r.size

theorem regionHolds_iff (r : Region) (a : Addr) :
    (decide (r.base ≤ a.toNat) && decide (a.toNat < r.base + r.size)) = true ↔ RegionHolds r a := by
  rw [Bool.and_eq_true, decide_eq_true_eq, decide_eq_true_eq, RegionHolds]

/-- Outside the window, the kind of the first region of the map that holds the address (log 49). -/
theorem locate_of_first_region {cfg : Config} {a : Addr} {before after : List Region} {r : Region}
    (hq : Quiet cfg a) (hmap : cfg.regions = before ++ r :: after) (hbefore : ∀ q ∈ before, ¬ RegionHolds q a)
    (hr : RegionHolds r a) : locate cfg a = .region r.kind := by
  have hfind : cfg.regions.find? (fun q => decide (q.base ≤ a.toNat) && decide (a.toNat < q.base + q.size)) = some r := by
    rw [hmap, List.find?_eq_some_iff_append]
    refine ⟨(regionHolds_iff r a).2 hr, before, after, rfl, fun q hqm => ?_⟩
    rw [Bool.not_eq_true', ← Bool.not_eq_true, regionHolds_iff]
    exact hbefore q hqm
  rw [locate, if_neg hq, hfind]

/-- Outside the window and every region of the map an address is unmapped. -/
theorem locate_of_no_region {cfg : Config} {a : Addr} (hq : Quiet cfg a) (h : ∀ r ∈ cfg.regions, ¬ RegionHolds r a) :
    locate cfg a = .unmapped := by
  have hfind : cfg.regions.find? (fun q => decide (q.base ≤ a.toNat) && decide (a.toNat < q.base + q.size)) = none := by
    rw [List.find?_eq_none]
    exact fun r hr htest => h r hr ((regionHolds_iff r a).1 htest)
  rw [locate, if_neg hq, hfind]

/-! ### get and set by place (R47, R48) -/

/-- A place that is neither memory nor a device: the storage range or unmapped. A read answers 0 (D20). -/
theorem State.get_empty {s : State} {a : Addr} (h : locate s.config a = .region .storage ∨ locate s.config a = .unmapped) :
    (s.get a).1 = 0 := by
  rw [State.get, readAt]
  rcases h with h | h <;> rw [h]

/-- A write is dropped in ROM, in the storage range and at an unmapped address. -/
theorem State.set_dropped {s : State} {a : Addr} (v : Byte)
    (h : locate s.config a = .region .rom ∨ locate s.config a = .region .storage ∨ locate s.config a = .unmapped) :
    s.set a v = s := by
  rw [State.set, writeAt]
  rcases h with h | h | h <;> rw [h]

/-- A write in RAM or video memory stores the byte. -/
theorem State.set_stored {s : State} {a : Addr} (v : Byte)
    (h : locate s.config a = .region .ram ∨ locate s.config a = .region .video) :
    s.set a v = { s with mem := Cells.write blankByte s.mem a.toNat v } := by
  rw [State.set, writeAt]
  rcases h with h | h <;> rw [h]

/-- In RAM and video memory a read answers the byte held. -/
theorem State.get_stored {s : State} {a : Addr}
    (h : locate s.config a = .region .ram ∨ locate s.config a = .region .video) : (s.get a).1 = s.byteAt a := by
  rcases h with h | h <;> rw [State.get_of_region h (by decide)]

theorem State.get_window {s : State} {a : Addr} {offset : Nat} (h : locate s.config a = .window offset) :
    s.get a = ((s.dev.read s.config offset).1, { s with dev := (s.dev.read s.config offset).2 }) := by
  rw [State.get, readAt, h]

theorem State.set_window {s : State} {a : Addr} {offset : Nat} (v : Byte) (h : locate s.config a = .window offset) :
    s.set a v = { s with dev := s.dev.write s.config offset v } := by
  rw [State.set, writeAt, h]

/-- Settles O33: the place by `locate`, then one lemma for each kind of place. -/
theorem memoryRegions : Obligations.MemoryRegions := by
  unfold Obligations.MemoryRegions
  intro s a v
  refine ⟨⟨fun hin => locate_window_iff.2 ⟨hin, rfl⟩, fun hq => ⟨fun before after r => locate_of_first_region hq,
      locate_of_no_region hq⟩⟩,
    fun hq => ⟨State.get_quiet hq, State.set_quiet v hq⟩, State.get_stored, fun h => ⟨?_, State.set_dropped v (.inl h)⟩,
    fun h => ⟨State.get_empty h, State.set_dropped v (.inr h)⟩, fun offset h => ?_⟩
  · rw [State.get_of_region h (by decide)]
  · obtain ⟨⟨hlo, hhi⟩, rfl⟩ := locate_window_iff.1 h
    rw [ioSpan] at hhi
    exact ⟨by omega, by omega, State.get_window h, State.set_window v h⟩

/-- Settles O34: the write stores the byte at its own address in the memory's list and touches nothing else. -/
theorem readAfterWrite : Obligations.ReadAfterWrite := by
  unfold Obligations.ReadAfterWrite
  intro s a v h
  refine ⟨?_, fun b hb => State.byteAt_set_other v hb, by rw [State.set_stored v h]⟩
  rw [State.get_stored (s := s.set a v) h, State.set_stored v h]
  exact Cells.read_write_self blankByte s.mem a.toNat v

end Sys2Proof.Machine
end

section
/-! PROOFS. O52: what a key call changes in the Keyboard's matrix, what the column byte shows, and what the host's key calls
reach. -/

namespace Sys2Proof.Machine

/-! ### The matrix (R270) -/

/-- The code of a key sets its bit of its row. -/
theorem Keyboard.setKey_of_lt (k : Keyboard) {code : Byte} (down : Bool) (hr : code.toNat / 16 < 10)
    (hc : code.toNat % 16 < 8) :
    k.setKey code down =
      { k with matrix := k.matrix.set (code.toNat / 16) (setBit k.matrix[code.toNat / 16] (code.toNat % 16) down) } := by
  rw [Keyboard.setKey]
  dsimp only
  rw [dif_pos hr, if_pos hc]
  rfl

/-- A code whose row or column is out of range is ignored (D33). -/
theorem Keyboard.setKey_out_of_range (k : Keyboard) {code : Byte} (down : Bool)
    (h : 9 < code.toNat / 16 ∨ 7 < code.toNat % 16) : k.setKey code down = k := by
  rw [Keyboard.setKey]
  dsimp only
  split
  · rw [if_neg (by omega)]
  · rfl

/-- A key call sets the key of its code and no other. -/
theorem Keyboard.isDown_setKey (k : Keyboard) (code : Byte) (down : Bool) (r : Fin 10) {c : Nat} (hc : c < 8) :
    (k.setKey code down).isDown r c = if code.toNat = 16 * r.val + c then down else k.isDown r c := by
  by_cases hin : code.toNat / 16 < 10 ∧ code.toNat % 16 < 8
  · obtain ⟨hrow, hcol⟩ := hin
    rw [Keyboard.setKey_of_lt k down hrow hcol]
    simp only [Keyboard.isDown, Fin.getElem_fin]
    by_cases hr : code.toNat / 16 = r.val
    · simp only [hr, Vector.getElem_set_self]
      rw [setBit_getLsbD _ _ _ _ hc]
      exact if_congr (by omega) rfl rfl
    · rw [Vector.getElem_set_ne _ _ hr, if_neg (by omega)]
  · rw [Keyboard.setKey_out_of_range k down (by omega), if_neg (by omega)]

theorem Keyboard.isDown_keyDown (k : Keyboard) (code : Byte) (r : Fin 10) {c : Nat} (hc : c < 8) :
    (k.keyDown code).isDown r c = (k.isDown r c || decide (code.toNat = 16 * r.val + c)) := by
  rw [Keyboard.keyDown, Keyboard.isDown_setKey k code true r hc]
  split <;> simp [*]

theorem Keyboard.isDown_keyUp (k : Keyboard) (code : Byte) (r : Fin 10) {c : Nat} (hc : c < 8) :
    (k.keyUp code).isDown r c = (k.isDown r c && !decide (code.toNat = 16 * r.val + c)) := by
  rw [Keyboard.keyUp, Keyboard.isDown_setKey k code false r hc]
  split <;> simp [*]

/-! ### The column byte (R271) -/

/-- The pressed bits of a selected row are that row of the matrix. -/
theorem Keyboard.pressed_of_row (k : Keyboard) {r : Fin 10} (h : k.row.toNat = r.val) : k.pressed = k.matrix[r] := by
  simp only [Keyboard.pressed, h, dif_pos r.isLt, Fin.getElem_fin]

/-- A row above 9 has no pressed key (D33). -/
theorem Keyboard.pressed_of_row_above (k : Keyboard) (h : 9 < k.row.toNat) : k.pressed = 0x00 := by
  rw [Keyboard.pressed, dif_neg (by omega)]

theorem Keyboard.read_getLsbD (k : Keyboard) (level : Bool) {c : Nat} (hc : c < 8) :
    (k.read level).getLsbD c = (k.pressed.getLsbD c == level) := by
  cases level <;> simp [Keyboard.read, hc]

/-! ### The host's calls (R269, R270) -/

/-- A refresh changes the Chipset, and of it the input latches only, which then show what is wired to them. -/
theorem Devices.refreshInputs_state (cfg : Config) (d : Devices) :
    d.refreshInputs cfg = { d with chip := (d.refreshInputs cfg).chip } := rfl

/-- Settles O52: the matrix by `isDown_setKey`, the column byte by the selected row, the host's calls by what a refresh of
the input latches changes and shows. -/
theorem keyboardRules : Obligations.KeyboardRules := by
  unfold Obligations.KeyboardRules
  refine ⟨fun k code r c hc => ⟨k.isDown_keyDown code r hc, k.isDown_keyUp code r hc⟩,
    fun k code h => ⟨k.setKey_out_of_range true h, k.setKey_out_of_range false h⟩, fun _ _ => rfl,
    fun k level r c hc hrow => ?_, fun k level hrow => ?_, fun cfg d code => ?_, fun _ _ => ⟨rfl, rfl⟩⟩
  · rw [k.read_getLsbD level hc, k.pressed_of_row hrow, Keyboard.isDown]
  · rw [Keyboard.read, k.pressed_of_row_above hrow]
    rfl
  · exact ⟨Devices.refreshInputs_state cfg _, Devices.refreshInputs_withoutInputs cfg _,
      Devices.refreshInputs_state cfg _, Devices.refreshInputs_withoutInputs cfg _,
      Devices.refreshInputs_shows cfg _, Devices.refreshInputs_shows cfg _⟩

end Sys2Proof.Machine
end

section
/-! PROOFS. The family of the encoding: O1 to O3 (decoder, encoder, opcode matrix), O22 (undocumented opcodes) and O31
(effective addresses as numbers). -/

namespace Sys2Proof

/-! ### Undocumented opcodes in the matrix (R91) -/

/-- The matrix leaves open exactly the listed columns: its 256 entries, one by one. -/
theorem decodeOp_isIll (op b1 b2 : Byte) : (decodeOp op b1 b2).isIll = isUndocumented op := by
  obtain ⟨r, c, rfl⟩ := Byte.exists_row_column op
  fin_cases r <;> fin_cases c <;> exact rfl

theorem Instr.opcode_ill {op op' : Byte} (h : (Instr.ill op').opcode = some op) : isUndocumented op' = true ∧ op' = op := by
  simpa [Instr.opcode] using h

theorem decodeOp_eq_ill_iff (op b1 b2 : Byte) : decodeOp op b1 b2 = .ill op ↔ isUndocumented op = true := by
  have hill := decodeOp_isIll op b1 b2
  have hop := decodeOp_opcode op b1 b2
  refine ⟨fun h => ?_, fun h => ?_⟩
  · rw [← hill, h]
    rfl
  · rw [h] at hill
    cases hi : decodeOp op b1 b2 with
    | ill op' =>
      rw [hi] at hop
      rw [(Instr.opcode_ill hop).2]
    | _ =>
      rw [hi] at hill
      cases hill

/-- Settles O3: the matrix by its 256 entries, completion because every instruction completes. -/
theorem everyOpcodeExecutes : Obligations.EveryOpcodeExecutes := by
  unfold Obligations.EveryOpcodeExecutes
  refine ⟨fun op b1 b2 => ?_, by decide⟩
  exact ⟨decodeOp_wf op b1 b2, decodeOp_opcode op b1 b2, decodeOp_eq_ill_iff op b1 b2, Machine.exec_next _⟩

/-! ### The decoder by operand count (R71, R74) -/

theorem decode_of_count_zero {op : Byte} (h : operandCount op = 0) (rest : List Byte) :
    decode (op :: rest) = .instr (decodeOp op 0 0) rest := by
  simp only [decode, h]

theorem decode_of_count_one {op : Byte} (h : operandCount op = 1) (b1 : Byte) (rest : List Byte) :
    decode (op :: b1 :: rest) = .instr (decodeOp op b1 0) rest := by
  simp only [decode, h]

theorem decode_of_count_two {op : Byte} (h : operandCount op = 2) (b1 b2 : Byte) (rest : List Byte) :
    decode (op :: b1 :: b2 :: rest) = .instr (decodeOp op b1 b2) rest := by
  simp only [decode, h]

/-- An operand is made of its bytes, with 0 for the bytes it does not have. -/
theorem Operand.bytes_cases (o : Operand) :
    (o.bytes = [] ∧ o = o.mode.operand 0 0) ∨
    (∃ b1, o.bytes = [b1] ∧ o = o.mode.operand b1 0) ∨
    (∃ b1 b2, o.bytes = [b1, b2] ∧ o = o.mode.operand b1 b2) := by
  cases o with
  | implied | accumulator => exact .inl ⟨rfl, rfl⟩
  | immediate d8 | zeroPage d8 | zeroPageX d8 | zeroPageY d8 | indexedIndirect d8 | indirectIndexed d8 | relative d8 =>
    exact .inr (.inl ⟨d8, rfl, rfl⟩)
  | absolute a16 | absoluteX a16 | absoluteY a16 | indirect a16 =>
    exact .inr (.inr ⟨lowByte a16, highByte a16, rfl, by simp [Operand.mode, Mode.operand]⟩)

/-- The matrix holds every instruction: its opcode and the bytes its operand is made of decode to it. -/
theorem decodeOp_of_opcode {i : Instr} {op b1 b2 : Byte} {m : Mode} (ho : i.opcode = some op)
    (hb : i.operand = m.operand b1 b2) : decodeOp op b1 b2 = i := by
  cases i with
  | lda o | ldx o | ldy o | sta o | stx o | sty o | adc o | sbc o | cmp o | cpx o | cpy o | inc o | dec o | and o | ora o
  | eor o | bit o | asl o | lsr o | rol o | ror o | jmp o =>
    obtain rfl : o = m.operand b1 b2 := hb
    cases m <;> cases ho <;> rfl
  | jsr a16 =>
    cases ho
    cases m <;> cases hb
    rfl
  | bcc d8 | bcs d8 | beq d8 | bmi d8 | bne d8 | bpl d8 | bvc d8 | bvs d8 =>
    cases ho
    cases m <;> cases hb
    rfl
  | ill op' =>
    obtain ⟨hu, rfl⟩ := Instr.opcode_ill ho
    exact (decodeOp_eq_ill_iff op' b1 b2).2 hu
  | _ =>
    cases ho
    rfl

/-- Settles O2: the encoding is the opcode and the operand's bytes, as many as the decoder takes after that opcode, and
the matrix makes the instruction of them. -/
theorem decodeEncode : Obligations.DecodeEncode := by
  unfold Obligations.DecodeEncode
  intro i rest hw
  obtain ⟨op, ho⟩ := i.wf_iff_opcode.1 hw
  obtain ⟨henc, hn, -⟩ := (Laws.Encoding.statement i).2 op ho
  rw [henc]
  obtain ⟨hb, hi⟩ | ⟨b1, hb, hi⟩ | ⟨b1, b2, hb, hi⟩ := i.operand.bytes_cases <;> rw [hb] at hn ⊢
  · exact decodeOp_of_opcode ho hi ▸ decode_of_count_zero hn.symm rest
  · exact decodeOp_of_opcode ho hi ▸ decode_of_count_one hn.symm b1 rest
  · exact decodeOp_of_opcode ho hi ▸ decode_of_count_two hn.symm b1 b2 rest

/-- Settles O1: each word evaluated by the decoder. -/
theorem specWordsDecode : Obligations.SpecWordsDecode := by
  unfold Obligations.SpecWordsDecode
  decide

end Sys2Proof

namespace Sys2Proof.Machine

/-! ### Undocumented opcodes run (R210) -/

/-- The common part of a step advances `PC` and `cycles`; of the reads of the operand's resolution only the devices
remain (R89, R220). -/
theorem State.enter_eq (s : State) (o : Operand) (size : Nat) (c : CycleColumns) :
    (s.enter o size c).2 =
      { s with
        pc := s.pc + BitVec.ofNat 16 size
        cycles := s.cycles + c.cycles + (if (s.resolve o).1.crossed ∧ c.pageCycle = true then 1 else 0)
        dev := (s.resolve o).2.dev } := by
  obtain ⟨d, hd⟩ := s.resolve_state o
  simp only [State.enter, hd, Bool.and_eq_true, Nat.add_assoc]

/-- Settles O22: the matrix entry, the common step after the reads of the mode column's operand, and those reads mode by
mode. -/
theorem undocumentedResult : Obligations.UndocumentedResult := by
  unfold Obligations.UndocumentedResult
  intro op b1 b2 s hu
  refine ⟨(decodeOp_eq_ill_iff op b1 b2).2 hu, ?_,
    rfl, rfl, rfl, rfl, rfl, rfl, rfl, rfl, rfl, rfl, rfl, rfl, rfl⟩
  obtain ⟨d, hd⟩ := s.fetchOperand_state (illegalColumns s.config op).mode
  dsimp only [exec]
  rw [execIll, State.enter_eq, hd]

/-! ### Effective addresses as numbers (R78 to R88) -/

theorem zext_add_toNat (d8 index : Byte) : (zext (d8 + index)).toNat = (d8.toNat + index.toNat) % 256 := by
  rw [zext_toNat, BitVec.toNat_add]

/-- Sign extension, modulo 65536 (R7). -/
theorem sext_toNat (b : Byte) : (sext b).toNat = if b.toNat < 128 then b.toNat else b.toNat + 65280 := by
  rw [sext, BitVec.toNat_signExtend, BitVec.msb_eq_decide, BitVec.toNat_setWidth_of_le (by decide)]
  by_cases h : b.toNat < 128
  · simp [h]
  · simp [h, Nat.le_of_not_lt h]

/-- A branch goes to the address of the next instruction plus the displacement, as a signed number (R88, D15). -/
theorem branchTarget_toNat (pc0 : Addr) (d8 : Byte) :
    ((branchTarget pc0 d8).toNat : Int) =
      (pc0.toNat + 2 + (if d8.toNat < 128 then (d8.toNat : Int) else d8.toNat - 256)) % 65536 := by
  have htwo : (2 : Addr).toNat = 2 := rfl
  rw [branchTarget, BitVec.toNat_add, BitVec.toNat_add, sext_toNat, htwo]
  split <;> omega

/-- Settles O31: each mode's address by what zero extension, indexing and the branch displacement are as numbers. -/
theorem effectiveAddresses : Obligations.EffectiveAddresses := by
  unfold Obligations.EffectiveAddresses
  intro s d8 a16
  exact ⟨rfl, ⟨_, rfl, zext_toNat d8⟩, ⟨_, rfl, zext_add_toNat d8 s.x⟩, ⟨_, rfl, zext_add_toNat d8 s.y⟩, rfl,
    ⟨_, congrArg (·, s) (Resolved.indexed_eq a16 s.x), Resolved.indexed_ea_toNat a16 s.x⟩,
    ⟨_, congrArg (·, s) (Resolved.indexed_eq a16 s.y), Resolved.indexed_ea_toNat a16 s.y⟩,
    ⟨_, rfl, branchTarget_toNat s.pc d8⟩⟩

end Sys2Proof.Machine
end

section
/-! PROOFS. The family of the loads, stores and transfers: O4 (LDA, LDX, LDY), O5 (STA, STX, STY), O6 (register transfers,
increments and decrements), each by what completion of its shape comes down to: the row's columns, the matrix entry, and the
meaning after the shared operation. -/

namespace Sys2Proof.Machine

/-- `SetZN` replaces the flags only, by those the statements spell out (R7). -/
theorem State.setZN_eq (s : State) (v : Byte) : s.setZN v = { s with flags := s.flags.withZN v } := rfl

/-! ### Rows of an Encoding line -/

/-- A row agrees with the model on `mk`: the columns of the parameter table as reset, the size of the mode, the opcode. -/
def Row.Encodes (mk : Operand → Instr) (r : Row) : Prop :=
  r.TakesCycles ∧ r.size = modeSize r.mode ∧ ∀ b1 b2, (mk (r.mode.operand b1 b2)).opcode = some r.op

theorem ldaRows_encode : ∀ r ∈ ldaRows, r.Encodes .lda := by
  intro r hr
  fin_cases hr <;> exact ⟨rfl, rfl, fun _ _ => rfl⟩

theorem ldxRows_encode : ∀ r ∈ ldxRows, r.Encodes .ldx := by
  intro r hr
  fin_cases hr <;> exact ⟨rfl, rfl, fun _ _ => rfl⟩

theorem ldyRows_encode : ∀ r ∈ ldyRows, r.Encodes .ldy := by
  intro r hr
  fin_cases hr <;> exact ⟨rfl, rfl, fun _ _ => rfl⟩

theorem staRows_encode : ∀ r ∈ staRows, r.Encodes .sta := by
  intro r hr
  fin_cases hr <;> exact ⟨rfl, rfl, fun _ _ => rfl⟩

theorem stxRows_encode : ∀ r ∈ stxRows, r.Encodes .stx := by
  intro r hr
  fin_cases hr <;> exact ⟨rfl, rfl, fun _ _ => rfl⟩

theorem styRows_encode : ∀ r ∈ styRows, r.Encodes .sty := by
  intro r hr
  fin_cases hr <;> exact ⟨rfl, rfl, fun _ _ => rfl⟩

/-! ### What completion comes down to -/

/-- A read instruction completes if its meaning is `eff` once the operand is read: a read changes devices only, then `PC`
and `cycles` advance. -/
theorem completesReading_of_rows {mk : Operand → Instr} {rows : List Row} {pre : State → Prop}
    {eff : Byte → State → State → State} (hrows : ∀ r ∈ rows, r.Encodes mk) (hmk : ∀ o, (mk o).operand = o)
    (hexec : ∀ (o : Operand) (s : State) (m : Byte) (d : Devices) (size cost : Nat), pre s →
      s.readOperand (mk o) o = (m, { s with dev := d }.advance size cost) →
      exec (mk o) s = .next ((eff m s { s with dev := d }).advance size cost)) :
    CompletesReading mk rows pre eff := by
  intro r hr
  obtain ⟨hcycles, hsize, hop⟩ := hrows r hr
  refine ⟨hcycles, fun b1 b2 s hpre => ⟨decodeOp_of_opcode (hop b1 b2) (hmk _), ?_⟩⟩
  obtain ⟨d, hd⟩ := s.source_state (r.mode.operand b1 b2)
  have hread := State.readOperand_eq (hop b1 b2) s (r.mode.operand b1 b2)
  rw [hd, Mode.operand_mode, ← hsize] at hread
  rw [hd]
  exact hexec _ _ _ _ _ _ hpre hread

/-- A store completes if its meaning is the shared store operation, and no form of it is the accumulator's. -/
theorem completesStoring_of_rows {mk : Operand → Instr} {rows : List Row} {v : State → Byte}
    (hrows : ∀ r ∈ rows, r.Encodes mk) (hmk : ∀ o, (mk o).operand = o) (hacc : (mk .accumulator).opcode = none)
    (hexec : ∀ o s, exec (mk o) s = .next (s.writeOperand (mk o) o (v s))) : CompletesStoring mk rows v := by
  intro r hr
  obtain ⟨hcycles, hsize, hop⟩ := hrows r hr
  refine ⟨hcycles, fun b1 b2 s => ⟨decodeOp_of_opcode (hop b1 b2) (hmk _), ?_⟩⟩
  have hmem : r.mode.operand b1 b2 ≠ .accumulator := by
    intro h
    have hnone := hop b1 b2
    rw [h, hacc] at hnone
    cases hnone
  rw [hexec, State.writeOperand_eq (hop b1 b2) _ hmem, Mode.operand_mode, hsize]

/-- A one-byte instruction completes with `eff` if it is `eff` but for `PC` and `cycles`, which it only enters with. -/
theorem completesInside_of_enterImplied {i : Instr} {op : Byte} {cycles : Nat} {eff : State → State}
    (hcycles : TakesCycles op cycles false) (hop : i.opcode = some op) (hi : i.operand = .implied)
    (heff : ∀ s, (eff s).pc = s.pc ∧ (eff s).cycles = s.cycles)
    (hexec : ∀ s, exec i s =
      .next { eff s with pc := (s.enterImplied i).pc, cycles := (s.enterImplied i).cycles }) :
    CompletesInside i op cycles eff := by
  refine ⟨hcycles, fun b1 b2 s => ⟨decodeOp_of_opcode (m := .implied) hop hi, ?_⟩⟩
  obtain ⟨hpc, hcyc⟩ := heff s
  rw [hexec, State.enterImplied_eq hop, State.advance_pc, State.advance_cycles, ← hpc, ← hcyc]
  rfl

/-! ### The statements -/

/-- Settles O4: each load is its register and `SetZN` of the operand byte read. -/
theorem loadResult : Obligations.LoadResult := by
  unfold Obligations.LoadResult
  refine ⟨completesReading_of_rows ldaRows_encode (fun _ => rfl) fun o s m d size cost _ hread => ?_,
    completesReading_of_rows ldxRows_encode (fun _ => rfl) fun o s m d size cost _ hread => ?_,
    completesReading_of_rows ldyRows_encode (fun _ => rfl) fun o s m d size cost _ hread => ?_⟩
  · rw [exec, execLda, hread, State.setZN_eq]
    rfl
  · rw [exec, execLdx, hread, State.setZN_eq]
    rfl
  · rw [exec, execLdy, hread, State.setZN_eq]
    rfl

/-- Settles O5: each store is the shared store operation of its register. -/
theorem storeResult : Obligations.StoreResult := by
  unfold Obligations.StoreResult
  exact ⟨completesStoring_of_rows staRows_encode (fun _ => rfl) rfl fun _ _ => rfl,
    completesStoring_of_rows stxRows_encode (fun _ => rfl) rfl fun _ _ => rfl,
    completesStoring_of_rows styRows_encode (fun _ => rfl) rfl fun _ _ => rfl⟩

/-- Settles O6: each instruction is its entry with its register, and the flags but for TXS, replaced. -/
theorem registerResult : Obligations.RegisterResult := by
  unfold Obligations.RegisterResult
  refine ⟨?_, ?_, ?_, ?_, ?_, ?_, ?_, ?_, ?_, ?_⟩ <;>
    exact completesInside_of_enterImplied rfl rfl rfl (fun _ => ⟨rfl, rfl⟩) fun _ => rfl

end Sys2Proof.Machine
end

section
/-! PROOFS. The family of the stack instructions: O7 (PHA, PLA), O8 (PHP, PLP), each by what completion of a one-byte
instruction comes down to, and O25 (the round trips), by what a pull reads of the bytes pushed. -/

namespace Sys2Proof.Machine

/-! ### The flag byte (R121, R123, R225) -/

/-- Bit 5 of the pushed byte is set, bit 4 as given, the others the stored flags (D6): every combination of flags. -/
theorem Flags.pushed_eq_image (f : Flags) (brk : Bool) : f.pushed brk = f.image true brk := by
  obtain ⟨c, z, i, d, b, u, v, n⟩ := f
  revert c z i d b u v n brk
  decide

/-- Six flags are bits of the pulled byte, B is cleared and U set (D7). -/
theorem Flags.pulled_eq (p : Byte) :
    Flags.pulled p =
      { c := p.getLsbD 0, z := p.getLsbD 1, i := p.getLsbD 2, d := p.getLsbD 3, b := false, u := true,
        v := p.getLsbD 6, n := p.getLsbD 7 } := by
  simp [Flags.pulled, Flags.ofByte]

/-- Pulling the flag byte that was pushed gives the flags back, but for B and U (D7). -/
theorem Flags.pulled_pushed (f : Flags) (brk : Bool) :
    Flags.pulled (f.pushed brk) = { f with b := false, u := true } := by
  obtain ⟨c, z, i, d, b, u, v, n⟩ := f
  revert c z i d b u v n brk
  decide

/-! ### One-byte stack instructions (R120 to R123) -/

/-- Settles O7: a push of A, and a pull whose byte becomes A with `SetZN`. -/
theorem accumulatorStackResult : Obligations.AccumulatorStackResult := by
  unfold Obligations.AccumulatorStackResult
  exact ⟨completesInside_of_enterImplied rfl rfl rfl (fun _ => ⟨rfl, rfl⟩) fun _ => rfl,
    completesInside_of_enterImplied rfl rfl rfl (fun _ => ⟨rfl, rfl⟩) fun _ => rfl⟩

/-- Settles O8: a push of the flag image, and a pull whose byte becomes the flags. -/
theorem statusStackResult : Obligations.StatusStackResult := by
  unfold Obligations.StatusStackResult
  refine ⟨completesInside_of_enterImplied rfl rfl rfl (fun _ => ⟨rfl, rfl⟩) fun s => ?_,
    completesInside_of_enterImplied rfl rfl rfl (fun _ => ⟨rfl, rfl⟩) fun s => ?_⟩
  · rw [exec, execPhp, Flags.pushed_eq_image]
    rfl
  · rw [exec, execPlp, State.pullFlags, Flags.pulled_eq]
    rfl

/-! ### What the stack holds after a push (R13) -/

theorem stackAddr_injective (cfg : Config) : Function.Injective (stackAddr cfg) := by
  intro p q h
  have hz : (zext p).toNat = (zext q).toNat := by rw [(add_right_inj cfg.stackBase).1 h]
  rw [zext_toNat, zext_toNat] at hz
  exact BitVec.eq_of_toNat_eq hz

theorem stackAddr_ne_sub_one (cfg : Config) (sp : Byte) : stackAddr cfg sp ≠ stackAddr cfg (sp - 1) :=
  (stackAddr_injective cfg).ne (by bv_omega)

theorem stackAddr_ne_sub_two (cfg : Config) (sp : Byte) : stackAddr cfg sp ≠ stackAddr cfg (sp - 1 - 1) :=
  (stackAddr_injective cfg).ne (by bv_omega)

theorem State.byteAt_push_self {s : State} (v : Byte) (h : IsRam s.config (stackAddr s.config s.sp)) :
    (s.push v).byteAt (stackAddr s.config s.sp) = v := by
  rw [State.push_state, State.set_stored v (.inl h)]
  exact Cells.read_write_self _ _ _ _

/-- The high byte, pushed first, stays under the low byte. -/
theorem State.byteAt_push16_high {s : State} (w : Addr) (h : IsRam s.config (stackAddr s.config s.sp)) :
    (s.push16 w).byteAt (stackAddr s.config s.sp) = highByte w := by
  rw [State.push16, State.byteAt_push_other (s := s.push (highByte w)) _ (stackAddr_ne_sub_one s.config s.sp),
    State.byteAt_push_self _ h]

theorem State.byteAt_push16_low {s : State} (w : Addr) (h : IsRam s.config (stackAddr s.config (s.sp - 1))) :
    (s.push16 w).byteAt (stackAddr s.config (s.sp - 1)) = lowByte w :=
  State.byteAt_push_self (s := s.push (highByte w)) (lowByte w) h

/-! ### What a pull reads of it (R13, R199) -/

section
variable {cfg : Config} {t : State} {sp : Byte} (hc : t.config = cfg)
include hc

theorem State.pull_of_byteAt {v : Byte} (hsp : t.sp = sp - 1) (h : IsRam cfg (stackAddr cfg sp))
    (hv : t.byteAt (stackAddr cfg sp) = v) : t.pull = (v, { t with sp := sp }) := by
  subst hc
  rw [State.pull_state, hsp, sub_add_cancel, State.get_of_region h (by decide), hv]

theorem State.pull16_of_byteAt {w : Addr} (hsp : t.sp = sp - 1 - 1) (h0 : IsRam cfg (stackAddr cfg sp))
    (h1 : IsRam cfg (stackAddr cfg (sp - 1))) (hhi : t.byteAt (stackAddr cfg sp) = highByte w)
    (hlo : t.byteAt (stackAddr cfg (sp - 1)) = lowByte w) : t.pull16 = (w, { t with sp := sp }) := by
  have hnext : ({ t with sp := sp - 1 } : State).pull = (highByte w, { t with sp := sp }) :=
    State.pull_of_byteAt (t := { t with sp := sp - 1 }) hc rfl h0 hhi
  rw [State.pull16, State.pull_of_byteAt hc hsp h1 hlo, hnext, word_high_low]

end

section
variable {s t : State} (hc : t.config = s.config) (h0 : IsRam s.config (stackAddr s.config s.sp))
  (h1 : IsRam s.config (stackAddr s.config (s.sp - 1))) (h2 : IsRam s.config (stackAddr s.config (s.sp - 1 - 1)))
include hc h0

/-- A state with the memory and SP that a push left pulls the byte pushed. -/
theorem State.pull_after_push {v : Byte} (hm : t.mem = (s.push v).mem) (hsp : t.sp = s.sp - 1) :
    t.pull = (v, { t with sp := s.sp }) :=
  State.pull_of_byteAt hc hsp h0 (by rw [State.byteAt_congr hm, State.byteAt_push_self v h0])

include h1

/-- The same of a word. -/
theorem State.pull16_after_push16 {w : Addr} (hm : t.mem = (s.push16 w).mem) (hsp : t.sp = s.sp - 1 - 1) :
    t.pull16 = (w, { t with sp := s.sp }) :=
  State.pull16_of_byteAt hc hsp h0 h1 (by rw [State.byteAt_congr hm, State.byteAt_push16_high w h0])
    (by rw [State.byteAt_congr hm, State.byteAt_push16_low w h1])

include h2

/-- Return from an interrupt gives back the `PC`, SP and flags of its entry, but for B and U (D7). -/
theorem State.returnFromInterrupt_after_interrupt {vector : Addr} {brk : Bool}
    (hm : t.mem = (s.interrupt vector brk).mem) (hsp : t.sp = s.sp - 1 - 1 - 1) :
    t.returnFromInterrupt = { t with sp := s.sp, pc := s.pc, flags := { s.flags with b := false, u := true } } := by
  rw [State.interrupt_mem] at hm
  have hflags : t.pullFlags = { t with sp := s.sp - 1 - 1, flags := { s.flags with b := false, u := true } } := by
    rw [State.pullFlags, State.pull_after_push (s := s.push16 s.pc) hc h2 hm hsp, Flags.pulled_pushed]
    rfl
  have hpc : t.pullFlags.pull16 = (s.pc, { t.pullFlags with sp := s.sp }) := by
    refine State.pull16_of_byteAt (t := t.pullFlags) hc (by rw [hflags]) h0 h1 ?_ ?_
    · rw [← State.byteAt_push16_high s.pc h0,
        ← State.byteAt_push_other (s := s.push16 s.pc) _ (stackAddr_ne_sub_two s.config s.sp)]
      exact State.byteAt_congr hm _
    · rw [← State.byteAt_push16_low s.pc h1,
        ← State.byteAt_push_other (s := s.push16 s.pc) _ (stackAddr_ne_sub_one s.config (s.sp - 1))]
      exact State.byteAt_congr hm _
  rw [State.returnFromInterrupt, hpc, hflags]
  rfl

end

/-! ### Round trips (R120 to R123, R171, R172, R198, R199) -/

theorem pla_after_pha {s : State} (h : IsRam s.config (stackAddr s.config s.sp)) :
    ∃ t u, exec .pha s = .next t ∧ exec .pla t = .next u ∧ u.a = s.a ∧ u.sp = s.sp := by
  obtain ⟨n, hs⟩ : ∃ n, s.enterImplied .pha = s.advance 1 n := ⟨_, State.enterImplied_eq rfl s⟩
  refine ⟨_, _, rfl, rfl, ?_⟩
  rw [hs, State.enterImplied_eq rfl, State.pull_after_push (s := s.advance 1 n) (h0 := h)]
  case hm => rw [State.advance_mem]
  · simp
  · simp
  · simp [State.push_sp]

theorem plp_after_php {s : State} (h : IsRam s.config (stackAddr s.config s.sp)) :
    ∃ t u, exec .php s = .next t ∧ exec .plp t = .next u ∧ u.sp = s.sp ∧
      u.flags = { s.flags with b := false, u := true } := by
  obtain ⟨n, hs⟩ : ∃ n, s.enterImplied .php = s.advance 1 n := ⟨_, State.enterImplied_eq rfl s⟩
  refine ⟨_, _, rfl, rfl, ?_⟩
  rw [hs, State.enterImplied_eq rfl, State.pullFlags, State.pull_after_push (s := s.advance 1 n) (h0 := h)]
  case hm => rw [State.advance_mem]
  · simp [Flags.pulled_pushed]
  · simp
  · simp [State.push_sp]

theorem rts_after_jsr {s : State} (a16 : Addr) (h0 : IsRam s.config (stackAddr s.config s.sp))
    (h1 : IsRam s.config (stackAddr s.config (s.sp - 1))) :
    ∃ t u, exec (.jsr a16) s = .next t ∧ exec .rts t = .next u ∧ u.sp = s.sp ∧ u.pc = s.pc + 3 := by
  obtain ⟨n, hs⟩ : ∃ n, (s.enter (.absolute a16) 3 (columnsOf s.config (.jsr a16))).2 = s.advance 3 n :=
    ⟨_, rfl⟩
  refine ⟨_, _, rfl, rfl, ?_⟩
  rw [hs, State.enterImplied_eq rfl, State.pull16_after_push16 (s := s.advance 3 n) (h0 := h0) (h1 := h1)]
  case hm => rw [State.advance_mem, State.setPc_mem]
  · simp
  · simp [State.push16_config]
  · simp [State.push16_sp]

theorem rti_after_brk {s : State} (h0 : IsRam s.config (stackAddr s.config s.sp))
    (h1 : IsRam s.config (stackAddr s.config (s.sp - 1))) (h2 : IsRam s.config (stackAddr s.config (s.sp - 1 - 1))) :
    ∃ t u, exec .brk s = .next t ∧ exec .rti t = .next u ∧ u.sp = s.sp ∧ u.pc = s.pc + 2 ∧
      u.flags = { s.flags with b := false, u := true } := by
  obtain ⟨n, hs⟩ : ∃ n, (s.enter .implied 2 (columnsOf s.config .brk)).2 = s.advance 2 n := ⟨_, rfl⟩
  obtain ⟨_, _, _, ht⟩ := (s.advance 2 n).interrupt_state s.config.irqVector true
  refine ⟨_, _, rfl, rfl, ?_⟩
  rw [hs, State.enterImplied_eq rfl,
    State.returnFromInterrupt_after_interrupt (s := s.advance 2 n) (h0 := h0) (h1 := h1) (h2 := h2)]
  case hm => rw [State.advance_mem]
  · simp
  · simp [ht]
  · simp [ht]

/-- Settles O25: each pair of instructions by what a pull reads after the push. -/
theorem stackRoundTrips : Obligations.StackRoundTrips := by
  unfold Obligations.StackRoundTrips
  refine ⟨fun s => pla_after_pha, fun s => plp_after_php, fun s a16 => rts_after_jsr a16, fun s h0 h1 h2 => ?_⟩
  rw [← Byte.sub_one_sub_one] at h2
  exact rti_after_brk h0 h1 h2

end Sys2Proof.Machine
end

section
/-! PROOFS. The family of the arithmetic: O9 (ADC), O10 (SBC), O11 (CMP, CPX, CPY), O12 (INC, DEC), each by what completion
of its shape comes down to; O23 (signed overflow and borrow), by the operands as signed numbers; O24 (decimal arithmetic), by
the digits of the operands. -/

namespace Sys2Proof.Machine

/-! ### Rows of the Encoding lines (R130 to R137, R140) -/

theorem adcRows_encode : ∀ r ∈ adcRows, r.Encodes .adc := by
  intro r hr
  fin_cases hr <;> exact ⟨rfl, rfl, fun _ _ => rfl⟩

theorem sbcRows_encode : ∀ r ∈ sbcRows, r.Encodes .sbc := by
  intro r hr
  fin_cases hr <;> exact ⟨rfl, rfl, fun _ _ => rfl⟩

theorem cmpRows_encode : ∀ r ∈ cmpRows, r.Encodes .cmp := by
  intro r hr
  fin_cases hr <;> exact ⟨rfl, rfl, fun _ _ => rfl⟩

theorem cpxRows_encode : ∀ r ∈ cpxRows, r.Encodes .cpx := by
  intro r hr
  fin_cases hr <;> exact ⟨rfl, rfl, fun _ _ => rfl⟩

theorem cpyRows_encode : ∀ r ∈ cpyRows, r.Encodes .cpy := by
  intro r hr
  fin_cases hr <;> exact ⟨rfl, rfl, fun _ _ => rfl⟩

theorem incRows_encode : ∀ r ∈ incRows, r.Encodes .inc := by
  intro r hr
  fin_cases hr <;> exact ⟨rfl, rfl, fun _ _ => rfl⟩

theorem decRows_encode : ∀ r ∈ decRows, r.Encodes .dec := by
  intro r hr
  fin_cases hr <;> exact ⟨rfl, rfl, fun _ _ => rfl⟩

/-! ### What completion of a read-modify-write comes down to (R137, R140, R154 to R157) -/

theorem modifyRows_mode (zp zpx abs abx : Byte) : ∀ r ∈ modifyRows zp zpx abs abx, r.mode ∈ incModes := by
  simp [modifyRows, incModes]

/-- An operand of the four memory forms is neither `A` nor an immediate byte. -/
theorem operand_in_memory {m : Mode} (h : m ∈ incModes) (b1 b2 : Byte) :
    m.operand b1 b2 ≠ .accumulator ∧ ∀ d8, m.operand b1 b2 ≠ .immediate d8 := by
  fin_cases h <;> simp [Mode.operand]

/-- A read-modify-write instruction completes on memory if its meaning is the shared operation with a function `f` that gives
`value` of the byte and the old carry, and `flags` of the byte and the old flags. -/
theorem completesModifying_of_rows {mk : Operand → Instr} {rows : List Row} {value : Byte → Bool → Byte}
    {flags : Byte → Flags → Flags} {f : Byte → Flags → AluResult} (hrows : ∀ r ∈ rows, r.Encodes mk)
    (hmode : ∀ r ∈ rows, r.mode ∈ incModes) (hmk : ∀ o, (mk o).operand = o)
    (hf : ∀ v g, f v g = { value := value v g.c, flags := flags v g })
    (hexec : ∀ o s, exec (mk o) s = .next (s.modifyOperand (mk o) o f)) : CompletesModifying mk rows value flags := by
  intro r hr
  obtain ⟨hcycles, hsize, hop⟩ := hrows r hr
  refine ⟨hcycles, fun b1 b2 s => ⟨decodeOp_of_opcode (hop b1 b2) (hmk _), ?_⟩⟩
  obtain ⟨hacc, himm⟩ := operand_in_memory (hmode r hr) b1 b2
  rw [hexec, State.modifyOperand_eq (hop b1 b2) f hacc himm, hf, Mode.operand_mode, hsize]
  rfl

/-! ### Which algorithm ADC and SBC take (R130 to R133) -/

theorem adcResult_binary {mode : DecimalMode} {f : Flags} (h : f.d = false ∨ mode = .binary) (a m : Byte) :
    adcResult mode a m f = adcBinary a m f := by
  unfold adcResult
  split
  case h_1 hd => simp [hd] at h
  case h_2 => rfl

theorem adcResult_nmosBcd {f : Flags} (hd : f.d = true) (a m : Byte) : adcResult .nmosBcd a m f = adcBcd a m f := by
  simp only [adcResult, hd]

theorem sbcResult_binary {mode : DecimalMode} {f : Flags} (h : f.d = false ∨ mode = .binary) (a m : Byte) :
    sbcResult mode a m f = sbcBinary a m f := by
  unfold sbcResult
  split
  case h_1 hd => simp [hd] at h
  case h_2 => rfl

theorem sbcResult_nmosBcd {f : Flags} (hd : f.d = true) (a m : Byte) :
    sbcResult .nmosBcd a m f = { value := sbcBcdValue a m f.c, flags := (sbcBinary a m f).flags } := by
  simp only [sbcResult, hd]

/-! ### The results as the statements spell them (R130 to R136) -/

theorem adcBinary_eq (a m : Byte) (f : Flags) :
    adcBinary a m f =
      let t := a.toNat + m.toNat + f.c.toNat
      let r := BitVec.ofNat 8 t
      { value := r
        flags := { f.withZN r with c := decide (0xFF < t), v := ((a ^^^ r) &&& (m ^^^ r)).getLsbD 7 } } := by
  rw [adcBinary, carryNat_eq]
  rfl

/-- The one's complement is the distance from 255. -/
theorem xor_ff_toNat (m : Byte) : (m ^^^ 0xFF).toNat = 255 - m.toNat := by
  rw [show (0xFF : Byte) = BitVec.allOnes 8 from rfl, BitVec.xor_allOnes, BitVec.toNat_not]

/-- Overflow of the sum with the one's complement, said of the operand itself: the operands differ in sign, and so do the
accumulator and the result. -/
theorem overflow_xor_ff (a m r : Byte) :
    ((a ^^^ r) &&& (m ^^^ 0xFF ^^^ r)).msb = ((a ^^^ m) &&& (a ^^^ r)).msb := by
  have hff : (0xFF : Byte).msb = true := rfl
  simp only [BitVec.msb_and, BitVec.msb_xor, hff]
  cases a.msb <;> cases m.msb <;> cases r.msb <;> rfl

theorem sbcBinary_eq (a m : Byte) (f : Flags) :
    sbcBinary a m f =
      let t := a.toNat + (255 - m.toNat) + f.c.toNat
      let r := BitVec.ofNat 8 t
      { value := r
        flags := { f.withZN r with c := decide (0xFF < t), v := ((a ^^^ m) &&& (a ^^^ r)).getLsbD 7 } } := by
  simp only [sbcBinary, adcBinary, xor_ff_toNat, carryNat_eq, overflow_xor_ff]
  rfl

theorem compareFlags_eq (r m : Byte) (f : Flags) :
    compareFlags r m f = { f with c := decide (m.toNat ≤ r.toNat), z := decide (r = m), n := (r - m).getLsbD 7 } := by
  have hz : (r - m == 0) = decide (r = m) := by
    rw [Bool.eq_iff_iff, beq_iff_eq, decide_eq_true_eq, sub_eq_zero]
  rw [compareFlags, Flags.setZN, hz]
  rfl

/-! ### Signed overflow and borrow (R130, R132, R143) -/

/-- The sum has the wrong sign exactly if it does not fit in a signed byte. -/
theorem adcBinary_v (a m : Byte) (f : Flags) :
    (adcBinary a m f).flags.v =
      decide (a.toInt + m.toInt + f.c.toNat < -128 ∨ 127 < a.toInt + m.toInt + f.c.toNat) := by
  have hc := f.c.toNat_le
  rw [Bool.eq_iff_iff, decide_eq_true_eq, adcBinary, carryNat_eq, BitVec.msb_and, BitVec.msb_xor, BitVec.msb_xor]
  simp only [BitVec.msb_eq_decide, BitVec.toInt_eq_toNat_cond, BitVec.toNat_ofNat, Bool.and_eq_true, bne_iff_ne, ne_eq,
    decide_eq_decide]
  omega

/-- The one's complement as a signed number. -/
theorem xor_ff_toInt (m : Byte) : (m ^^^ 0xFF).toInt = -m.toInt - 1 := by
  rw [BitVec.toInt_eq_toNat_cond, BitVec.toInt_eq_toNat_cond, xor_ff_toNat]
  omega

/-- `a - m - (1 - C)` is the sum of `a`, the one's complement of `m` and C. -/
theorem sbcBinary_v (a m : Byte) (f : Flags) :
    (sbcBinary a m f).flags.v =
      decide (a.toInt - m.toInt - (1 - f.c.toNat) < -128 ∨ 127 < a.toInt - m.toInt - (1 - f.c.toNat)) := by
  have hsum : a.toInt + (-m.toInt - 1) + f.c.toNat = a.toInt - m.toInt - (1 - f.c.toNat) := by ring
  rw [sbcBinary, adcBinary_v, xor_ff_toInt, hsum]

theorem sbcBinary_c (a m : Byte) (f : Flags) :
    (sbcBinary a m f).flags.c = decide (m.toNat + (1 - f.c.toNat) ≤ a.toNat) := by
  have hc := f.c.toNat_le
  rw [sbcBinary_eq, decide_eq_decide]
  omega

/-! ### Decimal digits (R131, R133) -/

section
variable {n : Nat} (h : n < 100)
include h

theorem bcd_toNat : (bcd n).toNat = n / 10 * 16 + n % 10 := by
  rw [bcd, BitVec.toNat_ofNat]
  omega

/-- The low digit. -/
theorem bcd_toNat_mod : (bcd n).toNat % 16 = n % 10 := by
  rw [bcd_toNat h]
  omega

/-- The high digit. -/
theorem bcd_toNat_div : (bcd n).toNat / 16 = n / 10 := by
  rw [bcd_toNat h]
  omega

end

/-- The sum of two digits and a carry is a digit and a carry. -/
theorem exists_digit_sum {p q c : Nat} (hp : p < 10) (hq : q < 10) (hc : c ≤ 1) :
    ∃ d < 10, ∃ k ≤ 1, p + q + c = 10 * k + d :=
  ⟨(p + q + c) % 10, by omega, (p + q + c) / 10, by omega, by omega⟩

/-- The difference of two digits less a borrow is a digit and a borrow. -/
theorem exists_digit_difference {p q c : Nat} (hp : p < 10) (hq : q < 10) (hc : c ≤ 1) :
    ∃ d < 10, ∃ k ≤ 1, p + 10 * k = q + c + d :=
  ⟨(p + 10 - (q + c)) % 10, by omega, 1 - (p + 10 - (q + c)) / 10, by omega, by omega⟩

/-! ### The corrections of the digit-wise algorithms (R131, R133) -/

section
variable {hi lo k j : Nat}

/-- The correction by 6 makes the decimal carry of the low digits one of the byte's low half. -/
theorem lowSum_corrected (hlo : lo < 10) (hk : k ≤ 1) :
    (if 10 * k + lo ≥ 0x0A then (10 * k + lo + 0x06) % 16 + 0x10 else 10 * k + lo) = 16 * k + lo := by
  split_ifs <;> omega

/-- The correction by 0x60 makes the decimal carry of the high digits one of the byte. -/
theorem highSum_corrected (hlo : lo < 10) (hhi : hi < 10) (hj : j ≤ 1) :
    (if 160 * j + 16 * hi + lo ≥ 0xA0 then 160 * j + 16 * hi + lo + 0x60 else 160 * j + 16 * hi + lo) =
      256 * j + (16 * hi + lo) := by
  split_ifs <;> omega

/-- The same of the low digits' borrow. -/
theorem lowDifference_corrected (hlo : lo < 10) (hk : k ≤ 1) :
    (if (lo - 10 * k : Int) < 0 then (lo - 10 * k - 0x06 : Int) % 16 - 0x10 else lo - 10 * k) = lo - 16 * k := by
  split_ifs <;> omega

/-- The same of the high digits' borrow. -/
theorem highDifference_corrected (hlo : lo < 10) (hhi : hi < 10) (hj : j ≤ 1) :
    (if (16 * hi + lo - 160 * j : Int) < 0 then (16 * hi + lo - 160 * j - 0x60 : Int) else 16 * hi + lo - 160 * j) =
      16 * hi + lo - 256 * j := by
  split_ifs <;> omega

end

/-! ### Decimal arithmetic (R131, R133) -/

section
variable {x y : Nat} (hx : x < 100) (hy : y < 100)
include hx hy

/-- Digit by digit: the low digits add to `10 * k + lo`, the high digits and the carry `k` to `10 * j + hi`. -/
theorem adcBcd_bcd (f : Flags) :
    (adcBcd (bcd x) (bcd y) f).value = bcd ((x + y + f.c.toNat) % 100) ∧
      (adcBcd (bcd x) (bcd y) f).flags.c = decide (100 ≤ x + y + f.c.toNat) := by
  obtain ⟨lo, hlo, k, hk, hlow⟩ :=
    exists_digit_sum (Nat.mod_lt x (by decide)) (Nat.mod_lt y (by decide)) f.c.toNat_le
  obtain ⟨hi, hhi, j, hj, hhigh⟩ := exists_digit_sum (p := x / 10) (q := y / 10) (by omega) (by omega) hk
  have hsum : x + y + f.c.toNat = 100 * j + (10 * hi + lo) := by omega
  have hmod : (100 * j + (10 * hi + lo)) % 100 = 10 * hi + lo := by omega
  have ht : x / 10 * 16 + y / 10 * 16 + (16 * k + lo) = 160 * j + 16 * hi + lo := by omega
  simp only [adcBcd, bcd_toNat_mod hx, bcd_toNat_mod hy, bcd_toNat_div hx, bcd_toNat_div hy, carryNat_eq, hlow,
    lowSum_corrected hlo hk, ht, highSum_corrected hlo hhi hj, hsum, hmod]
  constructor
  · apply BitVec.eq_of_toNat_eq
    rw [BitVec.toNat_ofNat, bcd_toNat (by omega)]
    omega
  · rw [decide_eq_decide]
    omega

/-- Digit by digit: the low digits differ by `lo - 10 * k`, the high digits less the borrow `k` by `hi - 10 * j`. -/
theorem sbcBcdValue_bcd (c : Bool) :
    sbcBcdValue (bcd x) (bcd y) c = bcd ((x + 99 + c.toNat - y) % 100) := by
  have hc := c.toNat_le
  obtain ⟨lo, hlo, k, hk, hlow⟩ :=
    exists_digit_difference (c := 1 - c.toNat) (Nat.mod_lt x (by decide)) (Nat.mod_lt y (by decide)) (by omega)
  obtain ⟨hi, hhi, j, hj, hhigh⟩ := exists_digit_difference (p := x / 10) (q := y / 10) (by omega) (by omega) hk
  have hmod : (x + 99 + c.toNat - y) % 100 = 10 * hi + lo := by omega
  have hal : ((x % 10 : Nat) : Int) - (y % 10 : Nat) + c.toNat - 1 = lo - 10 * k := by omega
  have ht : ((x / 10 * 16 : Nat) : Int) - (y / 10 * 16 : Nat) + (lo - 16 * k) = 16 * hi + lo - 160 * j := by omega
  simp only [sbcBcdValue, bcd_toNat_mod hx, bcd_toNat_mod hy, bcd_toNat_div hx, bcd_toNat_div hy, carryNat_eq, hal,
    lowDifference_corrected hlo hk, ht, highDifference_corrected hlo hhi hj, hmod]
  apply BitVec.eq_of_toNat_eq
  rw [BitVec.toNat_ofInt, bcd_toNat (by omega)]
  omega

/-- Packed BCD keeps the order of numbers, so the binary borrow is the decimal one. -/
theorem sbcBinary_bcd_c (f : Flags) :
    (sbcBinary (bcd x) (bcd y) f).flags.c = decide (y + (1 - f.c.toNat) ≤ x) := by
  have hc := f.c.toNat_le
  rw [sbcBinary_c, bcd_toNat hx, bcd_toNat hy, decide_eq_decide]
  omega

end

end Sys2Proof.Machine

/-! ### The statements

They stand beside `Machine`, whose functions `adcResult` and `sbcResult` have the names of two of them. -/

namespace Sys2Proof.Laws

open Sys2Proof.Machine

/-- Settles O9: ADC is the sum that D and `DECIMAL_MODE` select, of the operand byte read. -/
theorem adcResult : Obligations.AdcResult := by
  unfold Obligations.AdcResult
  refine ⟨completesReading_of_rows adcRows_encode (fun _ => rfl) fun o s m d size cost hbin hread => ?_,
    completesReading_of_rows adcRows_encode (fun _ => rfl) fun o s m d size cost hdec hread => ?_⟩
  · simp only [exec, execAdc, hread, State.advance_a, State.advance_flags, adcResult_binary hbin, adcBinary_eq]
    rfl
  · obtain ⟨hd, hmode⟩ := hdec
    simp only [exec, execAdc, hread, State.advance_a, State.advance_flags, hmode, adcResult_nmosBcd hd, adcBcd,
      carryNat_eq]
    rfl

/-- Settles O10: the flags of SBC are those of the binary difference, its value the one that D and `DECIMAL_MODE` select. -/
theorem sbcResult : Obligations.SbcResult := by
  unfold Obligations.SbcResult
  refine ⟨completesReading_of_rows sbcRows_encode (fun _ => rfl) fun o s m d size cost hbin hread => ?_,
    completesReading_of_rows sbcRows_encode (fun _ => rfl) fun o s m d size cost hdec hread => ?_⟩
  · simp only [exec, execSbc, hread, State.advance_a, State.advance_flags, sbcResult_binary hbin, sbcBinary_eq]
    rfl
  · obtain ⟨hd, hmode⟩ := hdec
    simp only [exec, execSbc, hread, State.advance_a, State.advance_flags, hmode, sbcResult_nmosBcd hd, sbcBcdValue,
      sbcBinary_eq, carryNat_eq]
    rfl

/-- Settles O11: each compare is its register's flags against the operand byte read. -/
theorem compareResult : Obligations.CompareResult := by
  unfold Obligations.CompareResult
  refine ⟨completesReading_of_rows cmpRows_encode (fun _ => rfl) fun o s m d size cost _ hread => ?_,
    completesReading_of_rows cpxRows_encode (fun _ => rfl) fun o s m d size cost _ hread => ?_,
    completesReading_of_rows cpyRows_encode (fun _ => rfl) fun o s m d size cost _ hread => ?_⟩
  · rw [exec, execCmp, hread, compareFlags_eq]
    rfl
  · rw [exec, execCpx, hread, compareFlags_eq]
    rfl
  · rw [exec, execCpy, hread, compareFlags_eq]
    rfl

/-- Settles O12: INC and DEC are the shared read-modify-write operation of their function. -/
theorem memoryStepResult : Obligations.MemoryStepResult := by
  unfold Obligations.MemoryStepResult
  exact ⟨completesModifying_of_rows (f := incResult) incRows_encode (modifyRows_mode _ _ _ _) (fun _ => rfl)
      (fun _ _ => rfl) fun _ _ => rfl,
    completesModifying_of_rows (f := decResult) decRows_encode (modifyRows_mode _ _ _ _) (fun _ => rfl)
      (fun _ _ => rfl) fun _ _ => rfl⟩

/-- Settles O23: V of the sum, and V and C of the difference. -/
theorem signedOverflow : Obligations.SignedOverflow := by
  unfold Obligations.SignedOverflow
  exact ⟨adcBinary_v, sbcBinary_v, sbcBinary_c⟩

/-- Settles O24: the digit-wise sum, and the digit-wise difference with the borrow of the binary one. -/
theorem bcdArithmetic : Obligations.BcdArithmetic := by
  unfold Obligations.BcdArithmetic
  refine ⟨fun x y f hx hy => adcBcd_bcd hx hy f, fun x y f hx hy hd => ?_⟩
  rw [sbcResult_nmosBcd hd]
  exact ⟨sbcBcdValue_bcd hx hy f.c, sbcBinary_bcd_c hx hy f⟩

end Sys2Proof.Laws
end

section
/-! PROOFS. The family of the logic, bit test and shifts: O13 (AND, ORA, EOR), O14 (BIT), by the completion of a read
instruction; O15 (ASL, LSR, ROL, ROR), by what completion of the shared read-modify-write operation comes down to on A and on
memory, and by the rotates as numbers. -/

namespace Sys2Proof.Machine

/-! ### Rows of the Encoding lines (R150 to R157) -/

theorem andRows_encode : ∀ r ∈ andRows, r.Encodes .and := by
  intro r hr
  fin_cases hr <;> exact ⟨rfl, rfl, fun _ _ => rfl⟩

theorem oraRows_encode : ∀ r ∈ oraRows, r.Encodes .ora := by
  intro r hr
  fin_cases hr <;> exact ⟨rfl, rfl, fun _ _ => rfl⟩

theorem eorRows_encode : ∀ r ∈ eorRows, r.Encodes .eor := by
  intro r hr
  fin_cases hr <;> exact ⟨rfl, rfl, fun _ _ => rfl⟩

theorem bitRows_encode : ∀ r ∈ bitRows, r.Encodes .bit := by
  intro r hr
  fin_cases hr <;> exact ⟨rfl, rfl, fun _ _ => rfl⟩

theorem aslRows_encode : ∀ r ∈ aslRows, r.Encodes .asl := by
  intro r hr
  fin_cases hr <;> exact ⟨rfl, rfl, fun _ _ => rfl⟩

theorem lsrRows_encode : ∀ r ∈ lsrRows, r.Encodes .lsr := by
  intro r hr
  fin_cases hr <;> exact ⟨rfl, rfl, fun _ _ => rfl⟩

theorem rolRows_encode : ∀ r ∈ rolRows, r.Encodes .rol := by
  intro r hr
  fin_cases hr <;> exact ⟨rfl, rfl, fun _ _ => rfl⟩

theorem rorRows_encode : ∀ r ∈ rorRows, r.Encodes .ror := by
  intro r hr
  fin_cases hr <;> exact ⟨rfl, rfl, fun _ _ => rfl⟩

/-! ### What completion of a shift or rotate comes down to (R154 to R157) -/

/-- A shift or rotate completes on A and in its memory forms if its meaning is the shared read-modify-write operation with a
function `f` that gives `value` of the byte and the old carry, and `flags` of the byte and the old flags. -/
theorem completesShift_of_modifyOperand {mk : Operand → Instr} {op zp zpx abs abx : Byte} {value : Byte → Bool → Byte}
    {flags : Byte → Flags → Flags} {f : Byte → Flags → AluResult} (hcycles : TakesCycles op 2 false)
    (hop : (mk .accumulator).opcode = some op) (hrows : ∀ r ∈ modifyRows zp zpx abs abx, r.Encodes mk)
    (hmk : ∀ o, (mk o).operand = o) (hf : ∀ v g, f v g = { value := value v g.c, flags := flags v g })
    (hexec : ∀ o s, exec (mk o) s = .next (s.modifyOperand (mk o) o f)) :
    CompletesOnAccumulator mk op value flags ∧ CompletesModifying mk (modifyRows zp zpx abs abx) value flags := by
  refine ⟨⟨hcycles, fun b1 b2 s => ⟨decodeOp_of_opcode (m := .accumulator) hop (hmk _), ?_⟩⟩,
    completesModifying_of_rows hrows (modifyRows_mode _ _ _ _) hmk hf hexec⟩
  rw [hexec, State.modifyOperand_accumulator hop, hf]

/-! ### The rotates as numbers (R156, R157) -/

/-- Shifted left, bit 0 is free for the carry, so the or is the sum. -/
theorem rol_eq_ofNat (v : Byte) (c : Bool) :
    (v <<< 1) ||| (if c then 0x01 else 0x00) = BitVec.ofNat 8 (2 * v.toNat + c.toNat) := by
  have hv : v <<< 1 = BitVec.ofNat 8 (2 ^ 1 * v.toNat) := by
    apply BitVec.eq_of_toNat_eq
    rw [BitVec.toNat_shiftLeft, BitVec.toNat_ofNat, Nat.shiftLeft_eq, Nat.mul_comm]
  have hc : (if c then 0x01 else 0x00 : Byte) = BitVec.ofNat 8 c.toNat := by cases c <;> rfl
  rw [hv, hc, ← BitVec.ofNat_or, ← Nat.two_pow_add_eq_or_of_lt c.toNat_lt, Nat.pow_one]

/-- Shifted right, bit 7 is free for the carry, so the or is the sum. -/
theorem ror_eq_ofNat (v : Byte) (c : Bool) :
    (v >>> 1) ||| (if c then 0x80 else 0x00) = BitVec.ofNat 8 (v.toNat / 2 + 128 * c.toNat) := by
  have hlt : v.toNat / 2 < 2 ^ 7 := by omega
  have hv : v >>> 1 = BitVec.ofNat 8 (v.toNat / 2) := by
    apply BitVec.eq_of_toNat_eq
    rw [BitVec.toNat_ushiftRight, BitVec.toNat_ofNat, Nat.shiftRight_eq_div_pow]
    omega
  have hc : (if c then 0x80 else 0x00 : Byte) = BitVec.ofNat 8 (2 ^ 7 * c.toNat) := by cases c <;> rfl
  rw [hv, hc, BitVec.or_comm, ← BitVec.ofNat_or, ← Nat.two_pow_add_eq_or_of_lt hlt, Nat.add_comm]

theorem rolResult_eq (v : Byte) (f : Flags) :
    rolResult v f =
      let r := BitVec.ofNat 8 (2 * v.toNat + f.c.toNat)
      { value := r, flags := { f.withZN r with c := v.getLsbD 7 } } := by
  rw [rolResult, rol_eq_ofNat]
  rfl

theorem rorResult_eq (v : Byte) (f : Flags) :
    rorResult v f =
      let r := BitVec.ofNat 8 (v.toNat / 2 + 128 * f.c.toNat)
      { value := r, flags := { f.withZN r with c := v.getLsbD 0 } } := by
  rw [rorResult, ror_eq_ofNat]
  rfl

/-! ### The statements -/

/-- Settles O13: each is its operation of A and the operand byte read, and `SetZN` of the result. -/
theorem logicResult : Obligations.LogicResult := by
  unfold Obligations.LogicResult
  refine ⟨completesReading_of_rows andRows_encode (fun _ => rfl) fun o s m d size cost _ hread => ?_,
    completesReading_of_rows oraRows_encode (fun _ => rfl) fun o s m d size cost _ hread => ?_,
    completesReading_of_rows eorRows_encode (fun _ => rfl) fun o s m d size cost _ hread => ?_⟩
  · rw [exec, execAnd, hread, State.setZN_eq]
    rfl
  · rw [exec, execOra, hread, State.setZN_eq]
    rfl
  · rw [exec, execEor, hread, State.setZN_eq]
    rfl

/-- Settles O14: BIT is its flags of A and the operand byte read. -/
theorem bitResult : Obligations.BitResult := by
  unfold Obligations.BitResult
  refine completesReading_of_rows bitRows_encode (fun _ => rfl) fun o s m d size cost _ hread => ?_
  rw [exec, execBit, hread]
  rfl

/-- Settles O15: each is the shared read-modify-write operation of its function; the rotates' results as numbers. -/
theorem shiftResult : Obligations.ShiftResult := by
  unfold Obligations.ShiftResult
  exact ⟨completesShift_of_modifyOperand (f := aslResult) rfl rfl aslRows_encode (fun _ => rfl) (fun _ _ => rfl)
      fun _ _ => rfl,
    completesShift_of_modifyOperand (f := lsrResult) rfl rfl lsrRows_encode (fun _ => rfl) (fun _ _ => rfl)
      fun _ _ => rfl,
    completesShift_of_modifyOperand rfl rfl rolRows_encode (fun _ => rfl) rolResult_eq fun _ _ => rfl,
    completesShift_of_modifyOperand rfl rfl rorRows_encode (fun _ => rfl) rorResult_eq fun _ _ => rfl⟩

end Sys2Proof.Machine
end

section
/-! PROOFS. The family of the control flow: O16 (JMP), O17 (JSR, RTS), O18 (the conditional branches), each by what the
shared operations it is made of come down to: the entry, the pushed and pulled word, the branch. -/

namespace Sys2Proof

/-! ### The halves of a word (R7, R43, R84) -/

theorem highByte_eq_extractLsb' (a : Addr) : highByte a = a.extractLsb' 8 8 :=
  BitVec.setWidth_ushiftRight_eq_extractLsb

theorem lowByte_eq_extractLsb' (a : Addr) : lowByte a = a.extractLsb' 0 8 :=
  BitVec.setWidth_eq_extractLsb' (by decide)

end Sys2Proof

namespace Sys2Proof.Machine

/-- The pointer's second byte stands in the page of the first (D9). -/
theorem nextInPage_word (hi lo : Byte) : nextInPage (word hi lo) = word hi (lo + 1) := by
  rw [nextInPage, highByte_word, lowByte_word]

/-! ### The entry and the word on the stack (R13, R89, R220) -/

/-- Entry is the operand's resolution, then `PC` and `cycles` advanced by the size and the cost. -/
theorem State.enter_eq_advance {i : Instr} {op : Byte} (hi : i.opcode = some op) (s : State) (o : Operand) (size : Nat) :
    s.enter o size (columnsOf s.config i) =
      ((s.resolve o).1.ea, (s.resolve o).2.advance size (s.cost op o)) := by
  obtain ⟨d, hd⟩ := s.resolve_state o
  simp only [State.enter, columnsOf_eq hi, State.cost, Bool.and_comm, hd, State.advance]

/-- The high byte is written at SP, the low byte under it. -/
theorem State.push16_eq (s : State) (w : Addr) :
    s.push16 w =
      { (s.set (stackAddr s.config s.sp) (w.extractLsb' 8 8)).set (stackAddr s.config (s.sp - 1)) (w.extractLsb' 0 8) with
        sp := s.sp - 2 } := by
  rw [State.push16, highByte_eq_extractLsb', lowByte_eq_extractLsb', ← Byte.sub_one_sub_one]
  rfl

/-- The low byte is read above SP, the high byte above that. -/
theorem State.pull16_eq (s : State) :
    s.pull16 =
      let l := s.get (stackAddr s.config (s.sp + 1))
      let h := l.2.get (stackAddr s.config (s.sp + 2))
      (h.1 ++ l.1, { h.2 with sp := s.sp + 2 }) := by
  rw [← Byte.add_one_add_one]
  rfl

/-! ### Jump, call and return (R170 to R172) -/

/-- A jump is its target's resolution with `PC` replaced by the target. -/
theorem exec_jmp {op : Byte} {o : Operand} (ho : (Instr.jmp o).opcode = some op) (s : State) :
    exec (.jmp o) s =
      .next { (s.resolve o).2 with pc := (s.resolve o).1.ea, cycles := s.cycles + s.cost op o } := by
  obtain ⟨d, hd⟩ := s.resolve_state o
  rw [exec, execJmp, State.enter_eq_advance ho, hd]
  rfl

/-- Settles O16: the two forms of the target, the pointer's second byte in its own page. -/
theorem jumpResult : Obligations.JumpResult := by
  unfold Obligations.JumpResult
  refine ⟨rfl, rfl, fun lo hi s => ⟨rfl, exec_jmp rfl s⟩, fun lo hi s => ⟨rfl, ?_⟩⟩
  rw [← word, ← word, ← nextInPage_word]
  exact exec_jmp rfl s

/-- Settles O17: the word pushed is the address before the next instruction's; the word pulled has one added. -/
theorem callReturnResult : Obligations.CallReturnResult := by
  unfold Obligations.CallReturnResult
  refine ⟨rfl, rfl, fun lo hi s => ⟨rfl, ?_⟩, fun b1 b2 s => ⟨rfl, ?_⟩⟩
  · have hret : s.pc + 3 - 1 = s.pc + 2 := add_sub_assoc s.pc 3 1
    rw [← hret, exec, execJsr, State.enter_eq_advance rfl, State.push16_eq]
    rfl
  · rw [exec, execRts, State.enterImplied_eq rfl, State.pull16_eq]
    rfl

/-! ### Branches (R173) -/

/-- The common rule of the branches, by the target's page and that of the next instruction (D11). -/
theorem State.branch_eq {i : Instr} {op : Byte} (hi : i.opcode = some op) (s : State) (d8 : Byte) (taken : Bool) :
    s.branch i d8 taken =
      if taken then
        { s with
          pc := branchTarget s.pc d8
          cycles := s.cycles + s.cost op (.relative d8) +
            (if (branchTarget s.pc d8).toNat / 256 = (s.pc + 2).toNat / 256 then 1 else 2) }
      else { s with pc := s.pc + 2, cycles := s.cycles + s.cost op (.relative d8) } := by
  rw [State.branch, State.enter_eq_advance hi]
  simp only [pageDiffers_eq, decide_eq_true_eq, ne_eq, ite_not]
  cases taken <;> rfl

/-- A branch completes if its meaning is the common rule. -/
theorem completesBranching_of_branch {mk : Byte → Instr} {op : Byte} {taken : Flags → Bool}
    (hcycles : TakesCycles op 2 false) (hop : ∀ d8, (mk d8).opcode = some op)
    (hmk : ∀ d8, (mk d8).operand = .relative d8)
    (hexec : ∀ d8 s, exec (mk d8) s = .next (s.branch (mk d8) d8 (taken s.flags))) :
    CompletesBranching mk op taken := by
  refine ⟨hcycles, fun d8 b2 s => ⟨decodeOp_of_opcode (m := .relative) (hop d8) (hmk d8), ?_⟩⟩
  rw [hexec, State.branch_eq (hop d8)]
  rfl

/-- Settles O18: each branch is the common rule with its own condition. -/
theorem branchResult : Obligations.BranchResult := by
  unfold Obligations.BranchResult
  refine ⟨?_, ?_, ?_, ?_, ?_, ?_, ?_, ?_⟩ <;>
    exact completesBranching_of_branch rfl (fun _ => rfl) (fun _ => rfl) fun _ _ => rfl

end Sys2Proof.Machine
end

section
/-! PROOFS. The family of the flag and system instructions: O19 (the flag instructions and NOP), O20 (BRK), O21 (RTI), the
last two by what trap entry and the return from it come down to as accesses of the stack. -/

namespace Sys2Proof.Machine

/-! ### Flag instructions and NOP (R190 to R197) -/

/-- A flag instruction completes if its meaning is the common rule: the flags replaced, and nothing else but by the entry. -/
theorem completesInside_of_flagInstr {i : Instr} {op : Byte} {cycles : Nat} {f : State → Flags}
    (hcycles : TakesCycles op cycles false) (hop : i.opcode = some op) (hi : i.operand = .implied)
    (hexec : ∀ s, exec i s = .next (s.flagInstr i (f s))) :
    CompletesInside i op cycles (fun s => { s with flags := f s }) :=
  completesInside_of_enterImplied hcycles hop hi (fun _ => ⟨rfl, rfl⟩) hexec

/-- Settles O19: each flag instruction is the common rule with its own flag, NOP its entry alone. -/
theorem flagInstructionResult : Obligations.FlagInstructionResult := by
  unfold Obligations.FlagInstructionResult
  refine ⟨?_, ?_, ?_, ?_, ?_, ?_, ?_, ?nop⟩
  case nop => exact completesInside_of_enterImplied rfl rfl rfl (fun _ => ⟨rfl, rfl⟩) fun _ => rfl
  all_goals exact completesInside_of_flagInstr rfl rfl rfl fun _ => rfl

/-! ### Trap entry and return (R198, R199, R224, R225, R227) -/

theorem Byte.sub_two_sub_one (b : Byte) : b - 2 - 1 = b - 3 := sub_sub b 2 1

/-- Trap entry writes `PC`, high byte first, and the flag image down from SP, then reads the vector, low byte first. -/
theorem State.interrupt_eq (s : State) (vector : Addr) (brk : Bool) :
    s.interrupt vector brk =
      let p1 := s.set (stackAddr s.config s.sp) (s.pc.extractLsb' 8 8)
      let p2 := p1.set (stackAddr s.config (s.sp - 1)) (s.pc.extractLsb' 0 8)
      let p3 := p2.set (stackAddr s.config (s.sp - 2)) (s.flags.image true brk)
      let lo := p3.get vector
      let hi := lo.2.get (vector + 1)
      { hi.2 with sp := s.sp - 3, pc := hi.1 ++ lo.1, flags := { s.flags with i := true } } := by
  rw [State.interrupt, State.push16_eq, Flags.pushed_eq_image, ← Byte.sub_two_sub_one]
  rfl

/-- Settles O20: BRK is trap entry with `PC` at the address of the instruction after its two bytes. -/
theorem breakResult : Obligations.BreakResult := by
  unfold Obligations.BreakResult
  refine ⟨rfl, fun b1 b2 s => ⟨rfl, ?_⟩⟩
  rw [exec, execBrk, State.enter_eq_advance rfl, State.interrupt_eq]
  rfl

/-- Return from interrupt reads the flag byte above SP, then `PC` above it, low byte first. -/
theorem State.returnFromInterrupt_eq (s : State) :
    s.returnFromInterrupt =
      let p := s.get (stackAddr s.config (s.sp + 1))
      let l := p.2.get (stackAddr s.config (s.sp + 2))
      let h := l.2.get (stackAddr s.config (s.sp + 3))
      { h.2 with
        sp := s.sp + 3
        pc := h.1 ++ l.1
        flags := { c := p.1.getLsbD 0, z := p.1.getLsbD 1, i := p.1.getLsbD 2, d := p.1.getLsbD 3, b := false, u := true,
                   v := p.1.getLsbD 6, n := p.1.getLsbD 7 } } := by
  rw [State.returnFromInterrupt, State.pull16_eq, State.pullFlags, Flags.pulled_eq,
    ← Byte.add_one_add_one s.sp, ← Byte.add_one_add_two s.sp]
  rfl

/-- Settles O21: RTI is its entry and the return, which reads `PC` as pulled. -/
theorem returnFromInterruptResult : Obligations.ReturnFromInterruptResult := by
  unfold Obligations.ReturnFromInterruptResult
  refine ⟨rfl, fun b1 b2 s => ⟨rfl, ?_⟩⟩
  rw [exec, execRti, State.enterImplied_eq rfl, State.returnFromInterrupt_eq]
  rfl

end Sys2Proof.Machine
end

section
/-! PROOFS. O45: the device invariant (SRQ, tick count, cache window, pending filename), by what each operation of the
Storage, each transition of the bus and each access of the Chipset leaves alone; and O41, that a step never stops. -/

namespace Sys2Proof.Machine

/-! ### The Storage invariant under each Storage operation (R305, R312 to R316) -/

namespace Storage.Inv

variable {st : Storage}

/-- Only the window's base, its two marks and the pending filename matter. -/
theorem congr {st' : Storage} (h : st.Inv) (hbase : st'.base = st.base) (hvalid : st'.valid = st.valid)
    (hdirty : st'.dirty = st.dirty) (hname : st'.pendingName = st.pendingName) : st'.Inv := by
  rw [Inv, hbase, hvalid, hdirty, hname]
  exact h

/-- A clean window meets the condition on dirty ones. -/
theorem of_clean {st' : Storage} (h : st.Inv) (hbase : st'.base % 4096 = 0) (hdirty : st'.dirty = false)
    (hname : st'.pendingName = st.pendingName) : st'.Inv := by
  refine ⟨hbase, fun hd => ?_, hname ▸ h.2.2⟩
  rw [hdirty] at hd
  cases hd

theorem flush (h : st.Inv) : st.flush.Inv := by
  obtain ⟨f, n, w, bs, bs', hf⟩ := st.flush_state
  rw [hf]
  exact h.of_clean h.1 rfl rfl

theorem flushIfDirty (h : st.Inv) : st.flushIfDirty.Inv := by
  unfold Storage.flushIfDirty
  split
  · exact h.flush
  · exact h

theorem makeResident (h : st.Inv) (addr : Nat) : (st.makeResident addr).Inv := by
  unfold Storage.makeResident
  split
  · exact h
  · obtain ⟨f, n, w, hr⟩ := Storage.deviceRead_state { st.flushIfDirty with base := Storage.sectorBase addr }
      (Storage.sectorBase addr)
    dsimp only
    rw [hr]
    exact h.flushIfDirty.of_clean (Storage.sectorBase_aligned addr) rfl rfl

/-- After a write the window is valid, and aligned whether or not it was a hit. -/
theorem writeByte (h : st.Inv) (addr : Nat) (v : Byte) : (st.writeByte addr v).Inv := by
  have hvalid := st.makeWritable_valid addr
  have hw : (st.makeWritable addr).base % 4096 = 0 ∧ (st.makeWritable addr).pendingName.length ≤ 16 := by
    unfold Storage.makeWritable
    split
    · exact ⟨h.1, h.2.2⟩
    · exact ⟨Storage.sectorBase_aligned addr, h.flushIfDirty.2.2⟩
  exact ⟨hw.1, fun _ => hvalid, hw.2⟩

theorem writeBytes (bs : List Byte) {st : Storage} (h : st.Inv) (addr : Nat) :
    (Storage.writeBytes bs addr st).Inv := by
  induction bs generalizing st addr with
  | nil => exact h
  | cons b bs ih => exact ih (h.writeByte addr b) (addr + 1)

theorem fetchDirectory (h : st.Inv) : st.fetchDirectory.Inv := by
  unfold Storage.fetchDirectory
  split
  · exact h
  · exact (h.makeResident 0).congr rfl rfl rfl rfl

theorem addFile (h : st.Inv) (name : Vector Byte 16) : (st.addFile name).2.Inv := by
  unfold Storage.addFile
  dsimp only
  have hdir := (h.makeResident 0).fetchDirectory
  split
  · exact hdir
  · exact (writeBytes _ hdir _).congr rfl rfl rfl rfl

theorem setFilesize (h : st.Inv) (i : Fin 46) (n : Nat) : (st.setFilesize i n).Inv :=
  (writeBytes (lengthBytes n) (h.makeResident 0) (Storage.slotAddr i + 20)).flush.congr rfl rfl rfl rfl

end Storage.Inv

/-- No operation of the contract breaks the Storage invariant. -/
theorem Storage.inv_keptByContract : Storage.KeptByContract Storage.Inv where
  startFilename _ h := ⟨h.1, h.2.1, Nat.zero_le 16⟩
  nextFilenameByte b st h := by
    unfold Storage.nextFilenameByte
    split
    · refine ⟨h.1, h.2.1, ?_⟩
      rw [List.length_append, List.length_singleton]
      omega
    · exact h
  padFilename st h := by
    have hlen := h.2.2
    refine ⟨h.1, h.2.1, ?_⟩
    rw [Storage.padFilename, List.length_append, List.length_replicate]
    omega
  fnameDone st h := by
    unfold Storage.fnameDone
    dsimp only
    split
    · exact h.congr rfl rfl rfl rfl
    · exact h.fetchDirectory.congr rfl rfl rfl rfl
  startSave st h := (h.addFile st.filename).congr rfl rfl rfl rfl
  saveDataByte i v st h := by
    unfold Storage.saveDataByte
    split
    · exact (h.writeByte _ v).congr rfl rfl rfl rfl
    all_goals exact h
  endSave n st h := by
    unfold Storage.endSave
    split
    · exact (h.flushIfDirty.setFilesize _ n).congr rfl rfl rfl rfl
    all_goals exact h
  loadDataLen st h := by
    unfold Storage.loadDataLen
    split
    · exact h.fetchDirectory
    · split
      · exact h.fetchDirectory
      all_goals exact h
  loadDataByte cfg i st h := by
    unfold Storage.loadDataByte
    split
    · dsimp only
      split
      · exact h.fetchDirectory
      · exact h.fetchDirectory.congr rfl rfl rfl rfl
    · split
      · dsimp only
        split
        · exact h.makeResident _
        · exact (h.makeResident _).congr rfl rfl rfl rfl
      all_goals exact h.congr rfl rfl rfl rfl
  openLegacySave st h := by
    unfold Storage.openLegacySave
    split <;> exact h.congr rfl rfl rfl rfl

/-! ### SRQ stays as it is (R298) -/

theorem Devices.command_srq (cfg : Config) (byte : Byte) (d : Devices) : (d.command cfg byte).bus.srq = d.bus.srq := by
  unfold Devices.command
  split
  · unfold Devices.commandIdle
    repeat' split
    all_goals rfl
  · unfold Devices.commandListen
    repeat' split
    all_goals rfl
  · unfold Devices.commandCapture Devices.finalizeFilename
    dsimp only
    repeat' split
    all_goals rfl
  · unfold Devices.commandLoad
    split <;> rfl
  · unfold Devices.commandSave
    split <;> rfl
  · rfl

theorem Devices.dataIn_srq (cfg : Config) (byte : Byte) (d : Devices) : (d.dataIn cfg byte).bus.srq = d.bus.srq := by
  unfold Devices.dataIn
  split
  · unfold Devices.dataByte
    split <;> rfl
  · exact d.command_srq cfg byte

theorem Devices.placeByte_srq (cfg : Config) (d : Devices) : (d.placeByte cfg).bus.srq = d.bus.srq := by
  unfold Devices.placeByte
  dsimp only
  split
  · split <;> rfl
  · rfl

theorem Devices.edge_srq (cfg : Config) (l : Line) (level : Bool) (d : Devices) :
    (d.edge cfg l level).bus.srq = d.bus.srq := by
  unfold Devices.edge
  split
  · unfold Devices.davFalling
    dsimp only
    split <;> exact d.dataIn_srq cfg _
  · unfold Devices.davRising
    split <;> rfl
  · unfold Devices.ndacRising
    split
    · dsimp only
      split <;> rfl
    all_goals rfl
  · unfold Devices.nrfdRising
    split
    · exact d.placeByte_srq cfg
    all_goals rfl
  · unfold Devices.atnRising
    split
    · split
      · exact d.placeByte_srq cfg
      · rfl
    all_goals rfl
  · unfold Devices.eoiRising
    split <;> rfl
  · rfl

/-- No setter changes a half of SRQ, its own least of all. -/
theorem Devices.lineOut_srq (cfg : Config) (l : Line) (level : Bool) (d : Devices) :
    (d.lineOut cfg l level).bus.srq = d.bus.srq := by
  unfold Devices.lineOut
  split
  · rfl
  all_goals
    dsimp only
    split
    · rfl
    · exact Devices.edge_srq cfg _ level _

theorem Devices.forwardPort_srq (cfg : Config) (id : PortId) (old new : Byte) (d : Devices) :
    (d.forwardPort cfg id old new).bus.srq = d.bus.srq := by
  unfold Devices.forwardPort
  dsimp only
  refine foldl_keeps (P := fun x : Devices => x.bus.srq = d.bus.srq) (fun x w hx => ?_) _ (by split <;> split <;> rfl)
  unfold Devices.forwardWire
  split
  · exact hx
  · exact (Devices.lineOut_srq cfg _ _ x).trans hx

theorem Devices.forwardHandshake_srq (cfg : Config) (level : Bool) (d : Devices) (h : HandshakeOut) :
    (d.forwardHandshake cfg level h).bus.srq = d.bus.srq := by
  unfold Devices.forwardHandshake
  split
  · exact d.lineOut_srq cfg _ level
  · unfold Devices.setBlanking
    split
    · rfl
    · exact Devices.lineOut_srq cfg _ level _

theorem Devices.settle_bus (cfg : Config) (before : Bus) (d : Devices) : (d.settle cfg before).bus = d.bus := rfl

theorem Devices.writePort_srq (cfg : Config) (id : PortId) (put : Port → Port) (d : Devices) :
    (d.writePort cfg id put).bus.srq = d.bus.srq :=
  Devices.forwardPort_srq cfg id _ _ (d.setChip _)

theorem Devices.writeControl_srq (cfg : Config) (p : PiaId) (v : Byte) (d : Devices) :
    (d.writeControl cfg p v).bus.srq = d.bus.srq := by
  unfold Devices.writeControl
  dsimp only
  rw [Devices.settle_bus]
  split
  · exact foldl_keeps (P := fun x : Devices => x.bus.srq = d.bus.srq)
      (fun x h hx => (x.forwardHandshake_srq cfg _ h).trans hx) _ rfl
  · rfl

/-! ### Port and control writes change nothing outside the ports but the blanking level (R253, R256, R258) -/

theorem Devices.writePort_withPorts (cfg : Config) (id : PortId) (put : Port → Port) (d : Devices) (e : Chipset) :
    (d.writePort cfg id put).chip.withPorts e = d.chip.withPorts e := by
  unfold Devices.writePort
  dsimp only
  rw [Devices.settle_withPorts, (Devices.forwardPort_frame _ _ _ _ _).1, Devices.setChip_chip,
    Chipset.setPort_withPorts]

theorem Devices.writeControl_withPorts (cfg : Config) (p : PiaId) (v : Byte) (d : Devices) (e : Chipset) :
    (d.writeControl cfg p v).chip.withPorts e =
      { d.chip.withPorts e with blankLevel := (d.writeControl cfg p v).chip.blankLevel } := by
  obtain ⟨u, hu, -, level, hchip⟩ := d.writeControl_eq cfg p v
  have hports : (d.writeControl cfg p v).chip.withPorts e = { d.chip.withPorts e with blankLevel := level } := by
    rw [hu, Devices.settle_withPorts, hchip, ← Chipset.setCr_withPorts d.chip e p]
    rfl
  have hblank : (d.writeControl cfg p v).chip.blankLevel = level := congrArg Chipset.blankLevel hports
  rw [hports, hblank]

theorem Devices.writePort_tickCount (cfg : Config) (id : PortId) (put : Port → Port) (d : Devices) :
    (d.writePort cfg id put).chip.tickCount = d.chip.tickCount := by
  have h := congrArg Chipset.tickCount (d.writePort_withPorts cfg id put d.chip)
  exact h

theorem Devices.writeControl_tickCount (cfg : Config) (p : PiaId) (v : Byte) (d : Devices) :
    (d.writeControl cfg p v).chip.tickCount = d.chip.tickCount := by
  have h := congrArg Chipset.tickCount (d.writeControl_withPorts cfg p v d.chip)
  exact h

/-! ### Every access keeps the device invariant (R251, R259, R298) -/

/-- A write of a chipset register leaves the tick count and SRQ alone. -/
theorem Devices.write_tickCount_srq (cfg : Config) (offset : Nat) (v : Byte) (d : Devices) :
    (d.write cfg offset v).chip.tickCount = d.chip.tickCount ∧ (d.write cfg offset v).bus.srq = d.bus.srq := by
  unfold Devices.write
  cases registerAt cfg.chipset offset with
  | none => exact ⟨rfl, rfl⟩
  | some reg =>
    cases reg with
    | piaPort p =>
      unfold Devices.writePia
      dsimp only
      split <;> exact ⟨d.writePort_tickCount cfg _ _, d.writePort_srq cfg _ _⟩
    | piaControl p => exact ⟨d.writeControl_tickCount cfg p v, d.writeControl_srq cfg p v⟩
    | viaPortA | viaPortB | viaDdrA | viaDdrB =>
      exact ⟨d.writePort_tickCount cfg _ _, d.writePort_srq cfg _ _⟩
    | _ => exact ⟨rfl, rfl⟩

/-- So does a read of one, which changes flags only. -/
theorem Devices.read_tickCount_bus (cfg : Config) (offset : Nat) (d : Devices) :
    (d.read cfg offset).2.chip.tickCount = d.chip.tickCount ∧ (d.read cfg offset).2.bus = d.bus := by
  unfold Devices.read
  cases registerAt cfg.chipset offset with
  | none => exact ⟨rfl, rfl⟩
  | some reg =>
    cases reg with
    | piaPort p =>
      unfold Devices.readPia
      dsimp only
      split
      · exact ⟨Chipset.setPia_tickCount _ _ _, rfl⟩
      · split <;> exact ⟨rfl, rfl⟩
    | _ => exact ⟨rfl, rfl⟩

theorem Devices.Inv.write {d : Devices} (h : d.Inv) (cfg : Config) (offset : Nat) (v : Byte) :
    (d.write cfg offset v).Inv := by
  obtain ⟨hcount, hsrq, hstore⟩ := h
  obtain ⟨hc, hs⟩ := d.write_tickCount_srq cfg offset v
  exact ⟨hc ▸ hcount, hs.trans hsrq, Storage.inv_keptByContract.write cfg offset v hstore⟩

theorem Devices.Inv.read {d : Devices} (h : d.Inv) (cfg : Config) (offset : Nat) : (d.read cfg offset).2.Inv := by
  obtain ⟨hcount, hsrq, hstore⟩ := h
  obtain ⟨hc, hb⟩ := d.read_tickCount_bus cfg offset
  exact ⟨hc ▸ hcount, (congrArg Bus.srq hb).trans hsrq, (d.read_store cfg offset) ▸ hstore⟩

/-- The tick count after a tick (R259). -/
theorem Chipset.tick_tickCount (cfg : Config) (c : Chipset) : (c.tick cfg).2.tickCount = (c.tickCount + 1) % 20 := by
  obtain ⟨k1, a1, k2, a2, i, h⟩ := c.tick_state cfg
  rw [h]
  exact c.tickRetrace_tickCount cfg

theorem Devices.refreshInputs_tickCount (cfg : Config) (d : Devices) :
    (d.refreshInputs cfg).chip.tickCount = d.chip.tickCount := by
  have h := congrArg Chipset.tickCount (d.refreshInputs_withoutInputs cfg)
  exact h

/-- The count is taken modulo 20 (R259); bus and Storage stay. -/
theorem Devices.Inv.tick {d : Devices} (h : d.Inv) (cfg : Config) : (d.tick cfg).2.Inv := by
  have hcount : (d.tick cfg).2.chip.tickCount = (d.chip.tickCount + 1) % 20 :=
    (Devices.refreshInputs_tickCount cfg _).trans (d.chip.tick_tickCount cfg)
  exact ⟨hcount ▸ Nat.mod_lt _ (by decide), h.2⟩

/-- Every access keeps the device invariant. -/
theorem stable_deviceInv (cfg : Config) : Stable cfg (fun _ => True) Devices.Inv where
  writeMem _ _ _ _ h := h
  writeDev mem dev a v h := by
    rcases writeAt_dev cfg mem dev a v with he | ⟨offset, he⟩
    · rw [he]
      exact h
    · rw [he]
      exact h.write cfg offset v
  readDev mem dev a h := by
    rcases readAt_dev cfg mem dev a with he | ⟨offset, he⟩
    · rw [he]
      exact h
    · rw [he]
      exact h.read cfg offset

/-- Settles O45: every access and every tick keeps the device invariant, so a step does. -/
theorem deviceInvariant : Obligations.DeviceInvariant := by
  unfold Obligations.DeviceInvariant
  intro s t h he
  exact ((stable_deviceInv s.config).step (fun _ hd => hd.tick s.config) ⟨rfl, rfl, trivial, h⟩ he).dev

/-! ### No step stops the machine (R226, R342) -/

/-- No access and no tick clears the mark that the machine may step. -/
theorem stable_trivial (cfg : Config) : Stable cfg (fun _ => True) (fun _ => True) where
  writeMem _ _ _ _ h := h
  writeDev _ _ _ _ h := h
  readDev _ _ _ h := h

theorem step_started {s t : State} (he : step s = .next t) : t.started = s.started :=
  ((stable_trivial s.config).step (fun _ h => h) ⟨rfl, rfl, trivial, trivial⟩ he).started

/-- A started machine steps: one stalled cycle or one instruction, and neither faults. -/
theorem step_next {s : State} (h : s.started = true) : ∃ t, step s = .next t := by
  rcases Nat.eq_zero_or_pos s.stall with hs | hs
  · obtain ⟨t, ht⟩ := exec_next s.begin.1 s.begin.2
    exact ⟨_, step_of_cpuStep ((cpuStep_unstalled h hs).trans ht)⟩
  · exact ⟨_, step_of_cpuStep (cpuStep_stalled h hs)⟩

/-- Settles O41: a started machine steps and stays started. -/
theorem stepNeverStops : Obligations.StepNeverStops := by
  unfold Obligations.StepNeverStops
  refine ⟨fun s h => ?_, fun s h => step_next h, fun s h => step_notReset h⟩
  obtain ⟨t, ht⟩ := step_next h
  exact ⟨t, ht, (step_started ht).trans h⟩

end Sys2Proof.Machine
end

section
/-! PROOFS. The step and what surrounds it: O37 (trap entry), O35 (a step runs what the bytes at `PC` decode to), O38 (the
interrupt latches) and O40 (the accounting of the emulation loop). -/

namespace Sys2Proof.Machine

/-- Settles O37: trap entry as its three writes and two reads. -/
theorem interruptEntry : Obligations.InterruptEntry := State.interrupt_eq

/-! ### The step fetches what the bytes at `PC` decode to (R74, R220) -/

/-- Outside the chipset window the fetch changes nothing, and answers the instruction that the bytes decode to. -/
theorem State.fetch_of_decode {s : State} {i : Instr} {rest : List Byte} (h0 : Quiet s.config s.pc)
    (h1 : Quiet s.config (s.pc + 1)) (h2 : Quiet s.config (s.pc + 2))
    (hd : decode [s.peek s.pc, s.peek (s.pc + 1), s.peek (s.pc + 2)] = .instr i rest) : s.fetch = (i, s) := by
  have hcount := operandCount_le (s.get s.pc).1
  unfold State.fetch
  unfold decode State.peek at hd
  dsimp only at hd ⊢
  rw [State.get_quiet h0, State.get_quiet h1, State.get_quiet h2]
  obtain hn | hn | hn : operandCount (s.get s.pc).1 = 0 ∨ operandCount (s.get s.pc).1 = 1 ∨
      operandCount (s.get s.pc).1 = 2 := by omega
  all_goals
    rw [hn] at hd ⊢
    simp only [Decoded.instr.injEq] at hd
    obtain ⟨rfl, -⟩ := hd
    rfl

/-- Settles O35: with nothing to burn and nothing to service, the step is the instruction fetched. -/
theorem stepRunsDecoded : Obligations.StepRunsDecoded := by
  unfold Obligations.StepRunsDecoded
  intro s i rest hstarted hstall hpending h0 h1 h2 hd _
  have hbegin : s.begin = (i, s) := by
    rw [State.begin, State.service_none hpending]
    exact State.fetch_of_decode h0 h1 h2 hd
  obtain ⟨t, ht⟩ := exec_next i s
  have hcpu : cpuStep s = .next t := by
    rw [cpuStep_unstalled hstarted hstall, hbegin]
    exact ht
  exact ⟨t, ht, step_of_cpuStep hcpu⟩

/-! ### The interrupt latches (R221, R222, R228) -/

/-- With I set, or an NMI latched, the request is dropped. -/
theorem State.triggerIrq_dropped {s : State} (h : s.flags.i = true ∨ s.pending = .nmi) : s.triggerIrq = s := by
  unfold State.triggerIrq
  refine if_neg fun ⟨hi, hp⟩ => ?_
  rcases h with h | h
  · rw [h] at hi
    cases hi
  · exact hp h

theorem State.triggerIrq_latched {s : State} (hi : s.flags.i = false) (hp : s.pending ≠ .nmi) :
    s.triggerIrq = { s with pending := .irq } :=
  if_pos ⟨hi, hp⟩

/-- Settles O38: the two cases of `trigger_irq()`; after `trigger_nmi()` it is dropped. -/
theorem interruptLatches : Obligations.InterruptLatches := by
  unfold Obligations.InterruptLatches
  refine fun s => ⟨rfl, fun h => State.triggerIrq_dropped (.inl h), fun h => State.triggerIrq_dropped (.inr h),
    State.triggerIrq_latched, rfl, ?_⟩
  rw [State.triggerIrq_dropped (s := s.triggerNmi) (.inr rfl)]
  rfl

/-! ### The emulation loop (R231, R250, R266) -/

/-- As many ticks as the budget fills, the remainder kept (log 9). -/
theorem State.elapse_eq_ticks {s : State} {n k : Nat} (hlo : k * s.config.tickCycles ≤ s.budget + n)
    (hhi : s.budget + n < (k + 1) * s.config.tickCycles) :
    s.elapse n = State.ticks k { s with budget := s.budget + n - k * s.config.tickCycles } := by
  have hdiv : (s.budget + n) / s.config.tickCycles = k := Nat.div_eq_of_lt_le hlo hhi
  unfold State.elapse
  dsimp only
  rw [Nat.mod_eq_sub, hdiv, Nat.mul_comm]

/-- With `TICK_CYCLES` = 0 no tick is made (log 9). -/
theorem State.elapse_no_ticks {s : State} {n : Nat} (h : s.config.tickCycles = 0) :
    s.elapse n = { s with budget := s.budget + n } := by
  unfold State.elapse
  dsimp only
  rw [h, Nat.div_zero, Nat.mod_zero]
  rfl

theorem State.tick_requested {s : State} (h : (s.dev.tick s.config).1 = true) :
    s.tick = { s with dev := (s.dev.tick s.config).2 }.triggerIrq := by
  unfold State.tick
  dsimp only
  rw [if_pos h]

theorem State.tick_not_requested {s : State} (h : (s.dev.tick s.config).1 = false) :
    s.tick = { s with dev := (s.dev.tick s.config).2 } := by
  unfold State.tick
  dsimp only
  rw [if_neg (by rw [h]; decide)]

/-- The accounting changes the pending tag, the devices and the budget, whose remainder is below `TICK_CYCLES`. -/
theorem State.elapse_budget (s : State) (n : Nat) :
    ∃ p d b, s.elapse n = { s with pending := p, dev := d, budget := b } ∧
      (0 < s.config.tickCycles → b < s.config.tickCycles) := by
  obtain ⟨p, d, h⟩ := State.ticks_state ((s.budget + n) / s.config.tickCycles)
    { s with budget := (s.budget + n) % s.config.tickCycles }
  exact ⟨p, d, _, h, Nat.mod_lt _⟩

/-- Settles O40: the number of ticks by division of the budget, one tick by its request. -/
theorem emulationLoop : Obligations.EmulationLoop := by
  unfold Obligations.EmulationLoop
  refine ⟨fun s n h => ?_, fun s n hlo hhi => ?_, fun s n k => State.elapse_eq_ticks, fun _ _ => ⟨rfl, rfl⟩,
    fun _ _ => State.elapse_no_ticks, fun _ => State.tick_requested, fun _ => State.tick_not_requested,
    State.elapse_budget⟩
  · simpa only [Nat.zero_mul, Nat.sub_zero, State.ticks] using State.elapse_eq_ticks (k := 0) (by omega) (by omega)
  · simpa only [Nat.one_mul, State.ticks] using State.elapse_eq_ticks (k := 1) (by omega) (by omega)

end Sys2Proof.Machine
end

section
/-! PROOFS. The tick: O50 (retrace, timers, flags, the request) and O51 (timer 1 from arming to its flag). -/

namespace Sys2Proof.Machine

/-! ### Retrace (R259) -/

/-- The retrace part of a tick changes the count, the retrace status and ports, of these only control registers. -/
theorem Chipset.tickRetrace_state (cfg : Config) (c : Chipset) :
    ∃ e, c.tickRetrace cfg =
      { c.withPorts e with
        vA := c.vA, vB := c.vB, tickCount := (c.tickCount + 1) % 20, retrace := (c.tickCount + 1) % 20 == 0 } := by
  refine ⟨c.tickRetrace cfg, ?_⟩
  unfold Chipset.tickRetrace
  dsimp only
  split
  · rename_i p _ _
    cases p <;> rfl
  · rfl

/-- A control-register write changes that register of that port only. -/
theorem Chipset.setCr_pia (c : Chipset) (p q : PiaId) (v : Byte) :
    (c.setCr p v).pia q = { c.pia q with cr := if q = p then v else (c.pia q).cr } := by
  rw [Chipset.setCr]
  by_cases h : q = p
  · subst h
    rw [Chipset.setPia_pia_self, if_pos rfl]
  · rw [Chipset.setPia_pia_other _ _ h, if_neg h]

/-- On a retrace tick the control register that the map names, if any, gets bit 7. -/
theorem Chipset.tickRetrace_pia (cfg : Config) (c : Chipset) (q : PiaId) :
    (c.tickRetrace cfg).pia q =
      { c.pia q with
        cr := if (c.tickCount + 1) % 20 = 0 ∧ cfg.chipset.retraceFlag = some q then (c.pia q).cr ||| 0x80
              else (c.pia q).cr } := by
  have hpia (n : Nat) (r : Bool) (p : PiaId) : ({ c with tickCount := n, retrace := r } : Chipset).pia p = c.pia p := by
    cases p <;> rfl
  unfold Chipset.tickRetrace
  dsimp only
  split
  · rename_i p hretrace hflag
    rw [Chipset.setCr_pia, hflag]
    simp only [hpia]
    by_cases hq : q = p
    · subst hq
      rw [if_pos rfl, if_pos ⟨by simpa using hretrace, rfl⟩]
    · rw [if_neg hq, if_neg (fun h => hq (Option.some.inj h.2).symm)]
  · rename_i hno
    rw [hpia, if_neg]
    rintro ⟨hcount, hflag⟩
    exact hno q (by simpa using hcount) hflag

/-! ### Timers and flags (R260, R261) -/

/-- Timer 1 is about to pass below zero (D23). -/
def Chipset.underflow1 (cfg : Config) (c : Chipset) : Bool := c.active1 && decide (c.counter1.toNat < cfg.timerDec)

/-- Timer 2 is about to pass below zero (D23). -/
def Chipset.underflow2 (cfg : Config) (c : Chipset) : Bool := c.active2 && decide (c.counter2.toNat < cfg.timerDec)

/-- The flag register with the flags of the timers about to pass below zero. -/
def Chipset.timerFlags (cfg : Config) (c : Chipset) : Byte :=
  let i := if c.underflow1 cfg then setBit c.ifr 6 true else c.ifr
  if c.underflow2 cfg then setBit i 5 true else i

theorem Chipset.tickTimer1_eq (cfg : Config) (c : Chipset) :
    c.tickTimer1 cfg =
      (c.underflow1 cfg && c.timerEnabled timer1Flag,
       { c with
         ifr := if c.underflow1 cfg then setBit c.ifr 6 true else c.ifr
         active1 := c.active1 && (!c.underflow1 cfg || c.acr.getLsbD 6)
         counter1 :=
           if c.underflow1 cfg then (if c.acr.getLsbD 6 then c.latch1 else c.counter1)
           else if c.active1 then c.counter1 - BitVec.ofNat 16 cfg.timerDec else c.counter1 }) := by
  unfold Chipset.tickTimer1 Chipset.underflow1
  dsimp only
  cases hactive : c.active1
  · simp only [Bool.false_and, Bool.false_eq_true, if_false]
    rw [← hactive]
  · by_cases hunder : c.counter1.toNat < cfg.timerDec
    · cases hacr : c.acr.getLsbD 6 <;> simp [hunder, setBit, timer1Flag]
    · simp [hunder]

theorem Chipset.tickTimer2_eq (cfg : Config) (c : Chipset) :
    c.tickTimer2 cfg =
      (c.underflow2 cfg && c.timerEnabled timer2Flag,
       { c with
         ifr := if c.underflow2 cfg then setBit c.ifr 5 true else c.ifr
         active2 := c.active2 && !c.underflow2 cfg
         counter2 :=
           if c.active2 && !c.underflow2 cfg then c.counter2 - BitVec.ofNat 16 cfg.timerDec else c.counter2 }) := by
  unfold Chipset.tickTimer2 Chipset.underflow2
  cases hactive : c.active2
  · simp only [Bool.false_and, Bool.false_eq_true, if_false]
    rw [← hactive]
  · by_cases hunder : c.counter2.toNat < cfg.timerDec <;> simp [hunder, setBit, timer2Flag]

/-- What a tick leaves: the retrace part, and each timer and the flags by what the two timers are about to do. -/
theorem Chipset.tick_snd (cfg : Config) (c : Chipset) :
    (c.tick cfg).2 =
      { c.tickRetrace cfg with
        active1 := c.active1 && (!c.underflow1 cfg || c.acr.getLsbD 6)
        counter1 :=
          if c.underflow1 cfg then (if c.acr.getLsbD 6 then c.latch1 else c.counter1)
          else if c.active1 then c.counter1 - BitVec.ofNat 16 cfg.timerDec else c.counter1
        active2 := c.active2 && !c.underflow2 cfg
        counter2 := if c.active2 && !c.underflow2 cfg then c.counter2 - BitVec.ofNat 16 cfg.timerDec else c.counter2
        ifr := setBit (c.timerFlags cfg) 7 ((c.timerFlags cfg &&& c.ier &&& 0x7F) != 0) } := by
  obtain ⟨e, he⟩ := c.tickRetrace_state cfg
  unfold Chipset.tick
  dsimp only
  rw [Chipset.tickTimer2_eq, Chipset.tickTimer1_eq, he]
  rfl

/-- The request of a tick, by the timers before it and the Chipset after it. -/
theorem Chipset.tick_fst (cfg : Config) (c : Chipset) :
    (c.tick cfg).1 =
      ((c.tick cfg).2.retrace || (c.underflow1 cfg && c.timerEnabled timer1Flag) ||
        (c.underflow2 cfg && c.timerEnabled timer2Flag) || (c.tick cfg).2.flagRequest ||
        (c.tick cfg).2.handshakeRequests) := by
  obtain ⟨e, he⟩ := c.tickRetrace_state cfg
  unfold Chipset.tick
  dsimp only
  rw [Chipset.tickTimer2_eq, Chipset.tickTimer1_eq, he]
  rfl

theorem Chipset.tick_retrace (cfg : Config) (c : Chipset) :
    (c.tick cfg).2.retrace = decide ((c.tickCount + 1) % 20 = 0) := by
  obtain ⟨e, he⟩ := c.tickRetrace_state cfg
  rw [Chipset.tick_snd, he]
  rfl

theorem Chipset.tick_ier (cfg : Config) (c : Chipset) : (c.tick cfg).2.ier = c.ier := by
  obtain ⟨e, he⟩ := c.tickRetrace_state cfg
  rw [Chipset.tick_snd, he]
  rfl

/-- A flag and the master bit in the enable register, bit by bit. -/
theorem Chipset.timerEnabled_timer1 (c : Chipset) :
    c.timerEnabled timer1Flag = (c.ier.getLsbD 7 && c.ier.getLsbD 6) := by
  unfold Chipset.timerEnabled timer1Flag
  generalize c.ier = e
  revert e
  decide

theorem Chipset.timerEnabled_timer2 (c : Chipset) :
    c.timerEnabled timer2Flag = (c.ier.getLsbD 7 && c.ier.getLsbD 5) := by
  unfold Chipset.timerEnabled timer2Flag
  generalize c.ier = e
  revert e
  decide

theorem bne_zero_eq_decide (b : Byte) : (b != 0) = decide (b ≠ 0) := by
  rw [Bool.eq_iff_iff, bne_iff_ne, decide_eq_true_eq]

/-- The two timers' flags are raised, the other bits stay. -/
theorem Chipset.timerFlags_getLsbD (cfg : Config) (c : Chipset) {k : Nat} (hk : k < 8) :
    (c.timerFlags cfg).getLsbD k =
      (c.ifr.getLsbD k || (decide (k = 6) && c.underflow1 cfg) || (decide (k = 5) && c.underflow2 cfg)) := by
  have raise (b : Byte) (j : Nat) (u : Bool) :
      (if u then setBit b j true else b).getLsbD k = (b.getLsbD k || (decide (k = j) && u)) := by
    cases u
    · simp
    · rw [if_pos rfl, setBit_getLsbD _ _ _ _ hk]
      split <;> simp [*]
  unfold Chipset.timerFlags
  rw [raise, raise]

/-- Bit 7 of the flag register is no flag of its own (R261). -/
theorem setBit_seven_low (b : Byte) (v : Bool) : setBit b 7 v &&& 0x7F = b &&& 0x7F := by
  revert b v
  decide

theorem Chipset.tick_ifr (cfg : Config) (c : Chipset) :
    (c.tick cfg).2.ifr = setBit (c.timerFlags cfg) 7 ((c.timerFlags cfg &&& c.ier &&& 0x7F) != 0) := by
  rw [Chipset.tick_snd]

/-- The enabled flags after a tick are those that the timers left. -/
theorem Chipset.tick_enabledFlags (cfg : Config) (c : Chipset) :
    (c.tick cfg).2.ifr &&& c.ier &&& 0x7F = c.timerFlags cfg &&& c.ier &&& 0x7F := by
  rw [Chipset.tick_ifr, BitVec.and_assoc, BitVec.and_comm c.ier, ← BitVec.and_assoc, setBit_seven_low, BitVec.and_assoc,
    BitVec.and_comm _ c.ier, ← BitVec.and_assoc]

theorem Chipset.tick_ifr_getLsbD (cfg : Config) (c : Chipset) {k : Nat} (hk : k < 7) :
    (c.tick cfg).2.ifr.getLsbD k = (c.timerFlags cfg).getLsbD k := by
  rw [Chipset.tick_ifr, setBit_getLsbD _ _ _ _ (by omega), if_neg (by omega)]

theorem Chipset.tick_ifr_seven (cfg : Config) (c : Chipset) :
    (c.tick cfg).2.ifr.getLsbD 7 = decide ((c.tick cfg).2.ifr &&& c.ier &&& 0x7F ≠ 0) := by
  rw [Chipset.tick_enabledFlags, Chipset.tick_ifr, setBit_getLsbD _ _ _ _ (by decide), if_pos rfl]
  exact bne_zero_eq_decide _

/-- The request as the OR of its terms (D33). -/
theorem Chipset.tick_request (cfg : Config) (c : Chipset) :
    (c.tick cfg).1 =
      ((c.tick cfg).2.retrace || (c.underflow1 cfg && (c.ier.getLsbD 7 && c.ier.getLsbD 6)) ||
        (c.underflow2 cfg && (c.ier.getLsbD 7 && c.ier.getLsbD 5)) ||
        decide ((c.tick cfg).2.ifr &&& c.ier &&& 0x7F ≠ 0) || (c.tick cfg).2.handshakeRequests) := by
  have hflag : (c.tick cfg).2.flagRequest = decide ((c.tick cfg).2.ifr &&& c.ier &&& 0x7F ≠ 0) := by
    rw [Chipset.flagRequest, Chipset.tick_ier]
    exact bne_zero_eq_decide _
  rw [Chipset.tick_fst, hflag, Chipset.timerEnabled_timer1, Chipset.timerEnabled_timer2]

/-- Ports but for control registers, and every register that no rule of the tick names, stay. -/
theorem Chipset.tick_frame (cfg : Config) (c : Chipset) :
    let c' := (c.tick cfg).2
    c' =
      { c.withPorts c' with
        vA := c.vA, vB := c.vB, counter1 := c'.counter1, active1 := c'.active1, counter2 := c'.counter2
        active2 := c'.active2, ifr := c'.ifr, tickCount := c'.tickCount, retrace := c'.retrace } := by
  intro c'
  obtain ⟨e, he⟩ := c.tickRetrace_state cfg
  have hc : c' = _ := c.tick_snd cfg
  rw [hc, he]
  rfl

theorem Chipset.tick_pia (cfg : Config) (c : Chipset) (q : PiaId) :
    (c.tick cfg).2.pia q = (c.tickRetrace cfg).pia q := by
  rw [Chipset.tick_snd]
  cases q <;> rfl

/-! ### Successive ticks (R259) -/

theorem Chipset.ticks_succ_tickCount (cfg : Config) (c : Chipset) (n : Nat) :
    (Chipset.ticks cfg (n + 1) c).2.tickCount = (c.tickCount + n + 1) % 20 := by
  induction n with
  | zero => exact c.tick_tickCount cfg
  | succ n ih =>
    rw [Chipset.ticks, Chipset.tick_tickCount, ih]
    omega

/-- The retrace status goes with the count, also where the count starts at 20 or above. -/
theorem Chipset.ticks_succ_retrace (cfg : Config) (c : Chipset) (n : Nat) :
    (Chipset.ticks cfg (n + 1) c).2.retrace = decide ((c.tickCount + n + 1) % 20 = 0) := by
  rw [← Chipset.ticks_succ_tickCount cfg, Chipset.ticks, Chipset.tick_retrace, Chipset.tick_tickCount]

theorem Chipset.ticks_succ_request (cfg : Config) (c : Chipset) {n : Nat} (h : (c.tickCount + n + 1) % 20 = 0) :
    (Chipset.ticks cfg (n + 1) c).1 = true := by
  have hretrace : (Chipset.ticks cfg (n + 1) c).2.retrace = true := by
    rw [Chipset.ticks_succ_retrace, decide_eq_true h]
  rw [Chipset.ticks] at hretrace ⊢
  rw [Chipset.tick_request, hretrace]
  simp only [Bool.true_or]

/-- The handshake flags of all four control registers (term (d) of R261). -/
theorem Chipset.handshakeRequests_eq (c : Chipset) :
    c.handshakeRequests =
      [c.p1A.cr, c.p1B.cr, c.p2A.cr, c.p2B.cr].any
        (fun cr => (cr.getLsbD 7 && cr.getLsbD 0) || (cr.getLsbD 6 && cr.getLsbD 3)) := by
  simp [Chipset.handshakeRequests, handshakeRequest, Bool.or_assoc]

/-- Settles O50: the tick's fields by `tick_snd`, its request by `tick_request`, the devices' tick by the refresh. -/
theorem tickRules : Obligations.TickRules := by
  unfold Obligations.TickRules
  refine ⟨fun cfg c n => ⟨c.ticks_succ_tickCount cfg n, c.ticks_succ_retrace cfg n, c.ticks_succ_request cfg⟩,
    fun cfg c => ⟨?_, ?_, fun k hk => ?_, c.tick_ifr_seven cfg, ?_, ?_, ?_, ?_, ?_⟩,
    fun cfg c => ⟨c.tick_tickCount cfg, c.tick_retrace cfg, fun q => ?_, c.tick_frame cfg⟩,
    fun cfg d => ⟨rfl, Devices.refreshInputs_withoutInputs cfg _, rfl, Devices.refreshInputs_shows cfg _⟩⟩
  · rw [Chipset.tick_ifr_getLsbD cfg c (by decide), Chipset.timerFlags_getLsbD cfg c (by decide)]
    simp [Chipset.underflow1]
  · rw [Chipset.tick_ifr_getLsbD cfg c (by decide), Chipset.timerFlags_getLsbD cfg c (by decide)]
    simp [Chipset.underflow2]
  · rw [Chipset.tick_ifr_getLsbD cfg c (by omega), Chipset.timerFlags_getLsbD cfg c (by omega),
      decide_eq_false (by omega), decide_eq_false (by omega)]
    simp
  · rw [Chipset.tick_snd]
    rfl
  · rw [Chipset.tick_snd]
    rfl
  · rw [Chipset.tick_snd]
    rfl
  · rw [Chipset.tick_snd]
    rfl
  · rw [Chipset.tick_request, Chipset.handshakeRequests_eq]
    rfl
  · rw [Chipset.tick_pia, Chipset.tickRetrace_pia, Chipset.tick_retrace]
    simp only [decide_eq_true_eq]

/-! ### Timer 1 from arming to its flag (R260, R264) -/

/-- `c` is `k` ticks after `c0`, timer 1 armed and counting down without having passed below zero. -/
structure Chipset.Counting (cfg : Config) (c0 : Chipset) (k : Nat) (c : Chipset) : Prop where
  active : c.active1 = true
  counter : c.counter1.toNat + k * cfg.timerDec = c0.counter1.toNat
  flag : c.ifr.getLsbD 6 = false
  enable : c.ier = c0.ier

/-- The high-byte write arms timer 1 with the latch and clears its flag (R264). -/
theorem Chipset.counting_writeT1High (cfg : Config) (c : Chipset) (v : Byte) :
    Chipset.Counting cfg (c.writeT1High v) 0 (c.writeT1High v) where
  active := rfl
  counter := by rw [Nat.zero_mul, Nat.add_zero]
  flag := by
    show (c.ifr &&& ~~~timer1Flag).getLsbD 6 = false
    rw [BitVec.getLsbD_and, show (~~~timer1Flag).getLsbD 6 = false from rfl, Bool.and_false]
  enable := rfl

section
variable {cfg : Config} {c0 c : Chipset} {k : Nat}

/-- A tick with room left for another count goes on counting. -/
theorem Chipset.Counting.tick (h : Chipset.Counting cfg c0 k c) (hroom : (k + 1) * cfg.timerDec ≤ c0.counter1.toNat) :
    Chipset.Counting cfg c0 (k + 1) (c.tick cfg).2 := by
  obtain ⟨hactive, hcounter, hflag, henable⟩ := h
  rw [Nat.add_one_mul] at hroom
  have hle : cfg.timerDec ≤ c.counter1.toNat := by omega
  have hunder : c.underflow1 cfg = false := by
    rw [Chipset.underflow1, decide_eq_false (by omega), Bool.and_false]
  refine ⟨?_, ?_, ?_, (c.tick_ier cfg).trans henable⟩
  · rw [Chipset.tick_snd]
    simp [hactive, hunder]
  · have hlt := c.counter1.isLt
    have hsub : (c.tick cfg).2.counter1 = c.counter1 - BitVec.ofNat 16 cfg.timerDec := by
      rw [Chipset.tick_snd]
      simp [hactive, hunder]
    rw [hsub, BitVec.toNat_sub_of_le (by rw [BitVec.le_def, BitVec.toNat_ofNat]; omega), BitVec.toNat_ofNat,
      Nat.mod_eq_of_lt (by omega), Nat.add_one_mul]
    omega
  · rw [Chipset.tick_ifr_getLsbD cfg c (by decide), Chipset.timerFlags_getLsbD cfg c (by decide), hflag, hunder]
    rfl

/-- Counting goes on for as many ticks as the loaded value holds. -/
theorem Chipset.counting_ticks (h : Chipset.Counting cfg c0 0 c0) (hroom : k * cfg.timerDec ≤ c0.counter1.toNat) :
    Chipset.Counting cfg c0 k (Chipset.ticks cfg k c0).2 := by
  induction k with
  | zero => exact h
  | succ k ih =>
    have hle : k * cfg.timerDec ≤ (k + 1) * cfg.timerDec := Nat.mul_le_mul_right _ (Nat.le_succ k)
    exact (ih (hle.trans hroom)).tick hroom

/-- With less than one count left the timer is about to pass below zero. -/
theorem Chipset.Counting.underflow (h : Chipset.Counting cfg c0 k c)
    (hlast : c0.counter1.toNat < (k + 1) * cfg.timerDec) : c.underflow1 cfg = true := by
  have hcounter := h.counter
  rw [Nat.add_one_mul] at hlast
  rw [Chipset.underflow1, h.active, decide_eq_true (by omega), Bool.and_true]

end

/-- Settles O51: the timer counts for as many ticks as the value holds, and the next one passes below zero. -/
theorem timerExpires : Obligations.TimerExpires := by
  unfold Obligations.TimerExpires
  intro cfg c v hdec c0 n
  have harmed : Chipset.Counting cfg c0 0 c0 := c.counting_writeT1High cfg v
  have hloaded : c0.counter1 = c0.latch1 := rfl
  have hroom {k : Nat} (hk : k ≤ n) : k * cfg.timerDec ≤ c0.counter1.toNat :=
    (Nat.mul_le_mul_right _ hk).trans (Nat.div_mul_le_self _ _)
  have hunder : (Chipset.ticks cfg n c0).2.underflow1 cfg = true := by
    refine (Chipset.counting_ticks harmed (hroom le_rfl)).underflow ?_
    rw [hloaded, Nat.mul_comm]
    exact Nat.lt_mul_div_succ _ hdec
  refine ⟨fun k hk => (Chipset.counting_ticks harmed (hroom hk)).flag, ?_, fun h7 h6 => ?_⟩
  · rw [Chipset.ticks, Chipset.tick_ifr_getLsbD _ _ (by decide), Chipset.timerFlags_getLsbD _ _ (by decide), hunder]
    simp
  · have hier : (Chipset.ticks cfg n c0).2.ier = c.ier := (Chipset.counting_ticks harmed (hroom le_rfl)).enable
    rw [Chipset.ticks, Chipset.tick_request, hunder, hier, h7, h6]
    simp

end Sys2Proof.Machine
end

section
/-! PROOFS. The register window: O48 (parallel ports and control registers) and O49 (the versatile adapter), by what a port
write and a control write do before the Chipset settles. -/

namespace Sys2Proof.Machine

/-! ### Ports (R252) -/

theorem Port.lineValue_getLsbD (p : Port) {k : Nat} (hk : k < 8) :
    p.lineValue.getLsbD k = if p.ddr.getLsbD k then p.out.getLsbD k else p.inp.getLsbD k := by
  unfold Port.lineValue
  rw [BitVec.getLsbD_or, BitVec.getLsbD_and, BitVec.getLsbD_and, BitVec.getLsbD_not, decide_eq_true hk]
  cases p.ddr.getLsbD k <;> simp

/-- A port depends on the ports of the Chipset only. -/
theorem Chipset.port_congr {c e : Chipset} (h : c.withPorts e = c) (id : PortId) : c.port id = e.port id := by
  rw [← h]
  cases id with
  | pia p => cases p <;> rfl
  | viaA => rfl
  | viaB => rfl

/-! ### Port reads (R254, R255) -/

theorem Devices.readPia_enabled {cfg : Config} {p : PiaId} {d : Devices} (h : (d.chip.pia p).cr.getLsbD 2 = true) :
    d.readPia cfg p =
      ((d.chip.pia p).port.lineValue,
       d.setChip (d.chip.setPia p { d.chip.pia p with cr := (d.chip.pia p).cr &&& 0x3F })) := by
  unfold Devices.readPia
  dsimp only
  rw [if_pos h]
  rfl

theorem Devices.readPia_disabled {cfg : Config} {p : PiaId} {d : Devices} (h : (d.chip.pia p).cr.getLsbD 2 = false) :
    d.readPia cfg p = (if cfg.chipset.rowPort = .pia p then d.keys.row else (d.chip.pia p).port.ddr, d) := by
  unfold Devices.readPia
  dsimp only
  rw [if_neg (by rw [h]; decide)]
  split <;> rfl

/-! ### Port writes (R256) -/

/-- What a port write does before the Chipset settles: the port is replaced, the row select forwarded. -/
theorem Devices.writePort_eq (cfg : Config) (id : PortId) (put : Port → Port) (d : Devices) :
    ∃ u : Devices, d.writePort cfg id put = u.settle cfg d.bus ∧
      u.chip = d.chip.setPort id (put (d.chip.port id)) ∧
      u.keys = if cfg.chipset.rowPort = id then
        d.keys.write ((put (d.chip.port id)).lineValue &&& cfg.chipset.rowMask) else d.keys := by
  obtain ⟨hchip, hkeys⟩ := Devices.forwardPort_frame cfg id (d.chip.port id).lineValue (put (d.chip.port id)).lineValue
    (d.setChip (d.chip.setPort id (put (d.chip.port id))))
  exact ⟨_, rfl, hchip, hkeys⟩

/-- The output latch and direction register of the port are those stored, every other port keeps its own. -/
theorem Devices.writePort_port (cfg : Config) (id : PortId) (put : Port → Port) (d : Devices) (q : PortId) :
    ((d.writePort cfg id put).chip.port q).out = (if q = id then put (d.chip.port q) else d.chip.port q).out ∧
    ((d.writePort cfg id put).chip.port q).ddr = (if q = id then put (d.chip.port q) else d.chip.port q).ddr := by
  obtain ⟨u, hu, hchip, -⟩ := d.writePort_eq cfg id put
  have hport : u.chip.port q = if q = id then put (d.chip.port q) else d.chip.port q := by
    rw [hchip]
    split
    · rename_i h
      rw [h, Chipset.setPort_port_self]
    · rename_i h
      exact Chipset.setPort_port_other _ _ h
  rw [hu, ← hport]
  exact (u.settle_port cfg d.bus q).1

theorem Devices.writePort_self (cfg : Config) (id : PortId) (put : Port → Port) (d : Devices) :
    ((d.writePort cfg id put).chip.port id).out = (put (d.chip.port id)).out ∧
    ((d.writePort cfg id put).chip.port id).ddr = (put (d.chip.port id)).ddr := by
  have h := d.writePort_port cfg id put id
  rw [if_pos rfl] at h
  exact h

/-- An input bit that nothing is wired to stays, if the value stored keeps it. -/
theorem Devices.writePort_input (cfg : Config) (id : PortId) {put : Port → Port} (d : Devices)
    (hput : ∀ p, (put p).inp = p.inp) {q : PortId} {k : Nat} (hk : k < 8) (hdata : q ≠ cfg.chipset.dataInPort)
    (hcolumn : q ≠ cfg.chipset.columnPort) (hwire : ∀ w ∈ cfg.chipset.inWires, w.port = q → w.bit ≠ k) :
    ((d.writePort cfg id put).chip.port q).inp.getLsbD k = (d.chip.port q).inp.getLsbD k := by
  obtain ⟨u, hu, hchip, -⟩ := d.writePort_eq cfg id put
  rw [hu, (u.settle_port cfg d.bus q).2 k hk hdata hcolumn hwire, hchip]
  by_cases h : q = id
  · rw [h, Chipset.setPort_port_self, hput]
  · rw [Chipset.setPort_port_other _ _ h]

theorem Devices.writePort_latched (cfg : Config) (id : PortId) (put : Port → Port) (d : Devices) (q : PiaId) :
    (d.writePort cfg id put).EdgesLatched cfg d.bus q (d.chip.pia q).cr := by
  obtain ⟨u, hu, hchip, -⟩ := d.writePort_eq cfg id put
  have hcr : (u.chip.pia q).cr = (d.chip.pia q).cr := by rw [hchip, Chipset.setPort_cr]
  rw [hu, ← hcr]
  exact u.settle_latched cfg d.bus q

theorem Devices.writePort_row (cfg : Config) (id : PortId) (put : Port → Port) (d : Devices) :
    (d.writePort cfg id put).keys.row =
      if cfg.chipset.rowPort = id then (put (d.chip.port id)).lineValue &&& cfg.chipset.rowMask else d.keys.row := by
  obtain ⟨u, hu, -, hkeys⟩ := d.writePort_eq cfg id put
  rw [hu]
  show u.keys.row = _
  rw [hkeys]
  split <;> rfl

theorem Devices.writePia_output {cfg : Config} {p : PiaId} {d : Devices} (v : Byte)
    (h : (d.chip.pia p).cr.getLsbD 2 = true) :
    d.writePia cfg p v = d.writePort cfg (.pia p) (fun port => { port with out := v }) :=
  if_pos h

theorem Devices.writePia_direction {cfg : Config} {p : PiaId} {d : Devices} (v : Byte)
    (h : (d.chip.pia p).cr.getLsbD 2 = false) :
    d.writePia cfg p v = d.writePort cfg (.pia p) (fun port => { port with ddr := v }) :=
  if_neg (by rw [h]; decide)

/-! ### Control writes (R253, R256) -/

/-- What the Processor's write of `v` leaves of a control register: bits 5 to 0 are stored, bits 7 and 6 kept. -/
def controlByte (old v : Byte) : Byte := (old &&& 0xC0) ||| (v &&& 0x3F)

theorem controlByte_low (old v : Byte) : controlByte old v &&& 0x3F = v &&& 0x3F := by
  rw [controlByte, BitVec.and_or_distrib_right, BitVec.and_assoc, BitVec.and_assoc,
    show (0xC0 &&& 0x3F : Byte) = 0 from rfl, show (0x3F &&& 0x3F : Byte) = 0x3F from rfl]
  simp

theorem controlByte_getLsbD (old v : Byte) {k : Nat} (hk : k < 8) :
    (controlByte old v).getLsbD k = if k < 6 then v.getLsbD k else old.getLsbD k := by
  rw [controlByte, BitVec.getLsbD_or, BitVec.getLsbD_and, BitVec.getLsbD_and]
  obtain rfl | rfl | rfl | rfl | rfl | rfl | rfl | rfl :
      k = 0 ∨ k = 1 ∨ k = 2 ∨ k = 3 ∨ k = 4 ∨ k = 5 ∨ k = 6 ∨ k = 7 := by omega
  all_goals simp

/-- What a control write does before the Chipset settles, port by port. -/
theorem Devices.writeControl_pia (cfg : Config) (p : PiaId) (v : Byte) (d : Devices) :
    ∃ u : Devices, d.writeControl cfg p v = u.settle cfg d.bus ∧
      (∀ q, (u.chip.pia q).cr = if q = p then controlByte (d.chip.pia p).cr v else (d.chip.pia q).cr) ∧
      ∀ id, u.chip.port id = d.chip.port id := by
  obtain ⟨u, hu, -, level, hchip⟩ := d.writeControl_eq cfg p v
  refine ⟨u, hu, fun q => ?_, fun id => ?_⟩
  · have hpia : u.chip.pia q = (d.chip.setCr p (controlByte (d.chip.pia p).cr v)).pia q := by
      rw [hchip]
      cases q <;> rfl
    rw [hpia, Chipset.setCr_pia]
  · rw [← Chipset.setCr_port d.chip p (controlByte (d.chip.pia p).cr v) id]
    exact Chipset.port_congr (by rw [hchip]; rfl) id

theorem Devices.writeControl_port (cfg : Config) (p : PiaId) (v : Byte) (d : Devices) (q : PortId) :
    ((d.writeControl cfg p v).chip.port q).out = (d.chip.port q).out ∧
    ((d.writeControl cfg p v).chip.port q).ddr = (d.chip.port q).ddr := by
  obtain ⟨u, hu, -, hport⟩ := d.writeControl_pia cfg p v
  rw [hu, ← hport]
  exact (u.settle_port cfg d.bus q).1

theorem Devices.writeControl_input (cfg : Config) (p : PiaId) (v : Byte) (d : Devices) {q : PortId} {k : Nat}
    (hk : k < 8) (hdata : q ≠ cfg.chipset.dataInPort) (hcolumn : q ≠ cfg.chipset.columnPort)
    (hwire : ∀ w ∈ cfg.chipset.inWires, w.port = q → w.bit ≠ k) :
    ((d.writeControl cfg p v).chip.port q).inp.getLsbD k = (d.chip.port q).inp.getLsbD k := by
  obtain ⟨u, hu, -, hport⟩ := d.writeControl_pia cfg p v
  rw [hu, ← hport]
  exact (u.settle_port cfg d.bus q).2 k hk hdata hcolumn hwire

theorem Devices.writeControl_latched (cfg : Config) (p : PiaId) (v : Byte) (d : Devices) (q : PiaId) :
    (d.writeControl cfg p v).EdgesLatched cfg d.bus q
      (if q = p then controlByte (d.chip.pia p).cr v else (d.chip.pia q).cr) := by
  obtain ⟨u, hu, hcr, -⟩ := d.writeControl_pia cfg p v
  rw [hu, ← hcr]
  exact u.settle_latched cfg d.bus q

/-- The written control register: the low bits, the kept flags, and where no watched level changed all of it. -/
theorem Devices.writeControl_cr (cfg : Config) (p : PiaId) (v : Byte) (d : Devices) :
    ((d.writeControl cfg p v).chip.pia p).cr &&& 0x3F = v &&& 0x3F ∧
    (∀ k, k = 6 ∨ k = 7 → (d.chip.pia p).cr.getLsbD k = true →
      ((d.writeControl cfg p v).chip.pia p).cr.getLsbD k = true) ∧
    ((∀ w ∈ cfg.chipset.handshakeIn, w.pia = p → (d.writeControl cfg p v).bus.level w.line = d.bus.level w.line) →
      ((d.writeControl cfg p v).chip.pia p).cr = controlByte (d.chip.pia p).cr v) := by
  obtain ⟨u, hu, hcr, -⟩ := d.writeControl_pia cfg p v
  have hself : (u.chip.pia p).cr = controlByte (d.chip.pia p).cr v := by rw [hcr, if_pos rfl]
  obtain ⟨hset, hkeep⟩ := u.settle_cr cfg d.bus p
  rw [hu]
  refine ⟨?_, fun k hk h => hset k ?_, fun h => ?_⟩
  · rw [(u.settle_frame cfg d.bus p).2.2.1, hself, controlByte_low]
  · rw [hself, controlByte_getLsbD _ _ (by omega), if_neg (by omega), h]
  · rw [hkeep fun w hw hp => (h w hw hp).symm, hself]

/-! ### The window (R251) -/

/-- A window write leaves an input bit alone that nothing is wired to. -/
theorem Devices.write_input (cfg : Config) (offset : Nat) (v : Byte) (d : Devices) {q : PortId} {k : Nat}
    (hk : k < 8) (hdata : q ≠ cfg.chipset.dataInPort) (hcolumn : q ≠ cfg.chipset.columnPort)
    (hwire : ∀ w ∈ cfg.chipset.inWires, w.port = q → w.bit ≠ k) :
    ((d.write cfg offset v).chip.port q).inp.getLsbD k = (d.chip.port q).inp.getLsbD k := by
  unfold Devices.write
  cases registerAt cfg.chipset offset with
  | none => rfl
  | some reg =>
    cases reg with
    | piaPort p =>
      dsimp only
      unfold Devices.writePia
      split <;> refine d.writePort_input cfg _ ?_ hk hdata hcolumn hwire
      all_goals exact fun _ => rfl
    | piaControl p => exact d.writeControl_input cfg p v hk hdata hcolumn hwire
    | viaPortA | viaPortB | viaDdrA | viaDdrB =>
      refine d.writePort_input cfg _ ?_ hk hdata hcolumn hwire
      exact fun _ => rfl
    | _ => exact congrArg (fun p : Port => p.inp.getLsbD k) (Chipset.port_congr rfl q)

/-- Settles O48: reads by handshake enable, port and control writes by what they leave before and after settling. -/
theorem portAccess : Obligations.PortAccess := by
  unfold Obligations.PortAccess
  refine ⟨fun p k => p.lineValue_getLsbD, fun cfg p d h => ?_, fun cfg p d h => ?_, fun cfg p d v h => ?_,
    fun cfg p d v h => ?_, fun cfg p d v => d.writeControl_cr cfg p v, fun cfg offset d v => ⟨fun h => ?_, fun p h => ?_,
    fun p h => ?_, fun id k => d.write_input cfg offset v⟩, fun cfg id put d q => d.writePort_latched cfg id put q,
    fun cfg p v d q => d.writeControl_latched cfg p v q, fun cfg d => ⟨fun id put => ?_, fun p v => ?_, ?_, fun code => ?_⟩,
    fun cfg id put d => ?_, fun cfg p v d => ⟨d.writeControl_port cfg p v, d.writeControl_withPorts cfg p v _⟩⟩
  · rw [Devices.readPia_enabled h]
    exact ⟨rfl, rfl⟩
  · rw [Devices.readPia_disabled h]
    exact ⟨rfl, rfl⟩
  · rw [Devices.writePia_output v h]
    obtain ⟨hout, hddr⟩ := d.writePort_self cfg (.pia p) (fun port => { port with out := v })
    exact ⟨hout, hddr, d.writePort_row cfg _ _⟩
  · rw [Devices.writePia_direction v h]
    obtain ⟨hout, hddr⟩ := d.writePort_self cfg (.pia p) (fun port => { port with ddr := v })
    exact ⟨hddr, hout, d.writePort_row cfg _ _⟩
  · rw [Devices.read, Devices.write, h]
    exact ⟨rfl, rfl⟩
  · rw [Devices.read, Devices.write, h]
    exact ⟨rfl, rfl⟩
  · rw [Devices.read, Devices.write, h]
    exact ⟨rfl, rfl⟩
  · obtain ⟨u, hu, -⟩ := d.writePort_eq cfg id put
    rw [hu]
    exact u.settle_shows cfg d.bus
  · obtain ⟨u, hu, -⟩ := d.writeControl_eq cfg p v
    rw [hu]
    exact u.settle_shows cfg d.bus
  · exact Devices.refreshInputs_shows cfg _
  · exact ⟨Devices.refreshInputs_shows cfg _, Devices.refreshInputs_shows cfg _⟩
  · obtain ⟨hout, hddr⟩ := d.writePort_self cfg id put
    refine ⟨hout, hddr, fun q hq => ?_, d.writePort_withPorts cfg id put _⟩
    have hother := d.writePort_port cfg id put q
    rw [if_neg hq] at hother
    exact hother

/-! ### The versatile adapter (R262 to R265) -/

/-- A write of 1 clears the flag, bit by bit; bit 7 is no flag (R263). -/
theorem Chipset.writeFlag_getLsbD (c : Chipset) (v : Byte) {k : Nat} (hk : k < 7) :
    (c.writeFlag v).ifr.getLsbD k = (c.ifr.getLsbD k && !v.getLsbD k) := by
  have hmask : (0x7F : Byte).getLsbD k = true := by
    revert hk
    revert k
    decide
  show (c.ifr &&& ~~~(v &&& 0x7F)).getLsbD k = _
  rw [BitVec.getLsbD_and, BitVec.getLsbD_not, BitVec.getLsbD_and, hmask, decide_eq_true (show k < 8 by omega),
    Bool.true_and, Bool.and_true]

/-- No write of the enable register clears its bit 7 (R262, log 24). -/
theorem Chipset.writeEnable_seven {c : Chipset} (v : Byte) (h : c.ier.getLsbD 7 = true) :
    (c.writeEnable v).ier.getLsbD 7 = true := by
  show (if v.getLsbD 7 then c.ier ||| v else c.ier &&& ~~~v).getLsbD 7 = true
  split
  · rw [BitVec.getLsbD_or, h, Bool.true_or]
  · rename_i hv
    rw [BitVec.getLsbD_and, BitVec.getLsbD_not, h, Bool.eq_false_iff.2 hv]
    rfl

/-- Settles O49: register by register, each as its own arm of the window's read and write. -/
theorem versatileRegisters : Obligations.VersatileRegisters := by
  unfold Obligations.VersatileRegisters
  intro cfg offset d v
  refine ⟨fun h => ?enable, fun h => ?flag, fun h => ?t1Low, fun h => ?t1High, fun h => ?t1LatchLow, fun h => ?t1LatchHigh,
    fun h => ?t2Low, fun h => ?t2High, fun h => ?portA, fun h => ?portB, fun h => ?ddrA, fun h => ?ddrB, fun h => ?shift,
    fun h => ?aux, fun h => ?periph⟩
  all_goals
    rw [Devices.read, Devices.write, h]
    dsimp only
  case enable => exact ⟨rfl, Chipset.writeEnable_seven v, rfl⟩
  case flag => exact ⟨fun k => d.chip.writeFlag_getLsbD v, rfl, rfl⟩
  case t1Low | t1High | t1LatchLow | t1LatchHigh | t2Low | t2High | shift | aux | periph =>
    exact ⟨rfl, rfl⟩
  case portA =>
    obtain ⟨hout, hddr⟩ := d.writePort_self cfg .viaA (fun p => { p with out := v })
    exact ⟨rfl, hout, hddr, rfl⟩
  case portB =>
    obtain ⟨hout, hddr⟩ := d.writePort_self cfg .viaB (fun p => { p with out := v })
    exact ⟨rfl, hout, hddr, rfl⟩
  case ddrA =>
    obtain ⟨hout, hddr⟩ := d.writePort_self cfg .viaA (fun p => { p with ddr := v })
    exact ⟨rfl, hddr, hout, rfl⟩
  case ddrB =>
    obtain ⟨hout, hddr⟩ := d.writePort_self cfg .viaB (fun p => { p with ddr := v })
    exact ⟨rfl, hddr, hout, rfl⟩

end Sys2Proof.Machine
end

section
/-! PROOFS. O53: the setters of the bus lines, what a port write and a control write forward to them, the blanking line. -/

namespace Sys2Proof.Machine

/-! ### Setters (R281, R284, R285) -/

theorem Bus.setLine_line (b : Bus) (l : Line) : b.setLine l (b.line l) = b := by
  cases l <;> rfl

/-- A call with the level the half already has does nothing (D36). -/
theorem Devices.lineOut_same {cfg : Config} {d : Devices} {l : Line} {level : Bool} (h : (d.bus.line l).ext = level) :
    d.lineOut cfg l level = d := by
  have hbus : d.bus.setLine l { d.bus.line l with ext := level } = d.bus := by
    rw [← h]
    exact d.bus.setLine_line l
  have hset : d.setBus (d.bus.setLine l { d.bus.line l with ext := level }) = d := by
    rw [hbus]
    rfl
  unfold Devices.lineOut
  cases l with
  | srq => rfl
  | dav | nrfd | ndac | atn | eoi =>
    dsimp only at hset ⊢
    rw [if_pos h]
    exact hset

/-- A call with another level sets the half, and then runs the edge rule of the line. -/
theorem Devices.lineOut_edge {cfg : Config} {d : Devices} {l : Line} {level : Bool} (hl : l ≠ .srq)
    (h : (d.bus.line l).ext ≠ level) :
    d.lineOut cfg l level = (d.setBus (d.bus.setLine l { d.bus.line l with ext := level })).edge cfg l level := by
  unfold Devices.lineOut
  cases l with
  | srq => exact absurd rfl hl
  | dav | nrfd | ndac | atn | eoi => exact if_neg h

theorem Devices.lineOut_ext_self (cfg : Config) (d : Devices) {l : Line} (level : Bool) (hl : l ≠ .srq) :
    ((d.lineOut cfg l level).bus.line l).ext = level := by
  rw [Devices.lineOut_ext, if_pos ⟨rfl, hl⟩]

/-! ### Forwarding a port write (R256, R269, R271) -/

/-- The wired bits of port `id` whose line value changed, in the order of the wiring. -/
def changedWires (cfg : Config) (id : PortId) (old new : Byte) : List OutWire :=
  cfg.chipset.outWires.filter (fun w => decide (w.port = id ∧ old.getLsbD w.bit ≠ new.getLsbD w.bit))

theorem mem_changedWires {cfg : Config} {id : PortId} {old new : Byte} {w : OutWire} :
    w ∈ changedWires cfg id old new ↔
      (w ∈ cfg.chipset.outWires ∧ w.port = id) ∧ old.getLsbD w.bit ≠ new.getLsbD w.bit := by
  rw [changedWires, List.mem_filter, decide_eq_true_eq, and_assoc]

/-- The devices once the row select and the data bus have been forwarded. -/
def Devices.beforeWires (cfg : Config) (id : PortId) (old new : Byte) (d : Devices) : Devices :=
  { d with
    keys := if cfg.chipset.rowPort = id then { d.keys with row := new &&& cfg.chipset.rowMask } else d.keys
    bus := { d.bus with data := if cfg.chipset.dataOutPort = id ∧ old ≠ new then new else d.bus.data } }

/-- The setters called for a list of wires, each with the new level of its bit. -/
def Devices.driveWires (cfg : Config) (new : Byte) (ws : List OutWire) (d : Devices) : Devices :=
  ws.foldl (fun e w => e.lineOut cfg w.line (new.getLsbD w.bit)) d

/-- Unchanged wires are skipped. -/
theorem Devices.foldl_forwardWire (cfg : Config) (id : PortId) (old new : Byte) (ws : List OutWire) (d : Devices) :
    (ws.filter (fun (w : OutWire) => w.port = id)).foldl (Devices.forwardWire cfg old new) d =
      Devices.driveWires cfg new
        (ws.filter (fun w => decide (w.port = id ∧ old.getLsbD w.bit ≠ new.getLsbD w.bit))) d := by
  have hskip : (ws.filter (fun w => decide (w.port = id ∧ old.getLsbD w.bit ≠ new.getLsbD w.bit))) =
      (ws.filter (fun (w : OutWire) => w.port = id)).filter (fun w => decide (old.getLsbD w.bit ≠ new.getLsbD w.bit)) := by
    rw [List.filter_filter]
    congr 1
    funext w
    rw [Bool.decide_and, Bool.and_comm]
  rw [hskip, Devices.driveWires, 
    List.foldl_filter (p := fun w : OutWire => decide (old.getLsbD w.bit ≠ new.getLsbD w.bit))]
  congr 1
  funext e w
  unfold Devices.forwardWire
  by_cases h : old.getLsbD w.bit = new.getLsbD w.bit <;> simp [h]

/-- The row select, then the data bus, then the setters of the wires that changed. -/
theorem Devices.forwardPort_eq (cfg : Config) (id : PortId) (old new : Byte) (d : Devices) :
    d.forwardPort cfg id old new =
      Devices.driveWires cfg new (changedWires cfg id old new) (d.beforeWires cfg id old new) := by
  unfold Devices.forwardPort Devices.beforeWires changedWires
  dsimp only
  rw [Devices.foldl_forwardWire]
  congr 1
  split <;> split <;> rfl

/-- A line that no wire of the list drives keeps its externally driven half. -/
theorem Devices.driveWires_ext_other {cfg : Config} {new : Byte} {ws : List OutWire} {l : Line}
    (h : ∀ w ∈ ws, w.line ≠ l) (d : Devices) :
    ((d.driveWires cfg new ws).bus.line l).ext = (d.bus.line l).ext := by
  induction ws generalizing d with
  | nil => rfl
  | cons w ws ih =>
    rw [Devices.driveWires, List.foldl_cons]
    refine (ih (fun w' hw' => h w' (List.mem_cons_of_mem _ hw')) _).trans ?_
    rw [Devices.lineOut_ext, if_neg]
    exact fun hl => h w List.mem_cons_self hl.1.symm

/-- A line that one wire of the list drives has the level of that wire's bit. -/
theorem Devices.driveWires_ext_self {cfg : Config} {new : Byte} {ws : List OutWire} {w : OutWire} (hw : w ∈ ws)
    (hsrq : w.line ≠ .srq) (huniq : ∀ w' ∈ ws, w'.line = w.line → w' = w) (d : Devices) :
    ((d.driveWires cfg new ws).bus.line w.line).ext = new.getLsbD w.bit := by
  induction ws generalizing d with
  | nil => exact absurd hw List.not_mem_nil
  | cons v ws ih =>
    rw [Devices.driveWires, List.foldl_cons]
    by_cases hin : w ∈ ws
    · exact ih hin (fun w' hw' => huniq w' (List.mem_cons_of_mem _ hw')) _
    · obtain rfl : w = v := (List.mem_cons.1 hw).resolve_right hin
      refine (Devices.driveWires_ext_other (fun w' hw' hl => ?_) _).trans (d.lineOut_ext_self cfg _ hsrq)
      exact hin (huniq w' (List.mem_cons_of_mem _ hw') hl ▸ hw')

/-! ### The blanking line (R258, R269) -/

theorem Devices.setBlanking_same {cfg : Config} {level : Bool} {d : Devices} (h : d.chip.blankLevel = level) :
    d.setBlanking cfg level = d :=
  if_pos h

theorem Devices.setBlanking_changed {cfg : Config} {level : Bool} {d : Devices} (h : d.chip.blankLevel ≠ level) :
    d.setBlanking cfg level = (d.setChip { d.chip with blankLevel := level }).lineOut cfg .eoi level :=
  if_neg h

theorem Devices.setBlanking_blankLevel (cfg : Config) (level : Bool) (d : Devices) :
    (d.setBlanking cfg level).chip.blankLevel = level := by
  rw [(d.setBlanking_frame cfg level).1]

theorem Devices.setBlanking_eoi (cfg : Config) (level : Bool) (d : Devices) :
    ((d.setBlanking cfg level).bus.line .eoi).ext =
      if d.chip.blankLevel = level then (d.bus.line .eoi).ext else level := by
  split
  · rename_i h
    rw [Devices.setBlanking_same h]
  · rename_i h
    rw [Devices.setBlanking_changed h, Devices.lineOut_ext_self _ _ _ (by decide)]

/-- Handshake outputs that all drive the blanking line set it once. -/
theorem Devices.foldl_forwardHandshake_blanking {cfg : Config} {level : Bool} {hs : List HandshakeOut} (hne : hs ≠ [])
    (hall : ∀ h ∈ hs, h.target = .blanking) (d : Devices) :
    hs.foldl (Devices.forwardHandshake cfg level) d = d.setBlanking cfg level := by
  have hstep (e : Devices) {h : HandshakeOut} (ht : h.target = .blanking) :
      e.forwardHandshake cfg level h = e.setBlanking cfg level := by
    rw [Devices.forwardHandshake, ht]
  have hrest (hs : List HandshakeOut) (e : Devices) (he : e.chip.blankLevel = level)
      (hall : ∀ h ∈ hs, h.target = .blanking) : hs.foldl (Devices.forwardHandshake cfg level) e = e := by
    induction hs with
    | nil => rfl
    | cons h hs ih =>
      rw [List.foldl_cons, hstep e (hall h List.mem_cons_self), Devices.setBlanking_same he]
      exact ih fun h' hh' => hall h' (List.mem_cons_of_mem _ hh')
  obtain ⟨h, hs, rfl⟩ := List.exists_cons_of_ne_nil hne
  rw [List.foldl_cons, hstep d (hall h List.mem_cons_self)]
  exact hrest hs _ (d.setBlanking_blankLevel cfg level) fun h' hh' => hall h' (List.mem_cons_of_mem _ hh')

/-! ### Forwarding a control write (R256, R258) -/

/-- The handshake outputs of a port. -/
def handshakesOf (cfg : Config) (p : PiaId) : List HandshakeOut :=
  cfg.chipset.handshakeOut.filter (fun h => h.pia = p)

theorem mem_handshakesOf {cfg : Config} {p : PiaId} {h : HandshakeOut} :
    h ∈ handshakesOf cfg p ↔ h ∈ cfg.chipset.handshakeOut ∧ h.pia = p := by
  rw [handshakesOf, List.mem_filter, decide_eq_true_eq]

/-- The devices once the control register holds what the write stores. -/
def Devices.storeControl (p : PiaId) (v : Byte) (d : Devices) : Devices :=
  d.setChip (d.chip.setCr p (controlByte (d.chip.pia p).cr v))

/-- The level that a write of `v` puts out, whatever the register held. -/
theorem handshakeLevel_controlByte (old v : Byte) :
    handshakeLevel (controlByte old v) = if v.getLsbD 5 ∧ v.getLsbD 4 then some (v.getLsbD 3) else none := by
  rw [handshakeLevel, controlByte_getLsbD _ _ (by decide), controlByte_getLsbD _ _ (by decide),
    controlByte_getLsbD _ _ (by decide)]
  rfl

/-- A write that puts out no level forwards nothing (log 23). -/
theorem Devices.writeControl_silent {cfg : Config} {p : PiaId} {v : Byte} {d : Devices}
    (h : ¬ (v.getLsbD 5 = true ∧ v.getLsbD 4 = true)) :
    d.writeControl cfg p v = (d.storeControl p v).settle cfg d.bus := by
  have hlevel : handshakeLevel (((d.chip.pia p).cr &&& 0xC0) ||| (v &&& 0x3F)) = none :=
    (handshakeLevel_controlByte _ v).trans (if_neg h)
  unfold Devices.writeControl
  dsimp only
  rw [hlevel]
  rfl

/-- A write that puts out a level forwards it to every handshake output of the port. -/
theorem Devices.writeControl_driving {cfg : Config} {p : PiaId} {v : Byte} {d : Devices}
    (h5 : v.getLsbD 5 = true) (h4 : v.getLsbD 4 = true) :
    d.writeControl cfg p v =
      ((handshakesOf cfg p).foldl (Devices.forwardHandshake cfg (v.getLsbD 3)) (d.storeControl p v)).settle cfg d.bus := by
  have hlevel : handshakeLevel (((d.chip.pia p).cr &&& 0xC0) ||| (v &&& 0x3F)) = some (v.getLsbD 3) :=
    (handshakeLevel_controlByte _ v).trans (if_pos ⟨h5, h4⟩)
  unfold Devices.writeControl
  dsimp only
  rw [hlevel]
  rfl

theorem Devices.settle_blankLevel (cfg : Config) (before : Bus) (d : Devices) :
    (d.settle cfg before).chip.blankLevel = d.chip.blankLevel := by
  have h := congrArg Chipset.blankLevel (d.settle_withPorts cfg before d.chip)
  exact h

theorem Devices.storeControl_blankLevel (p : PiaId) (v : Byte) (d : Devices) :
    (d.storeControl p v).chip.blankLevel = d.chip.blankLevel :=
  Chipset.setPia_blankLevel _ _ _

/-- Bus, Storage and blanking level stay where nothing is forwarded. -/
theorem Devices.writeControl_unforwarded {cfg : Config} {p : PiaId} {v : Byte} {d : Devices}
    (h : v.getLsbD 5 = false ∨ v.getLsbD 4 = false ∨ ∀ h ∈ cfg.chipset.handshakeOut, h.pia ≠ p) :
    (d.writeControl cfg p v).bus = d.bus ∧ (d.writeControl cfg p v).store = d.store ∧
      (d.writeControl cfg p v).chip.blankLevel = d.chip.blankLevel := by
  have hstored : d.writeControl cfg p v = (d.storeControl p v).settle cfg d.bus := by
    by_cases hb : v.getLsbD 5 = true ∧ v.getLsbD 4 = true
    · have hnone : handshakesOf cfg p = [] := by
        refine List.eq_nil_iff_forall_not_mem.2 fun x hx => ?_
        obtain ⟨hin, hp⟩ := mem_handshakesOf.1 hx
        rcases h with h | h | h
        · exact absurd (hb.1.symm.trans h) (by decide)
        · exact absurd (hb.2.symm.trans h) (by decide)
        · exact h x hin hp
      rw [Devices.writeControl_driving hb.1 hb.2, hnone]
      rfl
    · exact Devices.writeControl_silent hb
  rw [hstored]
  exact ⟨rfl, rfl, (Devices.settle_blankLevel _ _ _).trans (d.storeControl_blankLevel p v)⟩

/-- The blanking line follows bit 3 where all the port's handshake outputs drive it. -/
theorem Devices.writeControl_blanking {cfg : Config} {p : PiaId} {v : Byte} {d : Devices} (h5 : v.getLsbD 5 = true)
    (h4 : v.getLsbD 4 = true) (hex : ∃ h ∈ cfg.chipset.handshakeOut, h.pia = p)
    (hall : ∀ h ∈ cfg.chipset.handshakeOut, h.pia = p → h.target = .blanking) :
    (d.writeControl cfg p v).chip.blankLevel = v.getLsbD 3 ∧
      ((d.writeControl cfg p v).bus.line .eoi).ext =
        if d.chip.blankLevel = v.getLsbD 3 then (d.bus.line .eoi).ext else v.getLsbD 3 := by
  have hne : handshakesOf cfg p ≠ [] := by
    obtain ⟨h, hin, hp⟩ := hex
    exact List.ne_nil_of_mem (mem_handshakesOf.2 ⟨hin, hp⟩)
  rw [Devices.writeControl_driving h5 h4, Devices.foldl_forwardHandshake_blanking hne
    fun h hh => hall h (mem_handshakesOf.1 hh).1 (mem_handshakesOf.1 hh).2]
  refine ⟨(Devices.settle_blankLevel _ _ _).trans (Devices.setBlanking_blankLevel _ _ _), ?_⟩
  rw [Devices.settle_bus, Devices.setBlanking_eoi, Devices.storeControl_blankLevel]
  rfl

/-- A single handshake output that drives a line calls that line's setter. -/
theorem Devices.writeControl_line {cfg : Config} {p : PiaId} {v : Byte} {d : Devices} {h : HandshakeOut} {l : Line}
    (h5 : v.getLsbD 5 = true) (h4 : v.getLsbD 4 = true) (hone : handshakesOf cfg p = [h]) (hl : h.target = .line l) :
    d.writeControl cfg p v = ((d.storeControl p v).lineOut cfg l (v.getLsbD 3)).settle cfg d.bus := by
  rw [Devices.writeControl_driving h5 h4, hone, List.foldl_cons, List.foldl_nil, Devices.forwardHandshake, hl]

/-- Settles O53: the setters by the level of their half, port writes by the wires that changed, control writes by the
level they put out. -/
theorem busLines : Obligations.BusLines := by
  unfold Obligations.BusLines
  refine ⟨fun _ _ => rfl, fun cfg d l level hl => d.lineOut_ext_self cfg level hl, fun cfg d l level => Devices.lineOut_same,
    fun cfg d l level => Devices.lineOut_edge, fun cfg d l level => d.lineOut_srq cfg l level,
    fun cfg id put d => ⟨rfl, rfl, rfl⟩, fun cfg id old new d => ?_,
    fun cfg level d => ⟨Devices.setBlanking_same, fun h => ⟨Devices.setBlanking_changed h, ?_, ?_⟩⟩,
    fun cfg p v d => ⟨Devices.writeControl_unforwarded, ?_, Devices.writeControl_blanking, fun h l h5 h4 hone hl => ?_⟩⟩
  · intro wired changed f before
    have hf : f = Devices.driveWires cfg new (changedWires cfg id old new) before := d.forwardPort_eq cfg id old new
    refine ⟨hf, fun w hone => ?_, (d.forwardPort_frame cfg id old new).2, fun hno => ?_, fun l hno => ?_,
      fun w hw hsrq hc huniq => ?_⟩
    · rw [hf, changedWires, hone]
      rfl
    · have hnil : changedWires cfg id old new = [] :=
        List.eq_nil_iff_forall_not_mem.2 fun w hw => hno w (mem_changedWires.1 hw).1 (mem_changedWires.1 hw).2
      rw [hf, hnil]
      exact ⟨rfl, rfl⟩
    · rw [hf, Devices.driveWires_ext_other fun w hw hl => hno w (mem_changedWires.1 hw).1 hl (mem_changedWires.1 hw).2]
      cases l <;> rfl
    · rw [hf]
      exact Devices.driveWires_ext_self (mem_changedWires.2 ⟨hw, hc⟩) hsrq
        (fun w' hw' => huniq w' (mem_changedWires.1 hw').1) before
  · exact (d.setBlanking_frame cfg level).1
  · rw [Devices.setBlanking_eoi, if_neg h]
  · obtain ⟨u, hu, hkeys, -⟩ := d.writeControl_eq cfg p v
    rw [hu]
    exact hkeys
  · rw [Devices.writeControl_line h5 h4 hone hl]
    exact ⟨rfl, rfl, fun hsrq => Devices.lineOut_ext_self cfg _ _ hsrq⟩

end Sys2Proof.Machine
end

section
/-! PROOFS. The InstrumentBus: O54 (commands and data bytes by state), O55 (the handshake) and O56 (legacy transfers), row by
row of the command table and edge by edge. -/

namespace Sys2Proof.Machine

/-! ### Commands and data by state (R286 to R288) -/

section
variable {d : Devices} {byte : Byte}

theorem Devices.command_idle (cfg : Config) (h : d.bus.tag = .idle) : d.command cfg byte = d.commandIdle cfg byte := by
  rw [Devices.command, h]

theorem Devices.command_listen (cfg : Config) (h : d.bus.tag = .listen) :
    d.command cfg byte = d.commandListen cfg byte := by
  rw [Devices.command, h]

theorem Devices.command_capture (cfg : Config) (h : d.bus.tag = .filenameCapture) :
    d.command cfg byte = d.commandCapture cfg byte := by
  rw [Devices.command, h]

theorem Devices.command_load (cfg : Config) (h : d.bus.tag = .load) : d.command cfg byte = d.commandLoad cfg byte := by
  rw [Devices.command, h]

theorem Devices.command_save (cfg : Config) (h : d.bus.tag = .save) : d.command cfg byte = d.commandSave cfg byte := by
  rw [Devices.command, h]

theorem Devices.command_saveLegacy (cfg : Config) (h : d.bus.tag = .saveLegacy) : d.command cfg byte = d := by
  rw [Devices.command, h]

theorem Devices.dataByte_ignored (h : d.bus.tag = .idle ∨ d.bus.tag = .listen ∨ d.bus.tag = .load) :
    d.dataByte byte = d := by
  rw [Devices.dataByte]
  rcases h with h | h | h <;> rw [h]

theorem Devices.dataByte_capture (h : d.bus.tag = .filenameCapture) :
    d.dataByte byte = d.setStore (d.store.nextFilenameByte byte) := by
  rw [Devices.dataByte, h]

theorem Devices.dataByte_saved (h : d.bus.tag = .save ∨ d.bus.tag = .saveLegacy) :
    d.dataByte byte =
      { d with
        bus := { d.bus with offset := d.bus.offset + 1 }
        store := d.store.saveDataByte d.bus.offset byte } := by
  rw [Devices.dataByte]
  rcases h with h | h <;> rw [h]

end

/-! ### The rows of the command table (R287, R289, log 30) -/

section
variable {cfg : Config} {d : Devices} {byte : Byte}

theorem Devices.commandIdle_listen (h : byte = cfg.bus.listenBase + cfg.bus.deviceAddress) :
    d.commandIdle cfg byte = { d with bus := { d.bus with legacy := false, tag := .listen } } :=
  if_pos h

/-- Past the LISTEN and TALK rows. -/
theorem Devices.commandIdle_talk (h : byte ≠ cfg.bus.listenBase + cfg.bus.deviceAddress)
    (ht : byte = cfg.bus.talkBase + cfg.bus.deviceAddress) :
    d.commandIdle cfg byte = { d with bus := { d.bus with offset := 0, legacy := false, tag := .load } } := by
  rw [Devices.commandIdle, if_neg h, if_pos ht]
  rfl

theorem Devices.commandIdle_loadTrigger (h : byte ≠ cfg.bus.listenBase + cfg.bus.deviceAddress)
    (ht : byte ≠ cfg.bus.talkBase + cfg.bus.deviceAddress) (hl : byte = cfg.bus.legacyLoadTrigger) :
    d.commandIdle cfg byte =
      if d.store.hasDataToLoad then
        { d with
          store := (d.store.loadDataByte cfg 0).2
          bus := { d.bus with
            legacy := true, tag := .load
            offset := (if (d.store.loadDataByte cfg 0).1 = 0x00 then cfg.bus.legacyOffsetSentinel
              else cfg.bus.legacyOffsetOther).toNat } }
      else d := by
  rw [Devices.commandIdle, if_neg h, if_neg ht, if_pos hl]

theorem Devices.commandIdle_saveTrigger (h : byte ≠ cfg.bus.listenBase + cfg.bus.deviceAddress)
    (ht : byte ≠ cfg.bus.talkBase + cfg.bus.deviceAddress) (hl : byte ≠ cfg.bus.legacyLoadTrigger)
    (hs : byte = cfg.bus.legacySaveTrigger) :
    d.commandIdle cfg byte =
      { d with
        store := d.store.openLegacySave, bus := { d.bus with legacy := true, offset := 0, tag := .saveLegacy } } := by
  rw [Devices.commandIdle, if_neg h, if_neg ht, if_neg hl, if_pos hs]

theorem Devices.commandIdle_ignored (h : byte ≠ cfg.bus.listenBase + cfg.bus.deviceAddress)
    (ht : byte ≠ cfg.bus.talkBase + cfg.bus.deviceAddress) (hl : byte ≠ cfg.bus.legacyLoadTrigger)
    (hs : byte ≠ cfg.bus.legacySaveTrigger) : d.commandIdle cfg byte = d := by
  rw [Devices.commandIdle, if_neg h, if_neg ht, if_neg hl, if_neg hs]

theorem Devices.commandListen_openLoad (h : byte = cfg.bus.openLoad) :
    d.commandListen cfg byte =
      { d with bus := { d.bus with openKind := .load, tag := .filenameCapture }, store := d.store.startFilename } :=
  if_pos h

theorem Devices.commandListen_openSave (h : byte ≠ cfg.bus.openLoad) (hs : byte = cfg.bus.openSave) :
    d.commandListen cfg byte =
      { d with bus := { d.bus with openKind := .save, tag := .filenameCapture }, store := d.store.startFilename } := by
  rw [Devices.commandListen, if_neg h, if_pos hs]

theorem Devices.commandListen_openData (h : byte ≠ cfg.bus.openLoad) (hs : byte ≠ cfg.bus.openSave)
    (hd : cfg.bus.openDataFirst ≤ byte ∧ byte ≤ cfg.bus.openDataLast) :
    d.commandListen cfg byte = { d with bus := { d.bus with offset := 0, tag := .save } } := by
  rw [Devices.commandListen, if_neg h, if_neg hs, if_pos hd]
  rfl

theorem Devices.commandListen_rest (h : byte ≠ cfg.bus.openLoad) (hs : byte ≠ cfg.bus.openSave)
    (hd : ¬ (cfg.bus.openDataFirst ≤ byte ∧ byte ≤ cfg.bus.openDataLast)) :
    d.commandListen cfg byte =
      if byte = cfg.bus.unlisten then { d with bus := { d.bus with tag := .idle } } else d := by
  rw [Devices.commandListen, if_neg h, if_neg hs, if_neg hd]
  rfl

theorem Devices.commandCapture_load (h : byte = cfg.bus.unlisten) (hk : d.bus.openKind = .load) :
    d.commandCapture cfg byte =
      { d with bus := { d.bus with tag := .idle }, store := d.store.padFilename.fnameDone } := by
  rw [Devices.commandCapture, if_pos h, Devices.finalizeFilename, hk]
  rfl

theorem Devices.commandCapture_save (h : byte = cfg.bus.unlisten) (hk : d.bus.openKind = .save) :
    d.commandCapture cfg byte =
      { d with bus := { d.bus with tag := .idle }, store := d.store.padFilename.startSave } := by
  rw [Devices.commandCapture, if_pos h, Devices.finalizeFilename, hk]
  rfl

end

theorem Storage.nextFilenameByte_room {st : Storage} (b : Byte) (h : st.pendingName.length < 16) :
    st.nextFilenameByte b = { st with pendingName := st.pendingName ++ [b] } :=
  if_pos h

theorem Storage.nextFilenameByte_full {st : Storage} (b : Byte) (h : 16 ≤ st.pendingName.length) :
    st.nextFilenameByte b = st :=
  if_neg (by omega)

/-- Settles O54: the state selects the table, the byte its row; data bytes by state. -/
theorem busBytes : Obligations.BusBytes := by
  unfold Obligations.BusBytes
  intro cfg d byte
  refine ⟨fun h => if_neg (by rw [h]; decide), fun h => if_pos h, fun h => ?idle, fun h => ?listen, fun h => ?capture,
    fun h => ?load, fun h => ?save, fun st => ⟨rfl, rfl⟩⟩
  case idle =>
    rw [Devices.command_idle cfg h]
    exact ⟨Devices.commandIdle_listen, fun ht hl => Devices.commandIdle_talk hl ht, Devices.commandIdle_ignored,
      Devices.dataByte_ignored (.inl h)⟩
  case listen =>
    rw [Devices.command_listen cfg h]
    exact ⟨Devices.commandListen_openLoad, fun hs hl => Devices.commandListen_openSave hl hs,
      fun hl hs => ⟨fun h1 h2 => Devices.commandListen_openData hl hs ⟨h1, h2⟩, Devices.commandListen_rest hl hs⟩,
      Devices.dataByte_ignored (.inr (.inl h))⟩
  case capture =>
    rw [Devices.command_capture cfg h, Devices.dataByte_capture h]
    refine ⟨fun hu => ⟨Devices.commandCapture_load hu, Devices.commandCapture_save hu⟩, fun hu => if_neg hu,
      fun hroom => ?_, fun hfull => ?_⟩
    · rw [Storage.nextFilenameByte_room byte hroom]
      rfl
    · rw [Storage.nextFilenameByte_full byte hfull]
      rfl
  case load =>
    rw [Devices.command_load cfg h]
    exact ⟨fun hu => if_pos hu, fun hu => if_neg hu, Devices.dataByte_ignored (.inr (.inr h))⟩
  case save =>
    rw [Devices.command_save cfg h]
    exact ⟨fun hu => if_pos hu, fun hu => if_neg hu, Devices.dataByte_saved (.inl h)⟩

/-! ### The handshake (R290 to R294) -/

section
variable {d : Devices}

/-- A rising NDAC in Load: one byte further, DAV and EOI released, Idle at the length (R292). -/
theorem Devices.ndacRising_load (h : d.bus.tag = .load) :
    d.ndacRising =
      { d with
        store := d.store.loadDataLen.2
        bus :=
          { d.bus with
            offset := d.bus.offset + 1, dav.loc := true, eoi.loc := true
            tag := if d.bus.offset + 1 = d.store.loadDataLen.1 then .idle else .load } } := by
  rw [Devices.ndacRising, h]
  dsimp only [Bus.drive, Bus.setLine, Bus.line]
  split
  · rfl
  · rw [← h]

/-- With bytes remaining the next one is placed inverted, DAV asserted, and EOI with the penultimate one (R293). -/
theorem Devices.placeByte_remaining (cfg : Config) (h : d.bus.offset < d.store.loadDataLen.1) :
    d.placeByte cfg =
      { d with
        store := (d.store.loadDataLen.2.loadDataByte cfg d.bus.offset).2
        bus :=
          { d.bus with
            data := (d.store.loadDataLen.2.loadDataByte cfg d.bus.offset).1 ^^^ 0xFF, dav.loc := false
            eoi.loc := if d.bus.offset + 2 = d.store.loadDataLen.1 then false else d.bus.eoi.loc } } := by
  rw [Devices.placeByte]
  dsimp only
  rw [if_pos h]
  split <;> rfl

theorem Devices.placeByte_finished (cfg : Config) (h : d.store.loadDataLen.1 ≤ d.bus.offset) :
    d.placeByte cfg = { d with store := d.store.loadDataLen.2 } := by
  rw [Devices.placeByte]
  exact if_neg (by omega)

theorem Devices.nrfdRising_load (cfg : Config) (h : d.bus.tag = .load) : d.nrfdRising cfg = d.placeByte cfg := by
  rw [Devices.nrfdRising, h]

theorem Devices.atnRising_load (cfg : Config) (h : d.bus.tag = .load) :
    d.atnRising cfg = if d.bus.level .nrfd then d.placeByte cfg else d := by
  rw [Devices.atnRising, h]

/-- Outside Load the talker's edges do nothing. -/
theorem Devices.talker_silent (cfg : Config) (h : d.bus.tag ≠ .load) :
    d.ndacRising = d ∧ d.nrfdRising cfg = d ∧ d.atnRising cfg = d := by
  unfold Devices.ndacRising Devices.nrfdRising Devices.atnRising
  cases htag : d.bus.tag with
  | load => exact absurd htag h
  | idle | listen | filenameCapture | save | saveLegacy => exact ⟨rfl, rfl, rfl⟩

/-- A rising EOI ends a legacy save with one byte less, or none (R297, log 46). -/
theorem Devices.eoiRising_saveLegacy (h : d.bus.tag = .saveLegacy) :
    d.eoiRising =
      { d with
        bus := { d.bus with offset := d.bus.offset - 1, tag := .idle }
        store := d.store.endSave (d.bus.offset - 1) } := by
  rw [Devices.eoiRising, h]

theorem Devices.eoiRising_other (h : d.bus.tag ≠ .saveLegacy) : d.eoiRising = d := by
  unfold Devices.eoiRising
  cases htag : d.bus.tag with
  | saveLegacy => exact absurd htag h
  | idle | listen | filenameCapture | load | save => rfl

end

/-- Settles O55: each edge by its own rule. -/
theorem busHandshake : Obligations.BusHandshake := by
  unfold Obligations.BusHandshake
  intro cfg d
  refine ⟨fun h => ⟨?_, ?_⟩, fun h => ⟨?_, ?_⟩, fun h => ⟨d.ndacRising_load h, fun hlen => ?_, fun hlen => ?_,
    fun hn => ?_, fun hn => ?_⟩, fun h => d.talker_silent cfg h, rfl, rfl, rfl, rfl⟩
  · rw [Devices.edge, Devices.davFalling, h]
    rfl
  · rw [Devices.edge, Devices.davRising, h]
    rfl
  · rw [Devices.edge, Devices.davFalling, h]
    rfl
  · rw [Devices.edge, Devices.davRising, h]
    rfl
  · exact (d.nrfdRising_load cfg h).trans (d.placeByte_finished cfg hlen)
  · exact (d.nrfdRising_load cfg h).trans (d.placeByte_remaining cfg hlen)
  · exact ((d.atnRising_load cfg h).trans (if_pos hn)).trans (d.nrfdRising_load cfg h).symm
  · exact (d.atnRising_load cfg h).trans (if_neg (by rw [hn]; decide))

/-! ### Legacy transfers (R296, R297) -/

theorem LegacyStart.toNat_cases (start : LegacyStart) : start.toNat = 1 ∨ start.toNat = 2 := by
  cases start
  · exact .inl rfl
  · exact .inr rfl

theorem Storage.openLegacySave_open {st : Storage} {k : Fin 46} (hopen : st.writeOpen = true)
    (hcurrent : st.current = .slot k) : st.openLegacySave = { st with saved := 0 } := by
  rw [Storage.openLegacySave, hopen, hcurrent]

/-- With no slot open the target is a free value (U26, log 32). -/
theorem Storage.openLegacySave_unopened {st : Storage} (h : st.writeOpen = false ∨ ∀ k, st.current ≠ .slot k) :
    st.openLegacySave =
      { st with
        current := Config.freeFile st.freeCount, freeCount := st.freeCount + 1, writeOpen := true, saved := 0 } := by
  unfold Storage.openLegacySave
  split
  · rename_i k hopen hcurrent
    rcases h with h | h
    · exact absurd (hopen.symm.trans h) (by decide)
    · exact absurd hcurrent (h k)
  · rfl

/-- Settles O56: the two trigger rows of the command table, the data bytes and the end of a legacy save. -/
theorem legacyTransfers : Obligations.LegacyTransfers := by
  unfold Obligations.LegacyTransfers
  intro cfg d byte
  refine ⟨fun h hlisten htalk => ?_, fun h => ⟨Devices.command_saveLegacy cfg h, Devices.dataByte_saved (.inr h),
    Devices.eoiRising_saveLegacy h⟩, Devices.eoiRising_other⟩
  rw [Devices.command_idle cfg h]
  refine ⟨fun hload hnone => ?_, fun hload hdata => ?_, fun hsave hload => ?_⟩
  · rw [Devices.commandIdle_loadTrigger hlisten htalk hload, hnone]
    rfl
  · rw [Devices.commandIdle_loadTrigger hlisten htalk hload, if_pos hdata]
    exact ⟨_, rfl, rfl, LegacyStart.toNat_cases _⟩
  · rw [Devices.commandIdle_saveTrigger hlisten htalk hload hsave]
    exact ⟨rfl, fun k => Storage.openLegacySave_open, fun hno => ⟨_, _, Storage.openLegacySave_unopened hno⟩⟩

end Sys2Proof.Machine
end

section
/-! PROOFS. The Storage: O57 (the cache window, file bytes), O58 (what the device holds after a flush, `end_save()`, a power
loss and a failed erase). -/

namespace Sys2Proof.Machine

/-! ### Windows as 1024 bytes -/

theorem window_getD_set (w : Vector Byte 1024) {i : Nat} (v : Byte) (hi : i < 1024) (j : Nat) (e : Byte) :
    (w.set i v hi).toList.getD j e = if j = i then v else w.toList.getD j e := by
  rw [Vector.toList_set, List.getD_eq_getElem?_getD, List.getD_eq_getElem?_getD]
  split
  · rename_i h
    subst h
    rw [List.getElem?_set_self (by simpa using hi)]
    rfl
  · rename_i h
    rw [List.getElem?_set_ne (Ne.symm h)]

theorem window_getElem_eq_getD (w : Vector Byte 1024) {i : Nat} (hi : i < 1024) (e : Byte) :
    w[i] = w.toList.getD i e := by
  simp [hi]

theorem window_ext {w w' : Vector Byte 1024} (h : ∀ j, j < 1024 → w.toList.getD j 0 = w'.toList.getD j 0) : w = w' := by
  ext1 j hj
  rw [window_getElem_eq_getD w hj 0, window_getElem_eq_getD w' hj 0, h j hj]

/-! ### Hits and misses (R312 to R314) -/

theorem Storage.hits_iff {st : Storage} {addr : Nat} :
    st.hits addr = true ↔ st.valid = true ∧ st.base = addr / 1024 * 4096 := by
  rw [Storage.hits, Bool.and_eq_true, beq_iff_eq, Storage.sectorBase]

theorem Storage.flushIfDirty_of_dirty {st : Storage} (h : st.dirty = true) : st.flushIfDirty = st.flush := if_pos h

theorem Storage.flushIfDirty_of_clean {st : Storage} (h : st.dirty = false) : st.flushIfDirty = st :=
  if_neg (by rw [h]; decide)

/-- A flush leaves the window where it is, clean. -/
theorem Storage.flush_window (st : Storage) (addr : Nat) :
    st.flush.hits addr = st.hits addr ∧ st.flush.dirty = false := by
  obtain ⟨f, n, w, bs, bs', h⟩ := st.flush_state
  rw [h]
  exact ⟨rfl, rfl⟩

/-- After a flush nothing is left to flush. -/
theorem Storage.flushIfDirty_flush (st : Storage) : st.flush.flushIfDirty = st.flush :=
  Storage.flushIfDirty_of_clean (st.flush_window 0).2

theorem Storage.makeWritable_miss {st : Storage} {addr : Nat} (h : st.hits addr = false) :
    st.makeWritable addr =
      { st.flushIfDirty with
        base := addr / 1024 * 4096, buf := Vector.replicate 1024 0x00, valid := true, dirty := true } :=
  if_neg (by rw [h]; decide)

theorem Storage.makeResident_miss {st : Storage} {addr : Nat} (h : st.hits addr = false) :
    st.makeResident addr =
      { ({ st.flushIfDirty with base := addr / 1024 * 4096 }.deviceRead (addr / 1024 * 4096)) with
        valid := true, dirty := false } :=
  if_neg (by rw [h]; decide)

theorem Storage.hits_makeWritable (st : Storage) (addr : Nat) : (st.makeWritable addr).hits addr = true := by
  cases h : st.hits addr with
  | true => rwa [Storage.makeWritable, if_pos h]
  | false =>
    rw [Storage.makeWritable_miss h]
    exact Storage.hits_iff.2 ⟨rfl, rfl⟩

theorem Storage.hits_writeByte (st : Storage) (addr : Nat) (v : Byte) : (st.writeByte addr v).hits addr = true :=
  st.hits_makeWritable addr

/-- A miss with a dirty window flushes it first. -/
theorem Storage.writeByte_miss_dirty {st : Storage} {addr : Nat} (v : Byte) (h : st.hits addr = false)
    (hd : st.dirty = true) : st.writeByte addr v = st.flush.writeByte addr v := by
  have hflush : st.flush.hits addr = false := (st.flush_window addr).1.trans h
  rw [Storage.writeByte, Storage.writeByte, Storage.makeWritable_miss h, Storage.makeWritable_miss hflush,
    Storage.flushIfDirty_of_dirty hd, Storage.flushIfDirty_flush]

theorem Storage.readByte_miss_dirty {st : Storage} {addr : Nat} (h : st.hits addr = false) (hd : st.dirty = true) :
    st.readByte addr = st.flush.readByte addr := by
  have hflush : st.flush.hits addr = false := (st.flush_window addr).1.trans h
  rw [Storage.readByte, Storage.readByte, Storage.makeResident_miss h, Storage.makeResident_miss hflush,
    Storage.flushIfDirty_of_dirty hd, Storage.flushIfDirty_flush]

theorem Storage.writeByte_miss_clean {st : Storage} {addr : Nat} (v : Byte) (h : st.hits addr = false)
    (hd : st.dirty = false) :
    st.writeByte addr v =
      { st with base := addr / 1024 * 4096, buf := (st.writeByte addr v).buf, valid := true, dirty := true } := by
  rw [Storage.writeByte, Storage.makeWritable_miss h, Storage.flushIfDirty_of_clean hd]

/-- After a write the window is that of the write path with the one byte changed. -/
theorem Storage.writeByte_buf_getD (st : Storage) (addr : Nat) (v : Byte) (j : Nat) (e : Byte) :
    (st.writeByte addr v).buf.toList.getD j e =
      if j = addr % 1024 then v else (st.makeWritable addr).buf.toList.getD j e :=
  window_getD_set _ v (Nat.mod_lt _ (by decide)) j e

theorem Storage.readByte_hit {st : Storage} {addr : Nat} (h : st.hits addr = true) :
    st.readByte addr = (st.buf.toList.getD (addr % 1024) 0, st) := by
  rw [Storage.readByte, Storage.makeResident_of_hits h]
  exact congrArg (·, st) (window_getElem_eq_getD st.buf _ 0)

/-- A byte read just after it was written is the byte written. -/
theorem Storage.readByte_writeByte (st : Storage) (addr : Nat) (v : Byte) :
    ((st.writeByte addr v).readByte addr).1 = v := by
  rw [Storage.readByte_hit (st.hits_writeByte addr v)]
  exact (st.writeByte_buf_getD addr v _ 0).trans (if_pos rfl)

/-! ### A device that does not fail (R311, R313, R315, R317) -/

theorem Storage.deviceRead_ok {st : Storage} (h : st.failures = []) (base : Nat) :
    st.deviceRead base = { st with buf := windowOf (fun i => Cells.read erasedByte st.flash (base + i)) } := by
  have ho : st.takeOutcome = (false, st) := by rw [Storage.takeOutcome, h]
  rw [Storage.deviceRead, ho]
  rfl

/-- A miss of a clean window loads the window from the device and leaves the device. -/
theorem Storage.makeResident_miss_ok {st : Storage} {addr : Nat} (h : st.hits addr = false) (hd : st.dirty = false)
    (hf : st.failures = []) :
    st.makeResident addr =
      { st with
        base := addr / 1024 * 4096
        buf := windowOf (fun i => Cells.read erasedByte st.flash (addr / 1024 * 4096 + i)), valid := true
        dirty := false } := by
  rw [Storage.makeResident_miss h, Storage.flushIfDirty_of_clean hd]
  rw [Storage.deviceRead_ok (st := { st with base := addr / 1024 * 4096 }) hf]

/-- A read miss of a clean window answers the device's byte. -/
theorem Storage.readByte_miss_ok {st : Storage} {addr : Nat} (h : st.hits addr = false) (hd : st.dirty = false)
    (hf : st.failures = []) :
    (st.readByte addr).1 = Cells.read erasedByte st.flash (Storage.physical addr) := by
  have hlt : addr % 1024 < 1024 := Nat.mod_lt _ (by decide)
  rw [Storage.readByte]
  dsimp only
  rw [window_getElem_eq_getD _ hlt 0, Storage.makeResident_miss_ok h hd hf, windowOf_getD _ _ hlt, Storage.physical,
    Nat.add_comm]

/-- On a clean window the read path keeps everything but the window. -/
theorem Storage.makeResident_clean {st : Storage} (addr : Nat) (hd : st.dirty = false) (hf : st.failures = []) :
    ∃ b w, st.makeResident addr = { st with base := b, buf := w, valid := true, dirty := false } := by
  cases h : st.hits addr with
  | true =>
    rw [Storage.makeResident_of_hits h]
    exact ⟨st.base, st.buf, by rw [← (Storage.hits_iff.1 h).1, ← hd]⟩
  | false => exact ⟨_, _, Storage.makeResident_miss_ok h hd hf⟩

/-! ### File bytes (R308, R310) -/

theorem Storage.saveDataByte_slot {st : Storage} {k : Fin 46} (h : st.current = .slot k) (i : Nat) (v : Byte) :
    st.saveDataByte i v = { st.writeByte (Storage.dataAddr k i) v with saved := max st.saved (i + 1) } := by
  have hsaved : (st.writeByte (Storage.dataAddr k i) v).saved = st.saved := by
    rw [Storage.writeByte]
    dsimp only
    rw [Storage.makeWritable, Storage.flushIfDirty]
    split
    · rfl
    · split
      · obtain ⟨f, n, w, bs, bs', hflush⟩ := st.flush_state
        rw [hflush]
      · rfl
  rw [Storage.saveDataByte, h]
  dsimp only
  rw [hsaved]

theorem Storage.saveDataByte_unopened {st : Storage} (h : ∀ k, st.current ≠ .slot k) (i : Nat) (v : Byte) :
    st.saveDataByte i v = st := by
  rw [Storage.saveDataByte]
  cases hc : st.current with
  | slot k => exact absurd hc (h k)
  | noSlot | notFound => rfl

section
variable {st : Storage} {k : Fin 46}

theorem Storage.hasDataToLoad_slot (h : st.current = .slot k) : st.hasDataToLoad = true := by
  rw [Storage.hasDataToLoad, h, Bool.or_true]

theorem Storage.loadDataLen_slot (hl : st.listing = false) (h : st.current = .slot k) :
    st.loadDataLen = (st.fetchDirectory.dir[k].len.toNat, st.fetchDirectory) := by
  rw [Storage.loadDataLen, hl, h]
  rfl

theorem Storage.loadDataByte_slot (cfg : Config) {i : Nat} (hl : st.listing = false) (h : st.current = .slot k)
    (hi : i < st.fetchDirectory.dir[k].len.toNat) :
    st.loadDataByte cfg i = st.readByte (Storage.dataAddr k i) := by
  have hlen : i < st.loadDataLen.1 := by
    rw [Storage.loadDataLen_slot hl h]
    exact hi
  rw [Storage.loadDataByte, hl, h]
  exact if_pos hlen

theorem Storage.load_unopened (hl : st.listing = false) (h : ∀ k, st.current ≠ .slot k) :
    st.hasDataToLoad = false ∧ st.loadDataLen = (0, st) := by
  rw [Storage.hasDataToLoad, Storage.loadDataLen, hl]
  cases hc : st.current with
  | slot k => exact absurd hc (h k)
  | noSlot | notFound => exact ⟨rfl, rfl⟩

end

/-- Settles O57: hits and misses by the window's base, file bytes by the slot that is current. -/
theorem cacheWindow : Obligations.CacheWindow := by
  unfold Obligations.CacheWindow
  refine ⟨fun k i => ⟨rfl, rfl⟩, fun addr => rfl,
    fun st addr v => ⟨st.readByte_writeByte addr v, rfl, st.hits_writeByte addr v⟩,
    fun st addr => st.hits_makeResident addr, fun st addr => Storage.hits_iff,
    fun st addr v h => ⟨?_, fun j hj hne => ?_⟩,
    fun st addr v h => ⟨fun hd => ⟨Storage.writeByte_miss_dirty v h hd, Storage.readByte_miss_dirty h hd⟩,
      Storage.writeByte_miss_clean v h⟩,
    fun st addr => Storage.readByte_hit, fun st addr h hd hf => ⟨Storage.readByte_miss_ok h hd hf, ?_, ?_⟩,
    fun st addr v j h hj hne => ?_, fun st k i v h => Storage.saveDataByte_slot h i v,
    fun st hl => ⟨fun k h => ⟨Storage.hasDataToLoad_slot h, Storage.loadDataLen_slot hl h,
      fun cfg i hi => Storage.loadDataByte_slot cfg hl h hi⟩, fun h => ⟨(Storage.load_unopened hl h).1,
      (Storage.load_unopened hl h).2, Storage.saveDataByte_unopened h⟩⟩⟩
  · rw [Storage.writeByte_hit v h]
  · rw [Storage.writeByte_buf_getD, if_neg hne, Storage.makeWritable, if_pos h]
  · rw [Storage.readByte]
    dsimp only
    rw [Storage.makeResident_miss_ok h hd hf]
  · rw [Storage.readByte]
    dsimp only
    rw [Storage.makeResident_miss_ok h hd hf]
  · rw [Storage.writeByte_buf_getD, if_neg hne, Storage.makeWritable_miss h]
    dsimp only
    rw [← window_getElem_eq_getD _ hj, Vector.getElem_replicate]

/-! ### Flush (R315) -/

/-- What a successful flush leaves on the device: the sector erased, its first 1024 bytes the window. -/
def Storage.programmed (st : Storage) : List Host.Cell :=
  Cells.replace erasedByte (Cells.replace erasedByte st.flash st.base (List.replicate 4096 erasedByte)) st.base
    st.buf.toList

/-- A flush on a device that does not fail. -/
theorem Storage.flush_eq {st : Storage} (h : st.failures = []) :
    st.flush = { st with flash := st.programmed, dirty := false } := by
  obtain ⟨w, hflush, hw⟩ := Storage.flush_ok h
  rw [hflush, window_ext fun j => hw j 0]
  rfl

section
variable (st : Storage) {j : Nat}

theorem Storage.read_programmed_window (h : j < 1024) :
    Cells.read erasedByte st.programmed (st.base + j) = st.buf.toList.getD j 0 := by
  rw [Storage.programmed, Cells.read_replace_inside (by rwa [Vector.length_toList]), ← window_getElem_eq_getD _ h,
    ← window_getElem_eq_getD _ h]

theorem Storage.read_programmed_rest (h : 1024 ≤ j) (h' : j < 4096) :
    Cells.read erasedByte st.programmed (st.base + j) = 0xFF := by
  have hlen : st.buf.toList.length = 1024 := Vector.length_toList
  rw [Storage.programmed, Cells.read_replace_outside (.inr (by rw [hlen]; omega)),
    Cells.read_replace_inside (by rwa [List.length_replicate]), List.getD_replicate _ h']
  rfl

theorem Storage.read_programmed_outside {p : Nat} (h : p < st.base ∨ st.base + 4096 ≤ p) :
    Cells.read erasedByte st.programmed p = Cells.read erasedByte st.flash p := by
  have hlen : st.buf.toList.length = 1024 := Vector.length_toList
  rw [Storage.programmed, Cells.read_replace_outside (by rw [hlen]; omega),
    Cells.read_replace_outside (by rw [List.length_replicate]; exact h)]

end

/-- Writing a byte draws no outcome from a device that does not fail. -/
theorem Storage.writeByte_failures {st : Storage} (h : st.failures = []) (addr : Nat) (v : Byte) :
    (st.writeByte addr v).failures = [] := by
  rw [Storage.writeByte]
  dsimp only
  rw [Storage.makeWritable, Storage.flushIfDirty]
  split
  · exact h
  · split
    · rw [Storage.flush_eq h]
      exact h
    · exact h

/-- Once flushed, a byte written lies on the device at its physical address (R311, R315). -/
theorem Storage.read_flush_writeByte {st : Storage} (h : st.failures = []) (addr : Nat) (v : Byte) :
    Cells.read erasedByte (st.writeByte addr v).flush.flash (Storage.physical addr) = v := by
  have hlt : addr % 1024 < 1024 := Nat.mod_lt _ (by decide)
  have hphysical : Storage.physical addr = (st.writeByte addr v).base + addr % 1024 := by
    rw [(Storage.hits_iff.1 (st.hits_writeByte addr v)).2, Storage.physical, Nat.add_comm]
  rw [Storage.flush_eq (Storage.writeByte_failures h addr v), hphysical, Storage.read_programmed_window _ hlt,
    Storage.writeByte_buf_getD, if_pos rfl]

/-- A written byte survives the window's move to another chunk and back. -/
theorem Storage.readByte_after_move {st : Storage} {a b : Nat} (v : Byte) (h : st.failures = [])
    (hab : a / 1024 ≠ b / 1024) : ((((st.writeByte a v).readByte b).2).readByte a).1 = v := by
  have hf := Storage.writeByte_failures h a v
  have hbyte := Storage.read_flush_writeByte h a v
  have hbase := (Storage.hits_iff.1 (st.hits_writeByte a v)).2
  have hdirty : (st.writeByte a v).dirty = true := rfl
  generalize st.writeByte a v = w at hf hbyte hbase hdirty
  have hmiss : w.hits b = false := by
    rw [← Bool.not_eq_true, Storage.hits_iff]
    omega
  have hflushed : w.flush.failures = [] := by rw [Storage.flush_eq hf, hf]
  have hmoved : (w.readByte b).2 = _ := (congrArg Prod.snd (Storage.readByte_miss_dirty hmiss hdirty)).trans
    (Storage.makeResident_miss_ok ((w.flush_window b).1.trans hmiss) (w.flush_window b).2 hflushed)
  have hback : (w.readByte b).2.hits a = false := by
    rw [hmoved, ← Bool.not_eq_true, Storage.hits_iff]
    dsimp only
    omega
  rw [Storage.readByte_miss_ok hback (by rw [hmoved]) (by rw [hmoved]; exact hflushed), hmoved]
  exact hbyte

/-! ### Power loss (R319, R340) -/

/-- A memory access reaches the Storage through no read. -/
theorem State.get_store (s : State) (a : Addr) : (s.get a).2.dev.store = s.dev.store := by
  rw [State.get_state]
  dsimp only
  rcases readAt_dev s.config s.mem s.dev a with h | ⟨offset, h⟩
  · rw [h]
  · rw [h, Devices.read_store]

theorem State.hostReset_store (s : State) : s.hostReset.dev.store = s.dev.store :=
  ((s.get resetVector).2.get_store (resetVector + 1)).trans (s.get_store resetVector)

/-- Of the Storage a power loss keeps what the device holds. -/
theorem State.powerCycle_store (s : State) : s.powerCycle.dev.store = s.dev.store.powerUp :=
  State.hostReset_store _

/-- Of memory it keeps the bytes of ROM. -/
theorem State.byteAt_powerCycle {s : State} {a : Addr} (h : locate s.config a = .region .rom) :
    s.powerCycle.byteAt a = s.byteAt a := by
  refine Cells.read_filter_of_kept fun cell _ hcell => ?_
  rw [hcell, BitVec.ofNat_toNat, BitVec.setWidth_eq]
  exact decide_eq_true h

/-- A byte written and flushed is read after a power loss. -/
theorem State.readByte_powerCycle {s : State} (a : Nat) (v : Byte) (h : s.dev.store.failures = []) :
    (({ s with dev := s.dev.setStore (s.dev.store.writeByte a v).flush }.powerCycle.dev.store).readByte a).1 = v := by
  rw [State.powerCycle_store]
  have hf : (s.dev.store.writeByte a v).flush.failures = [] := by
    rw [Storage.flush_eq (Storage.writeByte_failures h a v)]
    exact Storage.writeByte_failures h a v
  exact (Storage.readByte_miss_ok (st := Storage.powerUp _) rfl rfl hf).trans (Storage.read_flush_writeByte h a v)

/-! ### `end_save()` (R309, R316) -/

theorem Storage.endSave_unopened {st : Storage} (h : ∀ k, st.current ≠ .slot k) (n : Nat) : st.endSave n = st := by
  rw [Storage.endSave]
  cases hc : st.current with
  | slot k => exact absurd hc (h k)
  | noSlot | notFound => rfl

/-- The two length bytes spell the count modulo 65536 (R301, log 39). -/
theorem lengthBytes_word (n : Nat) : (lengthBytes n).getD 0 0 ++ (lengthBytes n).getD 1 0 = BitVec.ofNat 16 n := by
  apply BitVec.eq_of_toNat_eq
  show (word (BitVec.ofNat 8 (n / 256)) (BitVec.ofNat 8 n)).toNat = _
  rw [word_toNat, BitVec.toNat_ofNat, BitVec.toNat_ofNat, BitVec.toNat_ofNat]
  omega

/-- On a device that does not fail the first flush of `end_save()` leaves a clean window and keeps everything but the
device's bytes. -/
theorem Storage.flushIfDirty_ok {st : Storage} (h : st.failures = []) :
    st.flushIfDirty = { st with flash := st.flushIfDirty.flash, dirty := false } := by
  cases hd : st.dirty with
  | true => rw [Storage.flushIfDirty_of_dirty hd, Storage.flush_eq h]
  | false =>
    rw [Storage.flushIfDirty_of_clean hd, ← hd]

/-- A slot's length field rewritten in a resident directory chunk: that slot's length changes, and no other slot. -/
theorem DirSlot.parse_set_length {w w' : Vector Byte 1024} {k : Fin 46} {n : Nat}
    (hin : ∀ j e, j < 2 → w'.toList.getD (Storage.slotAddr k + 20 + j) e = (lengthBytes n).getD j e)
    (hout : ∀ p e, p < Storage.slotAddr k + 20 ∨ Storage.slotAddr k + 20 + 2 ≤ p →
      w'.toList.getD p e = w.toList.getD p e) :
    DirSlot.parse w' k = { DirSlot.parse w k with len := BitVec.ofNat 16 n } ∧
      ∀ j : Fin 46, j ≠ k → DirSlot.parse w' j = DirSlot.parse w j := by
  refine ⟨?_, fun j hj => DirSlot.parse_congr fun i hi => hout _ 0 ?_⟩
  · have hlow (j : Nat) (hj : j < 20) :
        w'.toList.getD (Storage.slotAddr k + j) 0 = w.toList.getD (Storage.slotAddr k + j) 0 := hout _ 0 (by omega)
    have hname : (List.range 16).map (fun j => w'.toList.getD (Storage.slotAddr k + j) 0) =
        (List.range 16).map (fun j => w.toList.getD (Storage.slotAddr k + j) 0) :=
      List.map_congr_left fun j hj => hlow j (by have := List.mem_range.1 hj; omega)
    have hlen : w'.toList.getD (Storage.slotAddr k + 20) 0 ++ w'.toList.getD (Storage.slotAddr k + 21) 0 =
        BitVec.ofNat 16 n := by
      rw [← lengthBytes_word, ← hin 0 0 (by decide), ← hin 1 0 (by decide)]
    simp only [DirSlot.parse, hname, hlow 16 (by decide), hlow 17 (by decide), hlow 18 (by decide),
      hlow 19 (by decide), hlen]
  · have hne : j.val ≠ k.val := fun e => hj (Fin.ext e)
    simp only [Storage.slotAddr]
    omega

/-- After the first flush the directory chunk is made resident: the device and the current file stay. -/
theorem Storage.directory_resident {st : Storage} (hf : st.failures = []) :
    (st.flushIfDirty.makeResident 0).hits 0 = true ∧ (st.flushIfDirty.makeResident 0).failures = [] ∧
      (st.flushIfDirty.makeResident 0).current = st.current ∧
      (st.flushIfDirty.makeResident 0).flash = st.flushIfDirty.flash := by
  have hflush := Storage.flushIfDirty_ok hf
  have hf' : st.flushIfDirty.failures = [] := by rw [hflush, hf]
  obtain ⟨b, w, hm⟩ := Storage.makeResident_clean 0 (st := st.flushIfDirty) (by rw [hflush]) hf'
  exact ⟨st.flushIfDirty.hits_makeResident 0, by rw [hm, hf'], by rw [hm, hflush], by rw [hm]⟩

/-- `end_save()` of an open slot on a device that does not fail: the directory chunk with the slot's two length bytes
rewritten, and flushed. -/
theorem Storage.endSave_slot {st : Storage} {k : Fin 46} (n : Nat) (h : st.current = .slot k) (hf : st.failures = []) :
    let m := st.flushIfDirty.makeResident 0
    ∃ w : Vector Byte 1024,
      st.endSave n =
        { m with
          flash := { m with buf := w }.programmed, buf := w, dirty := false, dirValid := false, writeOpen := false
          saved := 0 } ∧
      (∀ j e, j < 2 → w.toList.getD (Storage.slotAddr k + 20 + j) e = (lengthBytes n).getD j e) ∧
      (∀ p e, p < Storage.slotAddr k + 20 ∨ Storage.slotAddr k + 20 + 2 ≤ p →
        w.toList.getD p e = m.buf.toList.getD p e) := by
  intro m
  obtain ⟨hhit, hfm, -, -⟩ := Storage.directory_resident hf
  have hroom : Storage.slotAddr k + 20 + (lengthBytes n).length ≤ 1024 := by
    simp only [Storage.slotAddr, lengthBytes, List.length_cons, List.length_nil]
    omega
  obtain ⟨w, dirty, hw, hin, hout⟩ := Storage.writeBytes_hit (lengthBytes n) hhit hroom
  refine ⟨w, ?_, hin, hout⟩
  rw [Storage.endSave, h]
  dsimp only
  rw [Storage.setFilesize]
  dsimp only
  rw [hw, Storage.flush_eq (by exact hfm)]
  rfl

/-! ### A failed erase (R317, log 37) -/

theorem Storage.deviceErase_failed {st : Storage} {rest : List Bool} (h : st.failures = true :: rest) (base : Nat) :
    ∃ bs, st.deviceErase base =
      (false, { st with
        failures := rest, freeCount := st.freeCount + 4096, flash := Cells.replace erasedByte st.flash base bs }) := by
  have ho : st.takeOutcome = (true, { st with failures := rest }) := by rw [Storage.takeOutcome, h]
  rw [Storage.deviceErase, ho]
  exact ⟨_, rfl⟩

/-- `n` free values from number `c` on. -/
def freeValues (c n : Nat) : List Byte := (List.range n).map (fun i => Config.freeByte (c + i))

theorem length_freeValues (c n : Nat) : (freeValues c n).length = n := by
  rw [freeValues, List.length_map, List.length_range]

theorem freeValues_getD (c : Nat) {n j : Nat} (e : Byte) (h : j < n) :
    (freeValues c n).getD j e = Config.freeByte (c + j) := by
  simp [freeValues, h]

theorem Storage.freeBytes_eq (st : Storage) (n : Nat) :
    st.freeBytes n = (freeValues st.freeCount n, { st with freeCount := st.freeCount + n }) := rfl

/-- A page programmed after a failed erase holds free values, whatever the programming does. -/
theorem Storage.deviceProgram_unerased (st : Storage) (base : Nat) :
    ∃ f, st.deviceProgram base false =
      { st with
        failures := f, freeCount := st.freeCount + 1024
        flash := Cells.replace erasedByte st.flash base (freeValues st.freeCount 1024) } := by
  obtain ⟨f, h⟩ := st.takeOutcome_state
  refine ⟨f, ?_⟩
  rw [Storage.deviceProgram]
  dsimp only
  rw [Bool.not_false, Bool.or_true, if_pos rfl, h, Storage.freeBytes_eq, Storage.deviceSet]

/-- A read gives the device's bytes or free values. -/
theorem Storage.deviceRead_getD (st : Storage) (base : Nat) {j : Nat} (e : Byte) (hj : j < 1024) :
    (st.deviceRead base).buf.toList.getD j e = Config.freeByte (st.freeCount + j) ∨
      (st.deviceRead base).buf.toList.getD j e = Cells.read erasedByte st.flash (base + j) := by
  obtain ⟨f, h⟩ := st.takeOutcome_state
  rw [Storage.deviceRead]
  dsimp only
  rw [h]
  split
  · exact .inl (windowOf_getD _ _ hj)
  · exact .inr (windowOf_getD _ _ hj)

/-- A flush whose erase fails reads back from a device whose page holds free values. -/
theorem Storage.flush_of_failed_erase {st : Storage} (h : st.failures.head? = some true) :
    ∃ (q : Storage) (m : List Host.Cell), st.flush = { q.deviceRead st.base with dirty := false } ∧
      st.freeCount ≤ q.freeCount ∧
      q.flash = Cells.replace erasedByte m st.base (freeValues (st.freeCount + 4096) 1024) := by
  obtain ⟨rest, hrest⟩ := List.head?_eq_some_iff.1 h
  obtain ⟨bs, he⟩ := Storage.deviceErase_failed hrest st.base
  obtain ⟨f, hp⟩ := Storage.deviceProgram_unerased
    { st with
      failures := rest, freeCount := st.freeCount + 4096, flash := Cells.replace erasedByte st.flash st.base bs } st.base
  rw [Storage.flush, he]
  dsimp only at hp ⊢
  rw [hp]
  exact ⟨_, _, rfl, by dsimp only; omega, rfl⟩

/-- After a failed erase the flush leaves free values on the device and in the window. -/
theorem Storage.flush_failed_erase {st : Storage} (h : st.failures.head? = some true) {j : Nat} (hj : j < 1024) :
    (∃ n, st.freeCount ≤ n ∧ Cells.read erasedByte st.flush.flash (st.base + j) = Config.freeByte n) ∧
    (∃ n, st.freeCount ≤ n ∧ st.flush.buf.toList.getD j 0 = Config.freeByte n) := by
  obtain ⟨q, m, hflush, hcount, hflash⟩ := Storage.flush_of_failed_erase h
  have hpage : Cells.read erasedByte q.flash (st.base + j) = Config.freeByte (st.freeCount + 4096 + j) := by
    rw [hflash, Cells.read_replace_inside (by rwa [length_freeValues]), freeValues_getD _ _ hj]
  obtain ⟨f, n, w, hread⟩ := q.deviceRead_state st.base
  refine ⟨⟨st.freeCount + 4096 + j, by omega, ?_⟩, ?_⟩
  · rw [hflush, hread]
    exact hpage
  · rw [hflush]
    rcases q.deviceRead_getD st.base 0 hj with hb | hb
    · exact ⟨q.freeCount + j, by omega, hb⟩
    · exact ⟨st.freeCount + 4096 + j, by omega, hb.trans hpage⟩

/-- Settles O58: flushes by what they program, power loss by what `powerUp` keeps, `end_save()` by the directory chunk it
flushes. -/
theorem flushPersists : Obligations.FlushPersists := by
  unfold Obligations.FlushPersists
  refine ⟨fun st => ⟨Storage.flushIfDirty_of_dirty, Storage.flushIfDirty_of_clean⟩, fun st h => ?_,
    fun st a b v => Storage.readByte_after_move v, fun s a v => State.readByte_powerCycle a v, fun s => ?_,
    fun st n h => Storage.endSave_unopened h n, fun st n k h hf halign => ?_, fun st h j => Storage.flush_failed_erase h⟩
  · rw [Storage.flush_eq h]
    exact ⟨rfl, rfl, fun j => st.read_programmed_window, fun j => st.read_programmed_rest,
      fun p => st.read_programmed_outside⟩
  · rw [State.powerCycle_store]
    exact ⟨rfl, rfl, rfl, rfl, rfl, fun a => State.byteAt_powerCycle⟩
  · intro before u
    obtain ⟨hhit, -, hcurrent, hflash⟩ := Storage.directory_resident hf
    obtain ⟨w, hu, hin, hout⟩ := Storage.endSave_slot n h hf
    have hu' : u = _ := hu
    have hbefore : before = (st.flushIfDirty.makeResident 0).buf := rfl
    generalize st.flushIfDirty.makeResident 0 = m at hhit hcurrent hflash hin hout hu' hbefore
    have hbase : m.base = 0 := (Storage.hits_iff.1 hhit).2
    obtain ⟨hslot, hothers⟩ := DirSlot.parse_set_length hin hout
    rw [hbefore, hu']
    refine ⟨⟨hcurrent.trans h, rfl, rfl, rfl, rfl, hhit⟩, hslot, hothers, fun j hj => ?_, fun hd hne j hj => ?_⟩
    · have hread : Cells.read erasedByte { m with buf := w }.programmed (m.base + j) = w.toList.getD j 0 :=
        Storage.read_programmed_window _ hj
      rw [show m.base + j = j by omega] at hread
      exact hread
    · dsimp only
      rw [Storage.read_programmed_outside { m with buf := w } (by dsimp only; omega)]
      dsimp only
      rw [hflash, Storage.flushIfDirty_of_dirty hd, Storage.flush_eq hf, Storage.read_programmed_window _ hj]

end Sys2Proof.Machine
end

section
/-! PROOFS. O60: the fabricated directory listing byte by byte, the closing quote of a line, the slots listed. -/

namespace Sys2Proof.Machine

/-! ### A line of the listing (R318, D26) -/

/-- The next-line pointer of line `k`: 0 on the last one. -/
def nextLine (base : Addr) (slots : List DirSlot) (k : Nat) : Addr :=
  if k + 1 < slots.length then base + BitVec.ofNat 16 (24 * (k + 1)) else 0x0000

/-- Byte `j` of line `k`, after the two header bytes and `k` lines. -/
theorem listingByte_line (base : Addr) {slots : List DirSlot} {k j : Nat} (h : k < slots.length) (hj : j < 24) :
    listingByte base slots (2 + 24 * k + j) = listingLineByte (nextLine base slots k) slots[k] j := by
  have hline : (2 + 24 * k + j - 2) / 24 = k := by omega
  have hbyte : (2 + 24 * k + j - 2) % 24 = j := by omega
  rw [listingByte, if_neg (by omega), if_neg (by omega), hline, hbyte]
  dsimp only
  rw [List.getElem?_eq_getElem h]
  rfl

/-- The name field of a line: the name, with the closing quote in place of one byte. -/
theorem listingLineByte_name (next : Addr) (s : DirSlot) {j : Nat} (hj : j < 16) :
    listingLineByte next s (7 + j) = if j = quoteIndex s.name then 0x22 else s.name.toList.getD j 0 := by
  rw [listingLineByte, if_neg (by omega), if_neg (by omega), if_neg (by omega), if_neg (by omega), if_neg (by omega),
    if_neg (by omega), if_pos (by omega), Nat.add_sub_cancel_left]

/-! ### The closing quote -/

/-- The number of bytes up to the last non-zero one among the first `n`. -/
def usedLength (f : Nat → Byte) (n : Nat) : Nat := (List.range n).foldl (fun q j => if f j = 0 then q else j + 1) 0

theorem usedLength_succ (f : Nat → Byte) (n : Nat) :
    usedLength f (n + 1) = if f n = 0 then usedLength f n else n + 1 := by
  rw [usedLength, List.range_succ, List.foldl_append]
  rfl

theorem usedLength_of_zeros {f : Nat → Byte} {n : Nat} (h : ∀ j, j < n → f j = 0) : usedLength f n = 0 := by
  induction n with
  | zero => rfl
  | succ n ih => rw [usedLength_succ, if_pos (h n (Nat.lt_succ_self n)), ih fun j hj => h j (Nat.lt_succ_of_lt hj)]

theorem usedLength_of_last {f : Nat → Byte} {n q : Nat} (hq : q < n) (hne : f q ≠ 0)
    (hzero : ∀ j, q < j → j < n → f j = 0) : usedLength f n = q + 1 := by
  induction n with
  | zero => exact absurd hq (Nat.not_lt_zero q)
  | succ n ih =>
    rw [usedLength_succ]
    rcases Nat.lt_succ_iff_lt_or_eq.1 hq with hlt | rfl
    · rw [if_pos (hzero n hlt (Nat.lt_succ_self n)), ih hlt fun j h1 h2 => hzero j h1 (Nat.lt_succ_of_lt h2)]
    · rw [if_neg hne]

theorem quoteIndex_eq (name : Vector Byte 16) : quoteIndex name = min 15 (usedLength (name.toList.getD · 0) 16) := rfl

/-! ### The slots listed (R303) -/

theorem vector_toList_eq_map_finRange {α : Type} {n : Nat} (v : Vector α n) :
    v.toList = (List.finRange n).map (fun i => v[i]) := by
  apply List.ext_getElem
  · simp
  · intro i h1 h2
    simp

theorem populatedSlots_eq (dir : Vector DirSlot 46) :
    populatedSlots dir =
      ((List.finRange 46).filter (fun k => decide (dir[k].addr ≠ 0 ∧ dir[k].addr ≠ 0xFFFFFFFF))).map (fun k => dir[k]) := by
  rw [populatedSlots, vector_toList_eq_map_finRange, List.filter_map]
  congr 2
  funext k
  rw [Bool.eq_iff_iff]
  simp [DirSlot.free]

/-! ### Listing mode (R310) -/

section
variable {st : Storage}

theorem Storage.loadDataLen_listing (h : st.listing = true) :
    st.loadDataLen = (2 + 24 * (populatedSlots st.fetchDirectory.dir).length, st.fetchDirectory) :=
  if_pos h

theorem Storage.loadDataByte_listing (cfg : Config) {i : Nat} (h : st.listing = true)
    (hi : i < 2 + 24 * (populatedSlots st.fetchDirectory.dir).length) :
    st.loadDataByte cfg i =
      (listingByte cfg.listingBase (populatedSlots st.fetchDirectory.dir) i, st.fetchDirectory) := by
  rw [Storage.loadDataByte, if_pos h]
  exact if_pos hi

end

/-- Settles O60: the header, a line by its 24 bytes, the quote by the last non-zero byte of the name. -/
theorem listingStream : Obligations.ListingStream := by
  unfold Obligations.ListingStream
  refine ⟨fun base slots => ⟨rfl, rfl⟩, fun base slots k h => ?_, fun name => ⟨fun q hq hzero hne => ?_, fun hne => ?_,
    fun hzero => ?_⟩, populatedSlots_eq, fun st h => ⟨?_, ?_, fun cfg i => Storage.loadDataByte_listing cfg h⟩⟩
  · intro at' next
    have hat (j : Nat) (hj : j < 24) : at' j = listingLineByte next slots[k] j := listingByte_line base h hj
    refine ⟨?_, ?_, hat 4 (by decide), hat 5 (by decide), hat 6 (by decide), hat 23 (by decide), fun j hj => ?_⟩
    · rw [hat 0 (by decide), hat 1 (by decide)]
      exact word_high_low next
    · rw [hat 2 (by decide), hat 3 (by decide)]
      exact word_high_low slots[k].len
    · rw [hat _ (by omega), listingLineByte_name _ _ hj]
  · rw [quoteIndex_eq, usedLength_of_last (by omega) hne hzero]
    omega
  · rw [quoteIndex_eq, usedLength_of_last (show 15 < 16 by decide) hne fun j h1 h2 => by omega]
    rfl
  · rw [quoteIndex_eq, usedLength_of_zeros hzero]
    rfl
  · rw [Storage.loadDataLen_listing h]
  · rw [Storage.hasDataToLoad, h, Bool.true_or]

end Sys2Proof.Machine
end
